-- ==== Sys2Proof/Word.lean ====
section
/-! DEFINITION. The machine's word types (10_state R45, 20_memory R70, R71). -/

namespace Sys2Proof

/-- A register, a command word, a window word, a TC or VC element (s32). -/
abbrev Word := BitVec 32

/-- An element of DIFF, COEFF, QCOEFF, DQCOEFF or DEQ (s16). -/
abbrev Half := BitVec 16

/-- An element of SRC, PRED or EOB (u8). -/
abbrev Byte := BitVec 8

/-- One row of nine entropy-context flags, entry `k` at bit `k` (10_state R41). -/
abbrev Flags9 := BitVec 9

end Sys2Proof
end

