-- ==== Sys2Proof/Syntax.lean ====
section
/-! DEFINITION. The commands (30_encoding R102): one constructor per row of spec/opcode_table.json, with the
fields that row uses. BLK is 5 bits, PT 2 bits, G one bit (30_encoding R100). -/

namespace Sys2Proof

/-- A command of FTE-VP8. Constructor arguments stand in the order BLK, PT, G (30_encoding R108). -/
inductive Instr where
  | nop
  | subB (blk : BitVec 5)
  | subMby
  | subMbuv
  | subMb
  | fdct4x4 (blk : BitVec 5)
  | fdct8x4 (blk : BitVec 5)
  | buildDc
  | walsh4x4
  | xformMby
  | xformMbuv
  | xformMb
  | dqB (blk : BitVec 5) (pt : BitVec 2)
  | optB (blk : BitVec 5) (pt : BitVec 2) (g : Bool)
  | optMb (g : Bool)
  | optMby (g : Bool)
  | optMbuv (g : Bool)
  | ctxSnap
  | ctxCommit
  deriving DecidableEq, Repr

end Sys2Proof
end

