-- ==== Sys2Proof/WellFormed.lean ====
section
/-! DEFINITION. Well-formed commands: the legal BLK values of 30_encoding R102 and R105. -/

namespace Sys2Proof

/-- BLK of SUB_B and FDCT4X4: 0..23. -/
def blkOfPlane (blk : BitVec 5) : Bool := decide (blk.toNat ≤ 23)

/-- BLK of FDCT8X4: 0, 2, ..., 22 (30_encoding R105). -/
def blkOfPair (blk : BitVec 5) : Bool := decide (blk.toNat ≤ 22) && decide (blk.toNat % 2 = 0)

/-- BLK of DQ_B and OPT_B: 0..24. -/
def blkOfSlot (blk : BitVec 5) : Bool := decide (blk.toNat ≤ 24)

/-- The legal-BLK check of 30_encoding R102 and R105. -/
def Instr.wf : Instr → Bool
  | .nop => true
  | .subB blk => blkOfPlane blk
  | .subMby => true
  | .subMbuv => true
  | .subMb => true
  | .fdct4x4 blk => blkOfPlane blk
  | .fdct8x4 blk => blkOfPair blk
  | .buildDc => true
  | .walsh4x4 => true
  | .xformMby => true
  | .xformMbuv => true
  | .xformMb => true
  | .dqB blk _ => blkOfSlot blk
  | .optB blk _ _ => blkOfSlot blk
  | .optMb _ => true
  | .optMby _ => true
  | .optMbuv _ => true
  | .ctxSnap => true
  | .ctxCommit => true

/-- A command whose BLK, if it has one, is legal. -/
abbrev Instr.WellFormed (i : Instr) : Prop := i.wf = true

end Sys2Proof
end

