-- ==== Sys2Proof/Decode.lean ====
section
/-! DEFINITION. Command words: the decoder (30_encoding R103..R106), the assembler (R108), the match and mask of
each command (R107), and the fixed name `decodeTableWord`. -/

namespace Sys2Proof

/-- Why a word is no command (30_encoding R103..R106), in the order the checks are made. -/
inductive DecodeError where
  /-- OP is in no row of 30_encoding R102. -/
  | illegalOp
  /-- RSV, or a field the opcode does not use, is not zero (30_encoding R104). -/
  | rsvdField
  /-- BLK is outside the opcode's legal set (30_encoding R105). -/
  | badBlk (blk : BitVec 5)
  deriving DecidableEq, Repr

/-- Field OP, bits 5:0 (30_encoding R100). -/
def opField (w : Word) : BitVec 6 := w.extractLsb' 0 6
/-- Field BLK, bits 10:6. -/
def blkField (w : Word) : BitVec 5 := w.extractLsb' 6 5
/-- Field PT, bits 12:11. -/
def ptField (w : Word) : BitVec 2 := w.extractLsb' 11 2
/-- Field G, bit 13. -/
def gField (w : Word) : Bool := w.getLsbD 13
/-- Field RSV, bits 31:14. -/
def rsvField (w : Word) : BitVec 18 := w.extractLsb' 14 18

/-- RSV is zero, and so is every one of BLK, PT, G that the opcode does not use (30_encoding R104). -/
def unusedZero (w : Word) (usesBlk usesPt usesG : Bool) : Bool :=
  decide (rsvField w = 0) && (usesBlk || decide (blkField w = 0)) &&
    (usesPt || decide (ptField w = 0)) && (usesG || !gField w)

/-- The checks after OP, in order: unused fields, then BLK (30_encoding R103). -/
def checkFields (w : Word) (usesBlk usesPt usesG legalBlk : Bool) (i : Instr) :
    Except DecodeError Instr :=
  if unusedZero w usesBlk usesPt usesG = false then .error .rsvdField
  else if legalBlk = false then .error (.badBlk (blkField w))
  else .ok i

/-- The decoder: OP first, then the other fields (30_encoding R102, R103). -/
def decode (w : Word) : Except DecodeError Instr :=
  match (opField w).toNat with
  | 0x00 => checkFields w false false false true .nop
  | 0x01 => checkFields w true false false (blkOfPlane (blkField w)) (.subB (blkField w))
  | 0x02 => checkFields w false false false true .subMby
  | 0x03 => checkFields w false false false true .subMbuv
  | 0x04 => checkFields w false false false true .subMb
  | 0x08 => checkFields w true false false (blkOfPlane (blkField w)) (.fdct4x4 (blkField w))
  | 0x09 => checkFields w true false false (blkOfPair (blkField w)) (.fdct8x4 (blkField w))
  | 0x0A => checkFields w false false false true .buildDc
  | 0x0B => checkFields w false false false true .walsh4x4
  | 0x0C => checkFields w false false false true .xformMby
  | 0x0D => checkFields w false false false true .xformMbuv
  | 0x0E => checkFields w false false false true .xformMb
  | 0x10 => checkFields w true true false (blkOfSlot (blkField w)) (.dqB (blkField w) (ptField w))
  | 0x14 =>
    checkFields w true true true (blkOfSlot (blkField w)) (.optB (blkField w) (ptField w) (gField w))
  | 0x15 => checkFields w false false true true (.optMb (gField w))
  | 0x16 => checkFields w false false true true (.optMby (gField w))
  | 0x17 => checkFields w false false true true (.optMbuv (gField w))
  | 0x18 => checkFields w false false false true .ctxSnap
  | 0x19 => checkFields w false false false true .ctxCommit
  | _ => .error .illegalOp

/-- `OP | blk << 6 | pt << 11 | g << 13` (30_encoding R108). -/
def assemble (op : BitVec 6) (blk : BitVec 5) (pt : BitVec 2) (g : Bool) : Word :=
  op.setWidth 32 ||| (blk.setWidth 32 <<< 6) ||| (pt.setWidth 32 <<< 11) |||
    ((BitVec.ofBool g).setWidth 32 <<< 13)

/-- The OP value of each command (30_encoding R102). -/
def Instr.opcode : Instr → BitVec 6
  | .nop => 0x00#6
  | .subB _ => 0x01#6
  | .subMby => 0x02#6
  | .subMbuv => 0x03#6
  | .subMb => 0x04#6
  | .fdct4x4 _ => 0x08#6
  | .fdct8x4 _ => 0x09#6
  | .buildDc => 0x0A#6
  | .walsh4x4 => 0x0B#6
  | .xformMby => 0x0C#6
  | .xformMbuv => 0x0D#6
  | .xformMb => 0x0E#6
  | .dqB _ _ => 0x10#6
  | .optB _ _ _ => 0x14#6
  | .optMb _ => 0x15#6
  | .optMby _ => 0x16#6
  | .optMbuv _ => 0x17#6
  | .ctxSnap => 0x18#6
  | .ctxCommit => 0x19#6

/-- The assembler (30_encoding R108): a field the command does not use is 0. -/
def encode : Instr → Word
  | .subB blk => assemble (Instr.subB blk).opcode blk 0 false
  | .fdct4x4 blk => assemble (Instr.fdct4x4 blk).opcode blk 0 false
  | .fdct8x4 blk => assemble (Instr.fdct8x4 blk).opcode blk 0 false
  | .dqB blk pt => assemble (Instr.dqB blk pt).opcode blk pt false
  | .optB blk pt g => assemble (Instr.optB blk pt g).opcode blk pt g
  | .optMb g => assemble (Instr.optMb g).opcode 0 0 g
  | .optMby g => assemble (Instr.optMby g).opcode 0 0 g
  | .optMbuv g => assemble (Instr.optMbuv g).opcode 0 0 g
  | .nop => assemble Instr.nop.opcode 0 0 false
  | .subMby => assemble Instr.subMby.opcode 0 0 false
  | .subMbuv => assemble Instr.subMbuv.opcode 0 0 false
  | .subMb => assemble Instr.subMb.opcode 0 0 false
  | .buildDc => assemble Instr.buildDc.opcode 0 0 false
  | .walsh4x4 => assemble Instr.walsh4x4.opcode 0 0 false
  | .xformMby => assemble Instr.xformMby.opcode 0 0 false
  | .xformMbuv => assemble Instr.xformMbuv.opcode 0 0 false
  | .xformMb => assemble Instr.xformMb.opcode 0 0 false
  | .ctxSnap => assemble Instr.ctxSnap.opcode 0 0 false
  | .ctxCommit => assemble Instr.ctxCommit.opcode 0 0 false

/-- `mask` of the command's row of spec/opcode_table.json (30_encoding R107). -/
def Instr.mask : Instr → Word
  | .subB _ => 0xFFFFF83F#32
  | .fdct4x4 _ => 0xFFFFF83F#32
  | .fdct8x4 _ => 0xFFFFF83F#32
  | .dqB _ _ => 0xFFFFE03F#32
  | .optB _ _ _ => 0xFFFFC03F#32
  | .optMb _ => 0xFFFFDFFF#32
  | .optMby _ => 0xFFFFDFFF#32
  | .optMbuv _ => 0xFFFFDFFF#32
  | .nop => 0xFFFFFFFF#32
  | .subMby => 0xFFFFFFFF#32
  | .subMbuv => 0xFFFFFFFF#32
  | .subMb => 0xFFFFFFFF#32
  | .buildDc => 0xFFFFFFFF#32
  | .walsh4x4 => 0xFFFFFFFF#32
  | .xformMby => 0xFFFFFFFF#32
  | .xformMbuv => 0xFFFFFFFF#32
  | .xformMb => 0xFFFFFFFF#32
  | .ctxSnap => 0xFFFFFFFF#32
  | .ctxCommit => 0xFFFFFFFF#32

/-- The word whose low `nbits` bits are `w` and whose other bits are 0. A command is one 32-bit word. -/
def tableWord (nbits w : Nat) : Word := BitVec.ofNat 32 (w % 2 ^ nbits)

/-- The host's check: the command the decoder reads from the word of an opcode-table row. -/
def decodeTableWord (nbits w : Nat) : Option Instr :=
  match decode (tableWord nbits w) with
  | .ok i => some i
  | .error _ => none

end Sys2Proof
end

