-- ==== Sys2Proof/Machine/Flags.lean ====
section
/-! DEFINITION. Arithmetic with the sticky flag STATUS.WRAP (00_scope R9, 60_exceptions R290). -/

namespace Sys2Proof.Machine

/-- A computation on exact integers that carries STATUS.WRAP along: started at the flag's value, it ends at its
value after every `wrap32` and `trunc16` done. -/
abbrev Arith (α : Type) := StateM Bool α

/-- The two's complement value of `v` in `bits` bits (00_scope R9). -/
def narrow (bits : Nat) (v : Int) : Int := Int.bmod v (2 ^ bits)

/-- `narrow`, setting WRAP if it changes its argument (00_scope R9). -/
def narrowing (bits : Nat) (v : Int) : Arith Int := fun w =>
  (narrow bits v, w || decide (narrow bits v ≠ v))

/-- `wrap32` (00_scope R9). -/
def wrap32 (v : Int) : Arith Int := narrowing 32 v

/-- `trunc16` (00_scope R9). -/
def trunc16 (v : Int) : Arith Int := narrowing 16 v

/-- `asr(v, n) = floor(v / 2^n)` (00_scope R9). -/
def asr (v : Int) (n : Nat) : Int := v / (2 ^ n : Int)

/-- `[c]` (00_scope R9). -/
def ind (c : Bool) : Int := if c then 1 else 0

/-- 32-bit `+`, `−` and `×` of the transforms (41_transform R150). -/
def add32 (a b : Int) : Arith Int := wrap32 (a + b)
def sub32 (a b : Int) : Arith Int := wrap32 (a - b)
def mul32 (a b : Int) : Arith Int := wrap32 (a * b)

/-- `f` on every element of a list, in order. -/
def collect {α β : Type} (f : α → Arith β) : List α → Arith (List β)
  | [] => pure []
  | a :: as => do
    let b ← f a
    let bs ← collect f as
    pure (b :: bs)

end Sys2Proof.Machine
end

