-- ==== Sys2Proof/Config.lean ====
section
/-! DEFINITION. What is fixed for the machine: identification constants, and the values the spec leaves open
(free values: constants with no body, of which nothing can be proved). The OPEN parameters of 00_scope R8 are
plain data in the state (`Machine.Params`), so that every statement holds for every value of them. -/

namespace Sys2Proof

/-- ID register (10_state R33): the ASCII bytes VP8T. -/
def Config.idWord : Word := 0x56503854#32

/-- VERSION register (10_state R39). -/
def Config.versionWord : Word := 0x00000001#32

/-- FREE VALUE (70_reset R322; log entry 4). What the array element at window offset `off` holds after the
`epoch`-th hardware reset while neither the host nor a command has written it: any value, the same on every
read. An element narrower than 32 bits takes the low bits. -/
opaque Config.unwritten (epoch off : Nat) : Word

/-- FREE VALUE (20_memory R81; log entry 6). What the `n`-th host read of state a running command may write
returns: any value, of which the read takes what the type of the element or register holds (`Machine.Loc.fit`). -/
opaque Config.busyRead (n : Nat) : Word

end Sys2Proof
end

