-- ==== Sys2Proof/Machine/State.lean ====
section
/-! DEFINITION. The machine's state as plain data (10_state), the reasons a step can stop, and the state after a
hardware reset (10_state R51, 70_reset R320, R323). -/

namespace Sys2Proof.Machine

/-- Why the machine stops. -/
inductive Fault where
  /-- A host access outside the 64 KiB window (20_memory R70), raised by `hostRead` and `hostWrite`. Safe: such an
  access is not the engine's and the model stops (log entry 8). -/
  | outsideWindow (addr : Nat)
  deriving DecidableEq, Repr

/-- Why the machine has no meaning for a command. -/
inductive Refusal where
  /-- A command with no meaning yet, raised by an arm of `exec` only. No arm raises it. Safe: the model stops. -/
  | notModelled (mnemonic : String)
  deriving DecidableEq, Repr

/-- CTRL (10_state R34). Bit 31, SOFT_RESET, is an action of the write and holds nothing. -/
structure Ctrl where
  /-- bit 0 -/
  optEn : Bool
  /-- bit 1 -/
  ctxCommit : Bool
  /-- bit 2 -/
  eobClamp : Bool
  /-- bit 3 -/
  irqEn : Bool
  deriving DecidableEq, Repr

/-- The errors a command can end in (60_exceptions R281). -/
inductive ErrorCode where
  | illegalOp
  | rsvdField
  | badBlk
  | badEob
  | badLevel
  | badMode
  deriving DecidableEq, Repr

/-- STATUS (10_state R35) but for BUSY, which is "a command is latched" (log entry 9). ERR and ERRCODE are one
optional code: ERR is 1 exactly when there is a code, and ERRCODE reads 0 whenever ERR is 0. -/
structure Status where
  /-- bit 1 -/
  done : Bool
  /-- bit 2 (ERR) and bits 11:8 (ERRCODE) -/
  error : Option ErrorCode
  /-- bit 3 -/
  ovr : Bool
  /-- bit 4 -/
  wrap : Bool
  /-- bit 5 -/
  busywr : Bool
  deriving DecidableEq, Repr

/-- MBCFG (10_state R37). -/
structure MbCfg where
  /-- bits 1:0; 0 WHOLE, 1 SPLIT, 2 BPRED, 3 reserved -/
  mode : BitVec 2
  /-- bit 2 -/
  intra : Bool
  /-- bit 3 -/
  aboveValid : Bool
  /-- bit 4 -/
  leftValid : Bool
  deriving DecidableEq, Repr

/-- ERRINFO (10_state R43). -/
structure ErrInfo where
  /-- bits 4:0 -/
  blk : BitVec 5
  /-- bits 12:8 -/
  pos : BitVec 5
  deriving DecidableEq, Repr

/-- The command held while BUSY = 1 (10_state R49), with the number of steps it stays BUSY, the executing step
counted (70_reset R340; log entry 3). -/
structure Latched where
  word : Word
  left : Nat
  deriving DecidableEq, Repr

/-- An array of `w`-bit elements (10_state R45): the elements written since the last hardware reset, by index,
indices strictly rising (log entry 5). -/
abbrev Elems (w : Nat) := List (Nat × BitVec w)

/-- The OPEN parameters of the instance (00_scope R8): never written by a step (log entry 2). -/
structure Params where
  /-- BASE: the window's host byte address (20_memory R70). -/
  base : Nat
  /-- RDDIV_TRIVIAL, s32 (44_orchestration R250). -/
  rddivTrivial : Word
  /-- LATENCY(op) - 1 for each value of OP (70_reset R340). -/
  busyExtra : Vector Nat 64
  deriving DecidableEq, Repr

/-- What the host does in one of its steps (00_scope R14, 30_encoding R108; log entry 1). -/
inductive HostAction where
  /-- A read of `width` bits at host byte address `addr`. -/
  | read (addr width : Nat)
  /-- A write of `width` bits at host byte address `addr`. -/
  | write (addr width : Nat) (value : Word)
  /-- Reads STATUS until BUSY = 0 (30_encoding R108, 20_memory R83). -/
  | poll
  /-- Waits until the interrupt output is 1 (20_memory R83, 60_exceptions R292). -/
  | waitIrq
  /-- Makes no access. -/
  | idle
  /-- The platform asserts the hardware reset input (70_reset R320). -/
  | hardReset
  deriving DecidableEq, Repr

/-- The window's answer to the host's latest access. -/
inductive Reply where
  /-- The word a read returned. -/
  | value (w : Word)
  /-- A write was taken by the window (performed, refused with OVR, or dropped: STATUS tells which). -/
  | taken
  /-- A bus error: wrong width or alignment (20_memory R75). -/
  | busError
  deriving DecidableEq, Repr

/-- The machine: the engine's registers and arrays (10_state), and the model's own fields after them. -/
structure State where
  /-- CTRL (R34). -/
  ctrl : Ctrl
  /-- STATUS (R35). -/
  status : Status
  /-- The latched command (R36, R49); STATUS.BUSY is 1 exactly when there is one. -/
  latch : Option Latched
  /-- MBCFG (R37). -/
  mbcfg : MbCfg
  /-- RDMULT, s32 (R38). -/
  rdmult : Word
  /-- RDDIV, s32 (R38). -/
  rddiv : Word
  /-- PRM[0..3], s32 (R40). -/
  prm : Vector Word 4
  /-- CTX_ABOVE: CA (R41). -/
  ctxAbove : Flags9
  /-- CTX_LEFT: CL (R41). -/
  ctxLeft : Flags9
  /-- WCTX_ABOVE: WA (R42). -/
  wctxAbove : Flags9
  /-- WCTX_LEFT: WL (R42). -/
  wctxLeft : Flags9
  /-- ERRINFO (R43). -/
  errinfo : ErrInfo
  /-- SRC[0..383] (R45). -/
  src : Elems 8
  /-- PRED[0..383]. -/
  pred : Elems 8
  /-- DIFF[0..399]. -/
  diff : Elems 16
  /-- COEFF[0..399]. -/
  coeff : Elems 16
  /-- QCOEFF[0..399]. -/
  qcoeff : Elems 16
  /-- DQCOEFF[0..399]. -/
  dqcoeff : Elems 16
  /-- EOB[0..24]. -/
  eob : Elems 8
  /-- DEQ[t][i] at index t·16 + i. -/
  deq : Elems 16
  /-- TC[t][band][ctx][tok] at index ((t·8 + band)·3 + ctx)·12 + tok. -/
  tc : Elems 32
  /-- VC[v] at index v + 2048. -/
  vc : Elems 32
  /-- MODEL'S OWN: the OPEN parameters. -/
  params : Params
  /-- MODEL'S OWN: what the host still does, in program order (20_memory R79). -/
  host : List HostAction
  /-- MODEL'S OWN: the answer to the host's latest access. -/
  reply : Option Reply
  /-- MODEL'S OWN: hardware resets so far; selects the free values of unwritten elements. -/
  epoch : Nat
  /-- MODEL'S OWN: free values handed to reads while busy so far. -/
  fresh : Nat
  deriving DecidableEq, Repr

/-- CTRL at reset: 0x0000_0002 (10_state R51). -/
def Ctrl.atReset : Ctrl := { optEn := false, ctxCommit := true, eobClamp := false, irqEn := false }

/-- STATUS at reset: 0 (10_state R51). -/
def Status.atReset : Status :=
  { done := false, error := none, ovr := false, wrap := false, busywr := false }

/-- MBCFG at reset: 0 (10_state R51). -/
def MbCfg.atReset : MbCfg := { mode := 0, intra := false, aboveValid := false, leftValid := false }

/-- PRM at reset: 4, 16, 2, 4 (10_state R40). -/
def prmAtReset : Vector Word 4 := #v[4#32, 16#32, 2#32, 4#32]

/-- The parameters `State.reset` carries: RDDIV_TRIVIAL at the spec's default 0, BASE 0, every LATENCY 1
(log entry 2). -/
def Params.default : Params :=
  { base := 0, rddivTrivial := 0, busyExtra := Vector.replicate 64 0 }

/-- The state after the `epoch`-th hardware reset of an instance with parameters `p` (10_state R51, 70_reset R323):
registers at their reset values, no command latched, no array element written. -/
def State.powerOn (p : Params) (epoch : Nat) : State :=
  { ctrl := .atReset, status := .atReset, latch := none, mbcfg := .atReset, rdmult := 0, rddiv := 0,
    prm := prmAtReset, ctxAbove := 0, ctxLeft := 0, wctxAbove := 0, wctxLeft := 0,
    errinfo := { blk := 0, pos := 0 },
    src := [], pred := [], diff := [], coeff := [], qcoeff := [], dqcoeff := [], eob := [], deq := [],
    tc := [], vc := [],
    params := p, host := [], reply := none, epoch := epoch, fresh := 0 }

/-- The machine right after reset. -/
def State.reset : State := State.powerOn Params.default 0

end Sys2Proof.Machine
end

