-- ==== Sys2Proof/Machine/Operands.lean ====
section
/-! DEFINITION. Operands: elements of the arrays (10_state R45), block geometry (40_residual R130), context indices
(10_state R47), and the optimizer's tables (43_trellis R201..R205). -/

namespace Sys2Proof.Machine

/-! ### Arrays as sparse lists -/

/-- The element at index `j`, if it has been written since the last hardware reset. -/
def Elems.find {w : Nat} (m : Elems w) (j : Nat) : Option (BitVec w) :=
  match m with
  | [] => none
  | (k, v) :: rest => if j = k then some v else Elems.find rest j

/-- `X[j] <- v`, keeping the indices strictly rising. -/
def Elems.put {w : Nat} (m : Elems w) (j : Nat) (v : BitVec w) : Elems w :=
  match m with
  | [] => [(j, v)]
  | (k, u) :: rest =>
    if j < k then (j, v) :: (k, u) :: rest
    else if j = k then (j, v) :: rest
    else (k, u) :: Elems.put rest j v

/-- The writes `X[j] <- v` of a list, in order. -/
def Elems.putAll {w : Nat} (m : Elems w) (us : List (Nat × Int)) : Elems w :=
  us.foldl (fun m u => m.put u.1 (BitVec.ofInt w u.2)) m

/-- The canonical form (log entry 5): indices strictly rising and below the array's size `n`. -/
def Elems.wf {w : Nat} (n : Nat) (m : Elems w) : Bool :=
  match m with
  | [] => true
  | (k, _) :: rest =>
    decide (k < n) && (match rest with | [] => true | (k', _) :: _ => decide (k < k')) && Elems.wf n rest

/-- What an element holds that nothing has written since the last hardware reset: the free value of its window
offset (70_reset R322; log entry 4). -/
def State.unwritten (s : State) (w off : Nat) : BitVec w := (Config.unwritten s.epoch off).setWidth w

/-- `X[j]` of an array that starts at window offset `base` (20_memory R70). -/
def State.elem {w : Nat} (s : State) (m : Elems w) (base j : Nat) : BitVec w :=
  match m.find j with
  | some v => v
  | none => s.unwritten w (base + 4 * j)

/-- The offsets where the arrays start (20_memory R70). -/
def srcBase : Nat := 0x0400
def predBase : Nat := 0x0A00
def diffBase : Nat := 0x1000
def coeffBase : Nat := 0x2000
def qcoeffBase : Nat := 0x3000
def dqcoeffBase : Nat := 0x4000
def eobBase : Nat := 0x4800
def deqBase : Nat := 0x4900
def tcBase : Nat := 0x5000
def vcBase : Nat := 0x8000

/-- `SRC[j]` and the elements of the other arrays (00_scope R10, 10_state R45). -/
def State.srcAt (s : State) (j : Nat) : Byte := s.elem s.src srcBase j
def State.predAt (s : State) (j : Nat) : Byte := s.elem s.pred predBase j
def State.diffAt (s : State) (j : Nat) : Half := s.elem s.diff diffBase j
def State.coeffAt (s : State) (j : Nat) : Half := s.elem s.coeff coeffBase j
def State.qcoeffAt (s : State) (j : Nat) : Half := s.elem s.qcoeff qcoeffBase j
def State.dqcoeffAt (s : State) (j : Nat) : Half := s.elem s.dqcoeff dqcoeffBase j
def State.eobAt (s : State) (b : Nat) : Byte := s.elem s.eob eobBase b
def State.deqElem (s : State) (j : Nat) : Half := s.elem s.deq deqBase j
def State.tcElem (s : State) (j : Nat) : Word := s.elem s.tc tcBase j
def State.vcElem (s : State) (j : Nat) : Word := s.elem s.vc vcBase j

/-- `DEQ[t][i]` as an integer. -/
def State.deqAt (s : State) (t : BitVec 2) (i : Nat) : Int := (s.deqElem (t.toNat * 16 + i)).toInt

/-- `VC[v]` as an integer, for a level `v` in −2048..2047. -/
def State.vcAt (s : State) (v : Int) : Int := (s.vcElem (v + 2048).toNat).toInt

/-! ### Block geometry -/

/-- The origin of block `b` in SRC, PRED and DIFF (40_residual R130). -/
def blockOrigin (b : Nat) : Nat :=
  if b < 16 then (b / 4) * 64 + (b % 4) * 4
  else if b < 20 then 256 + ((b - 16) / 2) * 32 + ((b - 16) % 2) * 4
  else if b < 24 then 320 + ((b - 20) / 2) * 32 + ((b - 20) % 2) * 4
  else 384

/-- The row stride of block `b` (40_residual R130). -/
def blockStride (b : Nat) : Nat := if b < 16 then 16 else if b < 24 then 8 else 4

/-- The index of element (r, c) of block `b` (40_residual R130). -/
def blockIndex (b r c : Nat) : Nat := blockOrigin b + r * blockStride b + c

/-- The 16 indices of block `b`, row by row. -/
def blockIndices (b : Nat) : List Nat :=
  (List.range 16).map fun k => blockIndex b (k / 4) (k % 4)

/-! ### Entropy-context indices -/

/-- `A(b)` (10_state R47). -/
def aboveIndex (b : Nat) : Nat :=
  if b < 16 then b % 4
  else if b < 20 then 4 + (b - 16) % 2
  else if b < 24 then 6 + (b - 20) % 2
  else 8

/-- `L(b)` (10_state R47). -/
def leftIndex (b : Nat) : Nat :=
  if b < 16 then b / 4
  else if b < 20 then 4 + (b - 16) / 2
  else if b < 24 then 6 + (b - 20) / 2
  else 8

/-- Flag `k` of a context row written with `f`. -/
def setFlag (row : Flags9) (k : Nat) (f : Bool) : Flags9 :=
  if f then row ||| BitVec.twoPow 9 k else row &&& ~~~ BitVec.twoPow 9 k

/-! ### The optimizer's tables -/

/-- `ZZ` (43_trellis R201): the raster position of scan index `i`. -/
def zz (i : Nat) : Nat := [0, 1, 4, 8, 5, 2, 3, 6, 9, 12, 13, 10, 7, 11, 14, 15].getD i 0

/-- `BAND` (43_trellis R202). Only positions 0..15 are read (log entry 15). -/
def band (p : Nat) : Nat := [0, 1, 2, 3, 6, 4, 5, 6, 6, 6, 6, 6, 6, 6, 6, 7].getD p 0

/-- The token alphabet (43_trellis R203). -/
inductive Token where
  | zero
  | one
  | two
  | three
  | four
  | cat1
  | cat2
  | cat3
  | cat4
  | cat5
  | cat6
  | eob
  deriving DecidableEq, Repr

/-- The token's number, 0..11 (43_trellis R203). -/
def Token.index : Token → Nat
  | .zero => 0
  | .one => 1
  | .two => 2
  | .three => 3
  | .four => 4
  | .cat1 => 5
  | .cat2 => 6
  | .cat3 => 7
  | .cat4 => 8
  | .cat5 => 9
  | .cat6 => 10
  | .eob => 11

/-- `TOK(x)` (43_trellis R203). -/
def tokenOf (x : Int) : Token :=
  let a := x.natAbs
  if a = 0 then .zero
  else if a = 1 then .one
  else if a = 2 then .two
  else if a = 3 then .three
  else if a = 4 then .four
  else if a ≤ 6 then .cat1
  else if a ≤ 10 then .cat2
  else if a ≤ 18 then .cat3
  else if a ≤ 34 then .cat4
  else if a ≤ 66 then .cat5
  else .cat6

/-- `PCLASS` (43_trellis R204). -/
def pclass : Token → Nat
  | .zero => 0
  | .one => 1
  | .two => 2
  | .three => 2
  | .four => 2
  | .cat1 => 2
  | .cat2 => 2
  | .cat3 => 2
  | .cat4 => 2
  | .cat5 => 2
  | .cat6 => 2
  | .eob => 0

/-- `TC[t][bd][ctx][tok]` as an integer (10_state R45, 20_memory R70). -/
def State.tcAt (s : State) (t : BitVec 2) (bd ctx : Nat) (tok : Token) : Int :=
  (s.tcElem (((t.toNat * 8 + bd) * 3 + ctx) * 12 + tok.index)).toInt

/-- `i0 := [t == 0]` (43_trellis R205). -/
def firstPos (t : BitVec 2) : Nat := if t = 0 then 1 else 0

/-- `C(i)`, `Q(i)`, `D(i)`, `S(i)` of 43_trellis for block `b` and plane type `t`. -/
def State.coefScan (s : State) (b i : Nat) : Int := (s.coeffAt (b * 16 + zz i)).toInt
def State.levelScan (s : State) (b i : Nat) : Int := (s.qcoeffAt (b * 16 + zz i)).toInt
def State.dqScan (s : State) (b i : Nat) : Int := (s.dqcoeffAt (b * 16 + zz i)).toInt

/-- `HAS_Y2` (10_state R37). -/
def State.hasY2 (s : State) : Bool := decide (s.mbcfg.mode = 0)

end Sys2Proof.Machine
end

