-- ==== Sys2Proof/Machine/Ops.lean ====
section
/-! DEFINITION. Named operations every command is built from: how a command ends (60_exceptions R280..R285), the
checks of R283, the sticky flag, and the entropy-context copies (44_orchestration R253). -/

namespace Sys2Proof.Machine

/-! ### How a command ends -/

/-- Completion: DONE set, BUSY cleared and the latch emptied (10_state R32, R35, R49). -/
def State.complete (s : State) : State :=
  { s with latch := none, status := { s.status with done := true } }

/-- A failed check: the code and what ERRINFO gets (60_exceptions R281). -/
structure Failure where
  code : ErrorCode
  blk : BitVec 5
  pos : BitVec 5
  deriving DecidableEq, Repr

/-- ENDING IN ERROR, the one operation every error takes (60_exceptions R284): ERR and ERRCODE, ERRINFO, BUSY
cleared, DONE = 0. -/
def State.raise (s : State) (f : Failure) : State :=
  { s with
    latch := none
    status := { s.status with done := false, error := some f.code }
    errinfo := { blk := f.blk, pos := f.pos } }

/-- Clearing ERR, the way back from an error (60_exceptions R286): ERRCODE is cleared with it and ERRINFO keeps
its value. -/
def State.clearError (s : State) : State := { s with status := { s.status with error := none } }

/-- The failure a word that is no command ends in (60_exceptions R281). -/
def decodeFailure : DecodeError → Failure
  | .illegalOp => { code := .illegalOp, blk := 0, pos := 0 }
  | .rsvdField => { code := .rsvdField, blk := 0, pos := 0 }
  | .badBlk blk => { code := .badBlk, blk := blk, pos := 0 }

/-- BAD_MODE (60_exceptions R281). -/
def modeFailure : Failure := { code := .badMode, blk := 0, pos := 0 }

/-! ### The checks of 60_exceptions R283, in order -/

/-- Check 3, BLK in the legal set (log entry 12). -/
def State.checkBlk (s : State) (legal : BitVec 5 → Bool) (blk : BitVec 5) (body : State → State) : State :=
  if legal blk then body s else s.raise (decodeFailure (.badBlk blk))

/-- `GATE_OPEN` (44_orchestration R250): a signed comparison with RDDIV_TRIVIAL. -/
def State.gateOpen (s : State) : Bool :=
  s.ctrl.optEn && decide (s.params.rddivTrivial.toInt < s.rddiv.toInt)

/-- Check 4: with G = 1 a closed gate completes the command. -/
def State.checkGate (s : State) (g : Bool) (body : State → State) : State :=
  if g && !s.gateOpen then s.complete else body s

/-- Check 5, the frame-boundary guard (44_orchestration R255, R256): a failed guard completes the command. -/
def State.checkGuard (s : State) (body : State → State) : State :=
  if s.mbcfg.aboveValid && s.mbcfg.leftValid then body s else s.complete

/-- Check 6, MODE ≠ 3. -/
def State.checkMode (s : State) (body : State → State) : State :=
  if s.mbcfg.mode = 3 then s.raise modeFailure else body s

/-- The level check of `CHECK_BLOCK` at scan position `i` (43_trellis R219). -/
def State.badLevelAt (s : State) (b i : Nat) : Bool :=
  let x := s.levelScan b i
  decide (x ≠ 0) && (decide (x < -2048) || decide (2047 < x))

/-- The scan positions an optimization of a block with initial EOB `e` visits, from `e − 1` down to the first
included position (43_trellis R213, R219); none if `e ≤ i0`. -/
def sweepPositions (t : BitVec 2) (e : Nat) : List Nat :=
  (List.range' (firstPos t) (e - firstPos t)).reverse

/-- `CHECK_BLOCK(b, t)` (43_trellis R219): the first failure, if any. -/
def State.checkBlock (s : State) (b : Nat) (t : BitVec 2) : Option Failure :=
  let e := (s.eobAt b).toNat
  if 16 < e then some { code := .badEob, blk := BitVec.ofNat 5 b, pos := 0 }
  else
    match (sweepPositions t e).find? (s.badLevelAt b) with
    | some i => some { code := .badLevel, blk := BitVec.ofNat 5 b, pos := BitVec.ofNat 5 i }
    | none => none

/-- `CHECK_BLOCK` of every block of a list, in list order: the first failure (44_orchestration R251). -/
def State.firstFailure (s : State) : List (Nat × BitVec 2) → Option Failure
  | [] => none
  | bt :: rest =>
    match s.checkBlock bt.1 bt.2 with
    | some f => some f
    | none => s.firstFailure rest

/-- Check 7, every block of the list before any write (44_orchestration R251). -/
def State.checkBlocks (s : State) (list : List (Nat × BitVec 2)) (body : State → State) : State :=
  match s.firstFailure list with
  | some f => s.raise f
  | none => body s

/-! ### Arithmetic and stores -/

/-- STATUS.WRAP set to the flag a computation ended with (60_exceptions R290). -/
def State.withWrap (s : State) (w : Bool) : State := { s with status := { s.status with wrap := w } }

/-- Runs a computation from the current STATUS.WRAP: its value, and the flag afterwards. -/
def State.calc {α : Type} (s : State) (m : Arith α) : α × Bool := m.run s.status.wrap

/-! ### Entropy context -/

/-- `SNAP` (44_orchestration R253): canonical to working. -/
def State.snap (s : State) : State := { s with wctxAbove := s.ctxAbove, wctxLeft := s.ctxLeft }

/-- `COMMIT` (44_orchestration R253): working to canonical. -/
def State.commit (s : State) : State := { s with ctxAbove := s.wctxAbove, ctxLeft := s.wctxLeft }

/-- The context write-back of block `b` (43_trellis R217): `WA[A(b)] <- f; WL[L(b)] <- f`. -/
def State.writeContext (s : State) (b : Nat) (f : Bool) : State :=
  { s with
    wctxAbove := setFlag s.wctxAbove (aboveIndex b) f
    wctxLeft := setFlag s.wctxLeft (leftIndex b) f }

/-! ### Interrupt and resets -/

/-- The interrupt output (60_exceptions R292). -/
def State.irq (s : State) : Bool := s.ctrl.irqEn && (s.status.done || s.status.error.isSome)

/-- STATUS.BUSY (10_state R35; log entry 9). -/
def State.busy (s : State) : Bool := s.latch.isSome

/-- Hardware reset (70_reset R320, R322): registers at their reset values, the latched command abandoned, every
array element unspecified again. The host and the parameters are outside the engine (log entry 13). -/
def State.hardReset (s : State) : State :=
  { State.powerOn s.params (s.epoch + 1) with host := s.host, reply := s.reply, fresh := s.fresh }

/-- Soft reset (70_reset R321): every register at its reset value, the arrays unchanged. -/
def State.softReset (s : State) : State :=
  { s with
    ctrl := .atReset, status := .atReset, latch := none, mbcfg := .atReset, rdmult := 0, rddiv := 0
    prm := prmAtReset, ctxAbove := 0, ctxLeft := 0, wctxAbove := 0, wctxLeft := 0
    errinfo := { blk := 0, pos := 0 } }

end Sys2Proof.Machine
end

