-- ==== Sys2Proof/Machine/Dequant.lean ====
section
/-! DEFINITION. The dequantizer datapath (42_quant_dequant). -/

namespace Sys2Proof.Machine

/-- `DQ(x, s)` (42_quant_dequant R183). -/
def dqProduct (x step : Int) : Arith Int := trunc16 (x * step)

/-- What DQ_B stores for scan position `i` of block `b` (42_quant_dequant R185). -/
def State.dequantized (s : State) (b : Nat) (t : BitVec 2) (i : Nat) : Arith (Nat × Int) := do
  let v ← dqProduct (s.levelScan b i) (s.deqAt t i)
  pure (b * 16 + zz i, v)

/-- The body of DQ_B (42_quant_dequant R185). -/
def State.dequantBlock (s : State) (b : Nat) (t : BitVec 2) : State :=
  let r := s.calc (collect (s.dequantized b t) (List.range 16))
  { s.withWrap r.2 with dqcoeff := s.dqcoeff.putAll r.1 }

/-- DQ_B (42_quant_dequant R185). -/
def execDqB (blk : BitVec 5) (pt : BitVec 2) (s : State) : Host.Outcome State Fault Refusal :=
  .next (s.checkBlk blkOfSlot blk fun s => (s.dequantBlock blk.toNat pt).complete)

end Sys2Proof.Machine
end

