-- ==== Sys2Proof/Machine/Trellis.lean ====
section
/-! DEFINITION. The trellis rate-distortion optimizer (43_trellis). The node array `N` and the masks `M` live only
inside one optimization (10_state R48). The nodes form one chain from the head to the sentinel (43_trellis R213),
so the array is held as that chain, head first, each stage with its position and the two decision bits `M[k][pos]`
(log entry 14). -/

namespace Sys2Proof.Machine

/-- A node `N[p][k]` (43_trellis R206), but for `next`, which is the position of the stage after it in the chain. -/
structure Node where
  rate : Int
  err : Int
  tok : Token
  qc : Int
  deriving DecidableEq, Repr

/-- The two nodes at position `pos`, and bit `pos` of the decision masks `M[0]` and `M[1]`. -/
structure Stage where
  pos : Nat
  n0 : Node
  n1 : Node
  pick0 : Bool
  pick1 : Bool
  deriving DecidableEq, Repr

/-- The chain: the head (at `nx`) and the stages above it, the sentinel last. -/
structure Trellis where
  head : Stage
  rest : List Stage
  deriving DecidableEq, Repr

/-- The sentinel's node (43_trellis R206). -/
def sentinelNode : Node := { rate := 0, err := 0, tok := .eob, qc := 0 }

/-- The chain at the start: the sentinel at position `e` (43_trellis R206). -/
def trellisStart (e : Nat) : Trellis :=
  { head := { pos := e, n0 := sentinelNode, n1 := sentinelNode, pick0 := false, pick1 := false }, rest := [] }

/-- What one optimization reads besides the block's levels and coefficients: the plane type, the effective
multiplier `rdm` and the divisor `rdd` (43_trellis R207). -/
structure RdParams where
  t : BitVec 2
  rdm : Int
  rdd : Int
  deriving DecidableEq, Repr

/-- The effective RD multiplier (43_trellis R207). -/
def State.effectiveRdm (s : State) (t : BitVec 2) : Arith Int := do
  let rdm ← wrap32 (s.rdmult.toInt * (s.prm[t.toNat]).toInt)
  if s.mbcfg.intra then
    let r9 ← wrap32 (rdm * 9)
    pure (asr r9 4)
  else pure rdm

/-- `RDCOST(r, e)` (43_trellis R208). -/
def rdCost (p : RdParams) (r e : Int) : Arith Int := do
  let rr ← wrap32 (r * p.rdm)
  let rounded ← wrap32 (128 + rr)
  let ee ← wrap32 (p.rdd * e)
  wrap32 (asr rounded 8 + ee)

/-- `RDTRUNC(r)` (43_trellis R208). -/
def rdTrunc (p : RdParams) (r : Int) : Arith Int := do
  let rr ← wrap32 (r * p.rdm)
  let rounded ← wrap32 (128 + rr)
  pure (rounded % 256)

/-- `PICK(r0, e0, r1, e1)`: true if successor state 1 wins (43_trellis R208). -/
def pick (p : RdParams) (r0 e0 r1 e1 : Int) : Arith Bool := do
  let k0 ← rdCost p r0 e0
  let k1 ← rdCost p r1 e1
  if k0 = k1 then
    let m0 ← rdTrunc p r0
    let m1 ← rdTrunc p r1
    pure (decide (m1 < m0))
  else pure (decide (k1 < k0))

/-- `SC(i)`: the level may be rounded toward zero (43_trellis R210). -/
def roundable (x c step : Int) : Bool :=
  decide ((x.natAbs : Int) * step > c.natAbs) && decide ((x.natAbs : Int) * step < c.natAbs + step)

/-- The level one step closer to zero (43_trellis R211). -/
def towardZero (x : Int) : Int := if x < 0 then x + 1 else x - 1

/-- The successor rate with the successor's token cost, in band `BAND[i+1]` and the class of this node's token
(43_trellis R209, R211): nothing is added at the sentinel position 16. -/
def State.succRate (s : State) (p : RdParams) (i nx : Nat) (own : Token) (succ : Node) : Arith Int :=
  if nx < 16 then wrap32 (succ.rate + s.tcAt p.t (band (i + 1)) (pclass own) succ.tok) else pure succ.rate

/-- The successor rate of a state-1 node: an EOB token of its own adds no cost (43_trellis R211). -/
def State.succRate1 (s : State) (p : RdParams) (i nx : Nat) (own : Token) (succ : Node) : Arith Int :=
  if own = .eob then pure succ.rate else s.succRate p i nx own succ

/-- Node (i, 0), the level kept, and its decision bit (43_trellis R209). -/
def State.keepNode (s : State) (p : RdParams) (b i : Nat) (h : Stage) : Arith (Node × Bool) := do
  let x := s.levelScan b i
  let tA := tokenOf x
  let r0 ← s.succRate p i h.pos tA h.n0
  let r1 ← s.succRate p i h.pos tA h.n1
  let k ← pick p r0 h.n0.err r1 h.n1.err
  let dx := s.dqScan b i - s.coefScan b i
  let d2 ← wrap32 (dx * dx)
  let rate ← wrap32 (s.vcAt x + (if k then r1 else r0))
  let err ← wrap32 (d2 + (if k then h.n1.err else h.n0.err))
  pure ({ rate := rate, err := err, tok := tA, qc := x }, k)

/-- The token of a state-1 node whose successor node is `succ` (43_trellis R211). -/
def roundedToken (x1 : Int) (succ : Node) : Token :=
  if x1 = 0 then (if succ.tok = .eob then .eob else .zero) else tokenOf x1

/-- The squared error of the state-1 candidate (43_trellis R211): from the stored D(i) minus one step with the
level's sign when it is rounded, and rule R209's value otherwise. -/
def roundedError (sc : Bool) (x dx step : Int) : Arith Int :=
  if sc then
    let dx1 := dx - (if x < 0 then -step else step)
    wrap32 (dx1 * dx1)
  else wrap32 (dx * dx)

/-- Node (i, 1), the level rounded toward zero when eligible, and its decision bit (43_trellis R211). -/
def State.roundNode (s : State) (p : RdParams) (b i : Nat) (h : Stage) : Arith (Node × Bool) := do
  let x := s.levelScan b i
  let step := s.deqAt p.t i
  let sc := roundable x (s.coefScan b i) step
  let x1 := if sc then towardZero x else x
  let u0 := roundedToken x1 h.n0
  let u1 := roundedToken x1 h.n1
  let r0 ← s.succRate1 p i h.pos u0 h.n0
  let r1 ← s.succRate1 p i h.pos u1 h.n1
  let k ← pick p r0 h.n0.err r1 h.n1.err
  let bb := if x1 = 0 then 0 else s.vcAt x1
  let d2 ← roundedError sc x (s.dqScan b i - s.coefScan b i) step
  let rate ← wrap32 (bb + (if k then r1 else r0))
  let err ← wrap32 (d2 + (if k then h.n1.err else h.n0.err))
  pure ({ rate := rate, err := err, tok := if k then u1 else u0, qc := x1 }, k)

/-- One state of a zero position (43_trellis R212). -/
def State.zeroNode (s : State) (p : RdParams) (i : Nat) (n : Node) : Arith Node :=
  if n.tok = .eob then pure n
  else do
    let rate ← wrap32 (n.rate + s.tcAt p.t (band (i + 1)) 0 n.tok)
    pure { n with rate := rate, tok := .zero }

/-- One position of the sweep (43_trellis R213). -/
def State.visit (s : State) (p : RdParams) (b i : Nat) (tr : Trellis) : Arith Trellis :=
  if s.levelScan b i = 0 then do
    let n0 ← s.zeroNode p i tr.head.n0
    let n1 ← s.zeroNode p i tr.head.n1
    pure { tr with head := { tr.head with n0 := n0, n1 := n1 } }
  else do
    let keep ← s.keepNode p b i tr.head
    let round ← s.roundNode p b i tr.head
    pure
      { head := { pos := i, n0 := keep.1, n1 := round.1, pick0 := keep.2, pick1 := round.2 }
        rest := tr.head :: tr.rest }

/-- The sweep over a list of positions, in order (43_trellis R213). -/
def State.sweep (s : State) (p : RdParams) (b : Nat) : List Nat → Trellis → Arith Trellis
  | [], tr => pure tr
  | i :: is, tr => do
    let tr' ← s.visit p b i tr
    s.sweep p b is tr'

/-- The context index of the head comparison: `WA[A(b)] + WL[L(b)]` (43_trellis R214). -/
def State.headContext (s : State) (b : Nat) : Nat :=
  (s.wctxAbove.getLsbD (aboveIndex b)).toNat + (s.wctxLeft.getLsbD (leftIndex b)).toNat

/-- The head comparison: the state the winning path starts in (43_trellis R214). -/
def State.headPick (s : State) (p : RdParams) (b e : Nat) (h : Stage) : Arith Bool := do
  let bd := band (min e (firstPos p.t))
  let c := s.headContext b
  let r0 ← wrap32 (h.n0.rate + s.tcAt p.t bd c h.n0.tok)
  let r1 ← wrap32 (h.n1.rate + s.tcAt p.t bd c h.n1.tok)
  pick p r0 h.n0.err r1 h.n1.err

/-- The winning path: position and level of every stage below `e`, from the head up (43_trellis R215). -/
def replayPath (e : Nat) (k : Bool) : List Stage → List (Nat × Int)
  | [] => []
  | st :: rest =>
    if st.pos < e then
      (st.pos, if k then st.n1.qc else st.n0.qc) :: replayPath e (if k then st.pick1 else st.pick0) rest
    else []

/-- `F + 1` of the replay, with `F` started at `i0 − 1` (43_trellis R215). -/
def replayEob (i0 : Nat) (path : List (Nat × Int)) : Nat :=
  path.foldl (fun f jx => if jx.2 = 0 then f else jx.1 + 1) i0

/-- Rules R206, R207, R213 and R214 of 43_trellis: the winning path of block `b` with plane type `t`. -/
def State.winningPath (s : State) (b : Nat) (t : BitVec 2) : Arith (List (Nat × Int)) := do
  let e := (s.eobAt b).toNat
  let rdm ← s.effectiveRdm t
  let p : RdParams := { t := t, rdm := rdm, rdd := s.rddiv.toInt }
  let tr ← s.sweep p b (sweepPositions t e) (trellisStart e)
  let k ← s.headPick p b e tr.head
  pure (replayPath e k (tr.head :: tr.rest))

/-- What the replay stores into DQCOEFF for one path element (43_trellis R215, 42_quant_dequant R183). -/
def State.replayDq (s : State) (b : Nat) (t : BitVec 2) (jx : Nat × Int) : Arith (Nat × Int) := do
  let v ← dqProduct jx.2 (s.deqAt t jx.1)
  pure (b * 16 + zz jx.1, v)

/-- The winning path and the DQCOEFF writes of its replay. -/
def State.replay (s : State) (b : Nat) (t : BitVec 2) : Arith (List (Nat × Int) × List (Nat × Int)) := do
  let path ← s.winningPath b t
  let dqs ← collect (s.replayDq b t) path
  pure (path, dqs)

/-- R216 applies and EOB_CLAMP = 0: nothing is replayed and `EOB[b]` is not written (43_trellis R216). -/
def keepsEob (clamp : Bool) (t : BitVec 2) (e : Nat) : Bool := decide (e < firstPos t) && !clamp

/-- The final EOB of an optimization that replays `path` from initial EOB `e` (43_trellis R215, R216). -/
def finalEob (clamp : Bool) (t : BitVec 2) (e : Nat) (path : List (Nat × Int)) : Nat :=
  if keepsEob clamp t e then e else replayEob (firstPos t) path

/-- `OPTIMIZE(b, t)` (43_trellis R206, R207, R213..R217). When E < i0 no position is visited, so the path is empty
and the replay writes no level and no dequantized value (R216). -/
def State.optimize (s : State) (b : Nat) (t : BitVec 2) : State :=
  let e := (s.eobAt b).toNat
  let r := s.calc (s.replay b t)
  let f := finalEob s.ctrl.eobClamp t e r.1.1
  let s1 : State :=
    { s.withWrap r.2 with
      qcoeff := s.qcoeff.putAll (r.1.1.map fun jx => (b * 16 + zz jx.1, jx.2))
      dqcoeff := s.dqcoeff.putAll r.1.2
      eob := if keepsEob s.ctrl.eobClamp t e then s.eob else s.eob.put b (BitVec.ofNat 8 f) }
  s1.writeContext b (decide (f ≠ firstPos t))

/-- OPT_B (43_trellis R218). -/
def execOptB (blk : BitVec 5) (pt : BitVec 2) (g : Bool) (s : State) : Host.Outcome State Fault Refusal :=
  .next (s.checkBlk blkOfSlot blk fun s =>
    s.checkGate g fun s =>
      s.checkBlocks [(blk.toNat, pt)] fun s => (s.optimize blk.toNat pt).complete)

end Sys2Proof.Machine
end

