-- ==== Sys2Proof/Machine/Orchestrate.lean ====
section
/-! DEFINITION. Macroblock passes, context commands and NOP (44_orchestration). -/

namespace Sys2Proof.Machine

/-- `YT` (44_orchestration R252). -/
def State.lumaType (s : State) : BitVec 2 := if s.hasY2 then 0 else 3

/-- The 16 luma blocks, the 8 chroma blocks, and block 24 when the second-order transform is active
(44_orchestration R252). -/
def State.lumaBlocks (s : State) : List (Nat × BitVec 2) := (List.range 16).map fun b => (b, s.lumaType)
def chromaBlocks : List (Nat × BitVec 2) := (List.range' 16 8).map fun b => (b, 2#2)
def State.secondOrderBlock (s : State) : List (Nat × BitVec 2) := if s.hasY2 then [(24, 1#2)] else []

/-- `LIST_Y`, `LIST_UV`, `LIST_MB` (44_orchestration R252). -/
def State.listY (s : State) : List (Nat × BitVec 2) := s.lumaBlocks ++ s.secondOrderBlock
def listUv : List (Nat × BitVec 2) := chromaBlocks
def State.listMb (s : State) : List (Nat × BitVec 2) := s.lumaBlocks ++ listUv ++ s.secondOrderBlock

/-- `OPTIMIZE(b, t)` for every block of a list, in list order. -/
def State.optimizeAll (s : State) (list : List (Nat × BitVec 2)) : State :=
  list.foldl (fun s bt => s.optimize bt.1 bt.2) s

/-- COMMIT if CTRL.CTX_COMMIT = 1 (44_orchestration R253). -/
def State.commitIfSet (s : State) : State := if s.ctrl.ctxCommit then s.commit else s

/-- SNAP, the blocks of a list, COMMIT if set: the work of a pass whose checks have passed (44_orchestration R253). -/
def State.pass (s : State) (list : List (Nat × BitVec 2)) : State :=
  (s.snap.optimizeAll list).commitIfSet

/-- OPT_MB (44_orchestration R254). -/
def execOptMb (g : Bool) (s : State) : Host.Outcome State Fault Refusal :=
  .next (s.checkGate g fun s => s.checkMode fun s =>
    s.checkBlocks s.listMb fun s => (s.pass s.listMb).complete)

/-- OPT_MBY (44_orchestration R255). -/
def execOptMby (g : Bool) (s : State) : Host.Outcome State Fault Refusal :=
  .next (s.checkGate g fun s => s.checkGuard fun s => s.checkMode fun s =>
    s.checkBlocks s.listY fun s => (s.pass s.listY).complete)

/-- OPT_MBUV (44_orchestration R256). -/
def execOptMbuv (g : Bool) (s : State) : Host.Outcome State Fault Refusal :=
  .next (s.checkGate g fun s => s.checkGuard fun s =>
    s.checkBlocks listUv fun s => (s.pass listUv).complete)

/-- CTX_SNAP (44_orchestration R257). -/
def execCtxSnap (s : State) : Host.Outcome State Fault Refusal := .next s.snap.complete

/-- CTX_COMMIT (44_orchestration R258). -/
def execCtxCommit (s : State) : Host.Outcome State Fault Refusal := .next s.commit.complete

/-- NOP (44_orchestration R259). -/
def execNop (s : State) : Host.Outcome State Fault Refusal := .next s.complete

end Sys2Proof.Machine
end

