-- ==== Sys2Proof/Machine/Residual.lean ====
section
/-! DEFINITION. Residual generator commands (40_residual). -/

namespace Sys2Proof.Machine

/-- The value `RES(j)` stores (40_residual R131). -/
def State.residual (s : State) (j : Nat) : Arith (Nat × Int) := do
  let v ← trunc16 (((s.srcAt j).toNat : Int) - ((s.predAt j).toNat : Int))
  pure (j, v)

/-- `RES(j)` for every index of a list, in order (40_residual R131). -/
def State.residuals (s : State) (js : List Nat) : State :=
  let r := s.calc (collect s.residual js)
  { s.withWrap r.2 with diff := s.diff.putAll r.1 }

/-- SUB_B (40_residual R132). -/
def execSubB (blk : BitVec 5) (s : State) : Host.Outcome State Fault Refusal :=
  .next (s.checkBlk blkOfPlane blk fun s => (s.residuals (blockIndices blk.toNat)).complete)

/-- SUB_MBY (40_residual R133). -/
def execSubMby (s : State) : Host.Outcome State Fault Refusal :=
  .next (s.residuals (List.range 256)).complete

/-- SUB_MBUV (40_residual R134). -/
def execSubMbuv (s : State) : Host.Outcome State Fault Refusal :=
  .next (s.residuals (List.range' 256 128)).complete

/-- SUB_MB (40_residual R135). -/
def execSubMb (s : State) : Host.Outcome State Fault Refusal :=
  .next (s.residuals (List.range 384)).complete

end Sys2Proof.Machine
end

