-- ==== Sys2Proof/Machine/Transform.lean ====
section
/-! DEFINITION. Forward transform commands (41_transform). -/

namespace Sys2Proof.Machine

/-- Four values: a row or a column of a 4×4 block. -/
structure Quad where
  x0 : Int
  x1 : Int
  x2 : Int
  x3 : Int
  deriving DecidableEq, Repr

/-- A 4×4 block, row by row. -/
structure Block where
  r0 : Quad
  r1 : Quad
  r2 : Quad
  r3 : Quad
  deriving DecidableEq, Repr

/-- Rows and columns exchanged. -/
def Block.transpose (m : Block) : Block :=
  { r0 := ⟨m.r0.x0, m.r1.x0, m.r2.x0, m.r3.x0⟩
    r1 := ⟨m.r0.x1, m.r1.x1, m.r2.x1, m.r3.x1⟩
    r2 := ⟨m.r0.x2, m.r1.x2, m.r2.x2, m.r3.x2⟩
    r3 := ⟨m.r0.x3, m.r1.x3, m.r2.x3, m.r3.x3⟩ }

/-- The 16 values in raster order. -/
def Block.toList (m : Block) : List Int :=
  [m.r0.x0, m.r0.x1, m.r0.x2, m.r0.x3, m.r1.x0, m.r1.x1, m.r1.x2, m.r1.x3,
   m.r2.x0, m.r2.x1, m.r2.x2, m.r2.x3, m.r3.x0, m.r3.x1, m.r3.x2, m.r3.x3]

/-- The block whose element (r, c) is `f r c`. -/
def Block.ofFn (f : Nat → Nat → Int) : Block :=
  { r0 := ⟨f 0 0, f 0 1, f 0 2, f 0 3⟩
    r1 := ⟨f 1 0, f 1 1, f 1 2, f 1 3⟩
    r2 := ⟨f 2 0, f 2 1, f 2 2, f 2 3⟩
    r3 := ⟨f 3 0, f 3 1, f 3 2, f 3 3⟩ }

/-- A pass over the four rows. -/
def Block.rowPass (f : Quad → Arith Quad) (m : Block) : Arith Block := do
  let r0 ← f m.r0
  let r1 ← f m.r1
  let r2 ← f m.r2
  let r3 ← f m.r3
  pure { r0 := r0, r1 := r1, r2 := r2, r3 := r3 }

/-- A pass over the four columns. -/
def Block.columnPass (f : Quad → Arith Quad) (m : Block) : Arith Block := do
  let t ← m.transpose.rowPass f
  pure t.transpose

/-! ### The forward transform -/

/-- One row of 41_transform R151. -/
def fdctRow (q : Quad) : Arith Quad := do
  let a1 ← mul32 (← add32 q.x0 q.x3) 8
  let b1 ← mul32 (← add32 q.x1 q.x2) 8
  let c1 ← mul32 (← sub32 q.x1 q.x2) 8
  let d1 ← mul32 (← sub32 q.x0 q.x3) 8
  let t0 ← trunc16 (← add32 a1 b1)
  let t2 ← trunc16 (← sub32 a1 b1)
  let t1 ← trunc16 (asr (← add32 (← add32 (← mul32 c1 2217) (← mul32 d1 5352)) 14500) 12)
  let t3 ← trunc16 (asr (← add32 (← sub32 (← mul32 d1 2217) (← mul32 c1 5352)) 7500) 12)
  pure ⟨t0, t1, t2, t3⟩

/-- One column of 41_transform R152: `(T[c], T[4+c], T[8+c], T[12+c])` to `(out[c], out[4+c], out[8+c], out[12+c])`. -/
def fdctColumn (q : Quad) : Arith Quad := do
  let a1 ← add32 q.x0 q.x3
  let b1 ← add32 q.x1 q.x2
  let c1 ← sub32 q.x1 q.x2
  let d1 ← sub32 q.x0 q.x3
  let o0 ← trunc16 (asr (← add32 (← add32 a1 b1) 7) 4)
  let o2 ← trunc16 (asr (← add32 (← sub32 a1 b1) 7) 4)
  let o1 ← trunc16 (← add32
    (asr (← add32 (← add32 (← mul32 c1 2217) (← mul32 d1 5352)) 12000) 16) (ind (decide (d1 ≠ 0))))
  let o3 ← trunc16 (asr (← add32 (← sub32 (← mul32 d1 2217) (← mul32 c1 5352)) 51000) 16)
  pure ⟨o0, o1, o2, o3⟩

/-- `FDCT(in)` (41_transform R151, R152). -/
def fdct (m : Block) : Arith Block := do
  let t ← m.rowPass fdctRow
  t.columnPass fdctColumn

/-! ### The second-order transform -/

/-- One row of 41_transform R155. -/
def whtRow (q : Quad) : Arith Quad := do
  let a1 ← mul32 (← add32 q.x0 q.x2) 4
  let d1 ← mul32 (← add32 q.x1 q.x3) 4
  let c1 ← mul32 (← sub32 q.x1 q.x3) 4
  let b1 ← mul32 (← sub32 q.x0 q.x2) 4
  let t0 ← trunc16 (← add32 (← add32 a1 d1) (ind (decide (a1 ≠ 0))))
  let t1 ← trunc16 (← add32 b1 c1)
  let t2 ← trunc16 (← sub32 b1 c1)
  let t3 ← trunc16 (← sub32 a1 d1)
  pure ⟨t0, t1, t2, t3⟩

/-- `x := x + [x < 0]`, then `trunc16(asr(x + 3, 3))` (41_transform R156). -/
def whtRound (x : Int) : Arith Int := do
  let y ← add32 x (ind (decide (x < 0)))
  let z ← add32 y 3
  trunc16 (asr z 3)

/-- One column of 41_transform R156. -/
def whtColumn (q : Quad) : Arith Quad := do
  let a1 ← add32 q.x0 q.x2
  let d1 ← add32 q.x1 q.x3
  let c1 ← sub32 q.x1 q.x3
  let b1 ← sub32 q.x0 q.x2
  let a2 ← add32 a1 d1
  let b2 ← add32 b1 c1
  let c2 ← sub32 b1 c1
  let d2 ← sub32 a1 d1
  let o0 ← whtRound a2
  let o1 ← whtRound b2
  let o2 ← whtRound c2
  let o3 ← whtRound d2
  pure ⟨o0, o1, o2, o3⟩

/-- `WHT(in)` (41_transform R155, R156). -/
def wht (m : Block) : Arith Block := do
  let t ← m.rowPass whtRow
  t.columnPass whtColumn

/-! ### Command bodies -/

/-- The residuals of block `b` (41_transform R153). -/
def State.residualBlock (s : State) (b : Nat) : Block :=
  Block.ofFn fun r c => (s.diffAt (blockIndex b r c)).toInt

/-- `COEFF[b*16 + k] <- out[k]`, with STATUS.WRAP. -/
def State.storeCoeff (s : State) (b : Nat) (out : Block × Bool) : State :=
  { s.withWrap out.2 with
    coeff := s.coeff.putAll ((List.range 16).zipWith (fun k v => (b * 16 + k, v)) out.1.toList) }

/-- The body of FDCT4X4 (41_transform R153). -/
def State.fdctBlock (s : State) (b : Nat) : State := s.storeCoeff b (s.calc (fdct (s.residualBlock b)))

/-- The body of FDCT8X4 (41_transform R154). -/
def State.fdctPair (s : State) (b : Nat) : State := (s.fdctBlock b).fdctBlock (b + 1)

/-- The FDCT8X4 bodies of a list of blocks, in order. -/
def State.fdctPairs (s : State) (bs : List Nat) : State := bs.foldl State.fdctPair s

/-- What BUILD_DC stores: the DC of luma block `i` at DIFF[384 + i] (41_transform R157). -/
def State.lumaDcs (s : State) : List (Nat × Int) :=
  (List.range 16).map fun i => (384 + i, (s.coeffAt (i * 16)).toInt)

/-- The body of BUILD_DC (41_transform R157). -/
def State.buildDc (s : State) : State := { s with diff := s.diff.putAll s.lumaDcs }

/-- The body of WALSH4X4 (41_transform R158). -/
def State.walsh (s : State) : State := s.storeCoeff 24 (s.calc (wht (s.residualBlock 24)))

/-- The blocks of the luma pairs and of the chroma pairs (41_transform R159, R160). -/
def lumaPairs : List Nat := [0, 2, 4, 6, 8, 10, 12, 14]
def chromaPairs : List Nat := [16, 18, 20, 22]

/-! ### Commands -/

/-- FDCT4X4 (41_transform R153). -/
def execFdct4x4 (blk : BitVec 5) (s : State) : Host.Outcome State Fault Refusal :=
  .next (s.checkBlk blkOfPlane blk fun s => (s.fdctBlock blk.toNat).complete)

/-- FDCT8X4 (41_transform R154). -/
def execFdct8x4 (blk : BitVec 5) (s : State) : Host.Outcome State Fault Refusal :=
  .next (s.checkBlk blkOfPair blk fun s => (s.fdctPair blk.toNat).complete)

/-- BUILD_DC (41_transform R157). -/
def execBuildDc (s : State) : Host.Outcome State Fault Refusal := .next s.buildDc.complete

/-- WALSH4X4 (41_transform R158). -/
def execWalsh4x4 (s : State) : Host.Outcome State Fault Refusal := .next s.walsh.complete

/-- XFORM_MBY (41_transform R159). -/
def execXformMby (s : State) : Host.Outcome State Fault Refusal :=
  .next (s.checkMode fun s =>
    let s1 := s.fdctPairs lumaPairs
    (if s.hasY2 then s1.buildDc.walsh else s1).complete)

/-- XFORM_MBUV (41_transform R160). -/
def execXformMbuv (s : State) : Host.Outcome State Fault Refusal :=
  .next (s.fdctPairs chromaPairs).complete

/-- XFORM_MB (41_transform R161). -/
def execXformMb (s : State) : Host.Outcome State Fault Refusal :=
  .next (s.checkMode fun s =>
    let s1 := s.fdctPairs lumaPairs
    let s2 := if s.hasY2 then s1.buildDc else s1
    let s3 := s2.fdctPairs chromaPairs
    (if s.hasY2 then s3.walsh else s3).complete)

end Sys2Proof.Machine
end

