-- ==== Sys2Proof/Machine/Dispatch.lean ====
section
/-! DEFINITION. One arm per command: a direct call of its meaning. -/

namespace Sys2Proof.Machine

def exec (i : Instr) (s : State) : Host.Outcome State Fault Refusal :=
  match i with
  | .nop => Sys2Proof.Machine.execNop s
  | .subB blk => Sys2Proof.Machine.execSubB blk s
  | .subMby => Sys2Proof.Machine.execSubMby s
  | .subMbuv => Sys2Proof.Machine.execSubMbuv s
  | .subMb => Sys2Proof.Machine.execSubMb s
  | .fdct4x4 blk => Sys2Proof.Machine.execFdct4x4 blk s
  | .fdct8x4 blk => Sys2Proof.Machine.execFdct8x4 blk s
  | .buildDc => Sys2Proof.Machine.execBuildDc s
  | .walsh4x4 => Sys2Proof.Machine.execWalsh4x4 s
  | .xformMby => Sys2Proof.Machine.execXformMby s
  | .xformMbuv => Sys2Proof.Machine.execXformMbuv s
  | .xformMb => Sys2Proof.Machine.execXformMb s
  | .dqB blk pt => Sys2Proof.Machine.execDqB blk pt s
  | .optB blk pt g => Sys2Proof.Machine.execOptB blk pt g s
  | .optMb g => Sys2Proof.Machine.execOptMb g s
  | .optMby g => Sys2Proof.Machine.execOptMby g s
  | .optMbuv g => Sys2Proof.Machine.execOptMbuv g s
  | .ctxSnap => Sys2Proof.Machine.execCtxSnap s
  | .ctxCommit => Sys2Proof.Machine.execCtxCommit s

end Sys2Proof.Machine
end

