-- ==== Sys2Proof/Machine/Window.lean ====
section
/-! DEFINITION. The 64 KiB window (20_memory): the address map, the words of the registers (10_state R33..R44), and
host reads and writes with their side effects. -/

namespace Sys2Proof.Machine

/-- The registers (10_state R33..R43). -/
inductive Reg where
  | id
  | ctrl
  | status
  | cmd
  | mbcfg
  | rdmult
  | rddiv
  | version
  | prm (t : Fin 4)
  | ctxAbove
  | ctxLeft
  | wctxAbove
  | wctxLeft
  | errinfo
  deriving DecidableEq, Repr

/-- What stands at an aligned window offset (20_memory R70), an element with its index. -/
inductive Loc where
  | reg (r : Reg)
  | src (j : Nat)
  | pred (j : Nat)
  | diff (j : Nat)
  | coeff (j : Nat)
  | qcoeff (j : Nat)
  | dqcoeff (j : Nat)
  | eob (b : Nat)
  | deq (j : Nat)
  | tc (j : Nat)
  | vc (j : Nat)
  | reserved
  deriving DecidableEq, Repr

/-- The registers by word index `off / 4`, from offset 0x000 (10_state R33..R43). -/
def regOfIndex : Nat → Loc
  | 0 => .reg .id
  | 1 => .reg .ctrl
  | 2 => .reg .status
  | 3 => .reg .cmd
  | 4 => .reg .mbcfg
  | 5 => .reg .rdmult
  | 6 => .reg .rddiv
  | 7 => .reg .version
  | 8 => .reg (.prm 0)
  | 9 => .reg (.prm 1)
  | 10 => .reg (.prm 2)
  | 11 => .reg (.prm 3)
  | 12 => .reg .ctxAbove
  | 13 => .reg .ctxLeft
  | 14 => .reg .wctxAbove
  | 15 => .reg .wctxLeft
  | 16 => .reg .errinfo
  | _ => .reserved

/-- The map of the window (20_memory R70). -/
def locate (off : Nat) : Loc :=
  if off < 0x0400 then regOfIndex (off / 4)
  else if off < 0x0A00 then .src ((off - 0x0400) / 4)
  else if off < 0x1000 then .pred ((off - 0x0A00) / 4)
  else if off < 0x1640 then .diff ((off - 0x1000) / 4)
  else if off < 0x2000 then .reserved
  else if off < 0x2640 then .coeff ((off - 0x2000) / 4)
  else if off < 0x3000 then .reserved
  else if off < 0x3640 then .qcoeff ((off - 0x3000) / 4)
  else if off < 0x4000 then .reserved
  else if off < 0x4640 then .dqcoeff ((off - 0x4000) / 4)
  else if off < 0x4800 then .reserved
  else if off < 0x4864 then .eob ((off - 0x4800) / 4)
  else if off < 0x4900 then .reserved
  else if off < 0x4A00 then .deq ((off - 0x4900) / 4)
  else if off < 0x5000 then .reserved
  else if off < 0x6200 then .tc ((off - 0x5000) / 4)
  else if off < 0x8000 then .reserved
  else if off < 0xC000 then .vc ((off - 0x8000) / 4)
  else .reserved

/-! ### Register words -/

/-- One bit in bit position `n` of a word. -/
def bitAt (f : Bool) (n : Nat) : Word := (BitVec.ofBool f).setWidth 32 <<< n

/-- CTRL as read: SOFT_RESET and reserved bits are 0 (10_state R34). -/
def Ctrl.word (c : Ctrl) : Word :=
  bitAt c.optEn 0 ||| bitAt c.ctxCommit 1 ||| bitAt c.eobClamp 2 ||| bitAt c.irqEn 3

/-- CTRL after a write without bit 31 (10_state R34). -/
def Ctrl.ofWord (w : Word) : Ctrl :=
  { optEn := w.getLsbD 0, ctxCommit := w.getLsbD 1, eobClamp := w.getLsbD 2, irqEn := w.getLsbD 3 }

/-- ERRCODE of an error (60_exceptions R281). -/
def ErrorCode.number : ErrorCode → BitVec 4
  | .illegalOp => 1#4
  | .rsvdField => 2#4
  | .badBlk => 3#4
  | .badEob => 5#4
  | .badLevel => 6#4
  | .badMode => 7#4

/-- ERRCODE as read: 0 whenever ERR is 0 (10_state R35). -/
def Status.errcode (st : Status) : BitVec 4 :=
  match st.error with
  | some c => c.number
  | none => 0#4

/-- STATUS as read (10_state R35). -/
def State.statusWord (s : State) : Word :=
  bitAt s.busy 0 ||| bitAt s.status.done 1 ||| bitAt s.status.error.isSome 2 ||| bitAt s.status.ovr 3 |||
    bitAt s.status.wrap 4 ||| bitAt s.status.busywr 5 ||| (s.status.errcode.setWidth 32 <<< 8)

/-- A STATUS write: the W1C bits written as 1 are cleared, ERRCODE with ERR (10_state R35, 60_exceptions R286). -/
def Status.clearWith (st : Status) (w : Word) : Status :=
  { done := st.done && !w.getLsbD 1
    error := if w.getLsbD 2 then none else st.error
    ovr := st.ovr && !w.getLsbD 3
    wrap := st.wrap && !w.getLsbD 4
    busywr := st.busywr && !w.getLsbD 5 }

/-- MBCFG as read (10_state R37). -/
def MbCfg.word (m : MbCfg) : Word :=
  m.mode.setWidth 32 ||| bitAt m.intra 2 ||| bitAt m.aboveValid 3 ||| bitAt m.leftValid 4

/-- MBCFG after a write: MODE stores any value (10_state R37, 20_memory R72). -/
def MbCfg.ofWord (w : Word) : MbCfg :=
  { mode := w.extractLsb' 0 2, intra := w.getLsbD 2, aboveValid := w.getLsbD 3, leftValid := w.getLsbD 4 }

/-- ERRINFO as read (10_state R43). -/
def ErrInfo.word (e : ErrInfo) : Word := e.blk.setWidth 32 ||| (e.pos.setWidth 32 <<< 8)

/-! ### Reads -/

/-- A register as read (10_state R33..R43): CMD reads 0. -/
def State.readReg (s : State) : Reg → Word
  | .id => Config.idWord
  | .ctrl => s.ctrl.word
  | .status => s.statusWord
  | .cmd => 0
  | .mbcfg => s.mbcfg.word
  | .rdmult => s.rdmult
  | .rddiv => s.rddiv
  | .version => Config.versionWord
  | .prm t => s.prm[t]
  | .ctxAbove => s.ctxAbove.setWidth 32
  | .ctxLeft => s.ctxLeft.setWidth 32
  | .wctxAbove => s.wctxAbove.setWidth 32
  | .wctxLeft => s.wctxLeft.setWidth 32
  | .errinfo => s.errinfo.word

/-- The word at a location: u8 elements zero-extended, s16 sign-extended (20_memory R71), reserved 0 (R72). -/
def State.readLoc (s : State) : Loc → Word
  | .reg r => s.readReg r
  | .src j => (s.srcAt j).setWidth 32
  | .pred j => (s.predAt j).setWidth 32
  | .diff j => (s.diffAt j).signExtend 32
  | .coeff j => (s.coeffAt j).signExtend 32
  | .qcoeff j => (s.qcoeffAt j).signExtend 32
  | .dqcoeff j => (s.dqcoeffAt j).signExtend 32
  | .eob b => (s.eobAt b).setWidth 32
  | .deq j => (s.deqElem j).signExtend 32
  | .tc j => s.tcElem j
  | .vc j => s.vcElem j
  | .reserved => 0

/-- The byte at window offset `off`: byte `n` of the word at `4k` holds bits `8n+7 : 8n` (20_memory R74). -/
def State.windowByte (s : State) (off : Nat) : Byte :=
  (s.readLoc (locate (off / 4 * 4))).extractLsb' (off % 4 * 8) 8

/-- Is this an optimization command? -/
def isOptimization : Instr → Bool
  | .optB _ _ _ => true
  | .optMb _ => true
  | .optMby _ => true
  | .optMbuv _ => true
  | _ => false

/-- Is this a macroblock pass? -/
def isPass : Instr → Bool
  | .optMb _ => true
  | .optMby _ => true
  | .optMbuv _ => true
  | _ => false

/-- Does the command compute residuals? -/
def isResidual : Instr → Bool
  | .subB _ => true
  | .subMby => true
  | .subMbuv => true
  | .subMb => true
  | _ => false

/-- Does the command write COEFF (10_state R46)? -/
def writesCoeff : Instr → Bool
  | .fdct4x4 _ => true
  | .fdct8x4 _ => true
  | .walsh4x4 => true
  | .xformMby => true
  | .xformMbuv => true
  | .xformMb => true
  | _ => false

/-- Does the command transform the luma plane, and block 24 when active (41_transform R159, R161)? -/
def isLumaXform : Instr → Bool
  | .xformMby => true
  | .xformMb => true
  | _ => false

/-- May the running command `i` write what stands at `loc` (20_memory R81 with 10_state R46)? A whole array
counts, as R46 lists whole arrays; ERRINFO counts for a command that reads MODE or checks blocks (log entry 6). -/
def State.commandMayWrite (s : State) (i : Instr) (loc : Loc) : Bool :=
  match loc with
  | .diff _ => isResidual i || decide (i = .buildDc) || (isLumaXform i && s.hasY2)
  | .coeff _ => writesCoeff i
  | .qcoeff _ => isOptimization i
  | .dqcoeff _ => isOptimization i || (match i with | .dqB _ _ => true | _ => false)
  | .eob _ => isOptimization i
  | .reg .wctxAbove => isOptimization i || decide (i = .ctxSnap)
  | .reg .wctxLeft => isOptimization i || decide (i = .ctxSnap)
  | .reg .ctxAbove => decide (i = .ctxCommit) || (isPass i && s.ctrl.ctxCommit)
  | .reg .ctxLeft => decide (i = .ctxCommit) || (isPass i && s.ctrl.ctxCommit)
  | .reg .errinfo => isOptimization i || isLumaXform i
  | _ => false

/-- May the running word write what stands at `loc`? A word that is no command writes ERRINFO (besides STATUS). -/
def State.wordMayWrite (s : State) (w : Word) (loc : Loc) : Bool :=
  match decode w with
  | .ok i => s.commandMayWrite i loc
  | .error _ => decide (loc = .reg .errinfo)

/-- `w` as a value of what stands at a location: the element's conversion (20_memory R71), and 0 in the bits that a
context register or ERRINFO reserves (20_memory R72, 10_state R41..R43). A register no command writes, CMD and a
reserved offset are never asked for. -/
def Loc.fit (w : Word) : Loc → Word
  | .src _ => (w.setWidth 8).setWidth 32
  | .pred _ => (w.setWidth 8).setWidth 32
  | .eob _ => (w.setWidth 8).setWidth 32
  | .diff _ => (w.setWidth 16).signExtend 32
  | .coeff _ => (w.setWidth 16).signExtend 32
  | .qcoeff _ => (w.setWidth 16).signExtend 32
  | .dqcoeff _ => (w.setWidth 16).signExtend 32
  | .deq _ => (w.setWidth 16).signExtend 32
  | .tc _ => w
  | .vc _ => w
  | .reg .ctxAbove => (w.setWidth 9).setWidth 32
  | .reg .ctxLeft => (w.setWidth 9).setWidth 32
  | .reg .wctxAbove => (w.setWidth 9).setWidth 32
  | .reg .wctxLeft => (w.setWidth 9).setWidth 32
  | .reg .errinfo => w &&& 0x1F1F#32
  | .reg _ => w
  | .reserved => 0

/-- A 32-bit read at an aligned offset: the word, or while BUSY a free value for what the running command may
write (20_memory R81). DEDUCED: that free value is one of the type of what stands there (`Loc.fit`), as
93_implementation_defined's "any value of the type" is read here; R81 itself says "any value" (log entry 6). No read
has another side effect (20_memory R77). -/
def State.readWindow (s : State) (off : Nat) : State :=
  match s.latch with
  | some c =>
    if s.wordMayWrite c.word (locate off) then
      { s with reply := some (.value ((locate off).fit (Config.busyRead s.fresh))), fresh := s.fresh + 1 }
    else { s with reply := some (.value (s.readLoc (locate off))) }
  | none => { s with reply := some (.value (s.readLoc (locate off))) }

/-! ### Writes -/

/-- LATENCY(op) of a word's OP: at least 1 (70_reset R340; log entry 3). -/
def State.latency (s : State) (w : Word) : Nat := s.params.busyExtra[(opField w).toNat] + 1

/-- A CMD write (60_exceptions R282): accepted when BUSY = 0 and ERR = 0, else OVR. -/
def State.writeCmd (s : State) (w : Word) : State :=
  if s.busy || s.status.error.isSome then { s with status := { s.status with ovr := true } }
  else
    { s with
      latch := some { word := w, left := s.latency w }
      status := { s.status with done := false } }

/-- A CTRL write: bit 31 is the soft reset (10_state R34, 70_reset R321). -/
def State.writeCtrl (s : State) (w : Word) : State :=
  if w.getLsbD 31 then s.softReset else { s with ctrl := Ctrl.ofWord w }

/-- A STATUS write. -/
def State.writeStatus (s : State) (w : Word) : State := { s with status := s.status.clearWith w }

/-- A register write while IDLE: read-only registers ignore it (10_state R33..R43). -/
def State.writeReg (s : State) (r : Reg) (w : Word) : State :=
  match r with
  | .id => s
  | .ctrl => s.writeCtrl w
  | .status => s.writeStatus w
  | .cmd => s.writeCmd w
  | .mbcfg => { s with mbcfg := MbCfg.ofWord w }
  | .rdmult => { s with rdmult := w }
  | .rddiv => { s with rddiv := w }
  | .version => s
  | .prm t => { s with prm := s.prm.set t w }
  | .ctxAbove => { s with ctxAbove := w.setWidth 9 }
  | .ctxLeft => { s with ctxLeft := w.setWidth 9 }
  | .wctxAbove => { s with wctxAbove := w.setWidth 9 }
  | .wctxLeft => { s with wctxLeft := w.setWidth 9 }
  | .errinfo => s

/-- A write while IDLE: an element stores the low bits of the word (20_memory R71); a reserved offset ignores it. -/
def State.writeLoc (s : State) (loc : Loc) (w : Word) : State :=
  match loc with
  | .reg r => s.writeReg r w
  | .src j => { s with src := s.src.put j (w.setWidth 8) }
  | .pred j => { s with pred := s.pred.put j (w.setWidth 8) }
  | .diff j => { s with diff := s.diff.put j (w.setWidth 16) }
  | .coeff j => { s with coeff := s.coeff.put j (w.setWidth 16) }
  | .qcoeff j => { s with qcoeff := s.qcoeff.put j (w.setWidth 16) }
  | .dqcoeff j => { s with dqcoeff := s.dqcoeff.put j (w.setWidth 16) }
  | .eob b => { s with eob := s.eob.put b (w.setWidth 8) }
  | .deq j => { s with deq := s.deq.put j (w.setWidth 16) }
  | .tc j => { s with tc := s.tc.put j w }
  | .vc j => { s with vc := s.vc.put j w }
  | .reserved => s

/-- A write while BUSY (20_memory R80): STATUS is performed, CMD refused (OVR only: log entry 18), everything else
dropped with BUSYWR. -/
def State.writeBusy (s : State) (loc : Loc) (w : Word) : State :=
  match loc with
  | .reg .status => s.writeStatus w
  | .reg .cmd => s.writeCmd w
  | _ => { s with status := { s.status with busywr := true } }

/-- A 32-bit write at an aligned offset. -/
def State.writeWindow (s : State) (off : Nat) (w : Word) : State :=
  let s1 := if s.busy then s.writeBusy (locate off) w else s.writeLoc (locate off) w
  { s1 with reply := some .taken }

/-! ### Host accesses -/

/-- Is the host byte address inside the window (20_memory R70)? -/
def State.inWindow (s : State) (addr : Nat) : Bool :=
  decide (s.params.base ≤ addr) && decide (addr < s.params.base + 0x10000)

/-- Is the access 32 bits wide at an offset that is a multiple of 4 (20_memory R75)? -/
def State.wholeWord (s : State) (addr width : Nat) : Bool :=
  decide (width = 32) && decide ((addr - s.params.base) % 4 = 0)

/-- A host access: outside the window it is not the engine's; of another width or alignment it is a bus error, with
no state change (20_memory R75; log entries 7 and 8); else it is performed at its offset. -/
def State.access (s : State) (addr width : Nat) (perform : Nat → State) : Host.Outcome State Fault Refusal :=
  if s.inWindow addr then
    if s.wholeWord addr width then .next (perform (addr - s.params.base))
    else .next { s with reply := some .busError }
  else .fault (.outsideWindow addr)

/-- A host read. -/
def State.hostRead (s : State) (addr width : Nat) : Host.Outcome State Fault Refusal :=
  s.access addr width s.readWindow

/-- A host write. -/
def State.hostWrite (s : State) (addr width : Nat) (w : Word) : Host.Outcome State Fault Refusal :=
  s.access addr width fun off => s.writeWindow off w

end Sys2Proof.Machine
end

