-- ==== Sys2Proof/Machine/Sequencer.lean ====
section
/-! DEFINITION. The sequencer (10_state R32) and the host's moves (20_memory R79..R83): which agent moves in a step
and what it does (log entries 1 and 3). -/

namespace Sys2Proof.Machine

/-- The latched word runs: the command it decodes to, or the error of a word that is no command
(30_encoding R103, 60_exceptions R283). -/
def State.runWord (s : State) (w : Word) : Host.Outcome State Fault Refusal :=
  match decode w with
  | .ok i => exec i s
  | .error e => .next (s.raise (decodeFailure e))

/-- The latched word whose last BUSY step this is, if any. -/
def State.due (s : State) : Option Word :=
  match s.latch with
  | some c => if c.left ≤ 1 then some c.word else none
  | none => none

/-- One BUSY step passes without the command ending. -/
def State.countDown (s : State) : State :=
  match s.latch with
  | some c => { s with latch := some { c with left := c.left - 1 } }
  | none => s

/-- One poll: a read of STATUS; the host polls again while BUSY = 1 (30_encoding R108). -/
def State.pollOnce (s : State) (rest : List HostAction) : State :=
  { s with
    reply := some (.value s.statusWord)
    host := if s.busy then .poll :: rest else rest }

/-- One step of waiting for the interrupt (20_memory R83, 60_exceptions R292). -/
def State.waitOnce (s : State) (rest : List HostAction) : State :=
  { s with host := if s.irq then rest else .waitIrq :: rest }

/-- The host's move: its next action, if it has one (20_memory R79). -/
def State.hostMove (s : State) : Host.Outcome State Fault Refusal :=
  match s.host with
  | [] => .next s
  | .read addr width :: rest => { s with host := rest }.hostRead addr width
  | .write addr width w :: rest => { s with host := rest }.hostWrite addr width w
  | .poll :: rest => .next (s.pollOnce rest)
  | .waitIrq :: rest => .next (s.waitOnce rest)
  | .idle :: rest => .next { s with host := rest }
  | .hardReset :: rest => .next { s with host := rest }.hardReset

/-- One step: a command in its last BUSY step runs; otherwise one BUSY step passes, if BUSY, and the host moves. -/
def State.advance (s : State) : Host.Outcome State Fault Refusal :=
  match s.due with
  | some w => s.runWord w
  | none => s.countDown.hostMove

end Sys2Proof.Machine
end

