-- ==== Sys2Proof/Machine/Step.lean ====
section
/-! DEFINITION. The step, and the host's placing of a command word. -/

namespace Sys2Proof.Machine

/-- One step of the machine (10_state R32, 20_memory R79..R83). -/
def step (s : State) : Host.Outcome State Fault Refusal := s.advance

/-- `s` with the command word of an opcode-table row latched, in its last BUSY step, so that the next step runs it.
It stands for an accepted CMD write (log entry 11). -/
def State.withFetchWord (s : State) (nbits w : Nat) : State :=
  { s with latch := some { word := tableWord nbits w, left := 1 } }

end Sys2Proof.Machine
end

