-- ==== Sys2Proof/Machine/HostSequences.lean ====
section
/-! DEFINITION. Host sequences in the assembler's terms (30_encoding R108, R109; 44_orchestration R262): lists of host
actions for `State.host`. -/

namespace Sys2Proof.Machine

/-- `st32 off, value` and `ld32 off` (30_encoding R108), for a window at `base`. -/
def st32 (base off : Nat) (w : Word) : HostAction := .write (base + off) 32 w
def ld32 (base off : Nat) : HostAction := .read (base + off) 32

/-- A command followed by `poll` (30_encoding R108, R109). -/
def issue (base : Nat) (i : Instr) : List HostAction := [st32 base 0x00C (encode i), .poll]

/-- Commands in order, each followed by `poll`. -/
def issueAll (base : Nat) (is : List Instr) : List HostAction := is.flatMap (issue base)

/-- The pseudo-instructions of 30_encoding R109. -/
def residXformMb (base : Nat) : List HostAction := issueAll base [.subMb, .xformMb]
def residXformMby (base : Nat) : List HostAction := issueAll base [.subMby, .xformMby]
def residXformMbuv (base : Nat) : List HostAction := issueAll base [.subMbuv, .xformMbuv]
def fdctB (base : Nat) (blk : BitVec 5) : List HostAction := issueAll base [.subB blk, .fdct4x4 blk]
def optBMb (base : Nat) (blk : BitVec 5) (pt : BitVec 2) : List HostAction :=
  issueAll base [.ctxSnap, .optB blk pt false, .ctxCommit]
def clrStat (base : Nat) : HostAction := st32 base 0x008 0x3E#32

/-- The four encode sequences (44_orchestration R262), with the host's loading of SRC, PRED and MBCFG and its
quantization as given action lists, and each step's check that ERR = 0 as a read of STATUS. -/
def checkedStep (base : Nat) (i : Instr) : List HostAction := issue base i ++ [ld32 base 0x008]
def fullEncode (base : Nat) (load quantize : List HostAction) : List HostAction :=
  load ++ checkedStep base .subMb ++ checkedStep base .xformMb ++ quantize ++ checkedStep base (.optMb true)
def lumaEncode (base : Nat) (load quantize : List HostAction) : List HostAction :=
  load ++ checkedStep base .subMby ++ checkedStep base .xformMby ++ quantize ++ checkedStep base (.optMby true)
def chromaEncode (base : Nat) (load quantize : List HostAction) : List HostAction :=
  load ++ checkedStep base .subMbuv ++ checkedStep base .xformMbuv ++ quantize ++ checkedStep base (.optMbuv true)
def coefficientEncode (base : Nat) (load quantize : List HostAction) : List HostAction :=
  load ++ checkedStep base .subMb ++ checkedStep base .xformMb ++ quantize

end Sys2Proof.Machine
end

