-- ==== Sys2Proof/Safety.lean ====
section
/-! DEFINITION. The terms claims are stated in: invariants of the machine, the conditions under which an optimization
runs, and the quantizer's contract. -/

namespace Sys2Proof.Machine

/-- The BUSY handshake (10_state R32, R35; 60_exceptions R282, R284): DONE and ERR are never both 1, and while a
command is latched neither is 1 and at least one BUSY step is left. -/
abbrev State.Handshake (s : State) : Prop :=
  (s.status.done = true → s.status.error = none) ∧
    ∀ c, s.latch = some c → s.status.done = false ∧ s.status.error = none ∧ 1 ≤ c.left

/-- Every array in canonical form with its own size (10_state R45; log entry 5). -/
abbrev State.ArraysWf (s : State) : Prop :=
  s.src.wf 384 = true ∧ s.pred.wf 384 = true ∧ s.diff.wf 400 = true ∧ s.coeff.wf 400 = true ∧
    s.qcoeff.wf 400 = true ∧ s.dqcoeff.wf 400 = true ∧ s.eob.wf 25 = true ∧ s.deq.wf 64 = true ∧
    s.tc.wf 1152 = true ∧ s.vc.wf 4096 = true

/-- A step that neither faults nor refuses. -/
abbrev Continues (o : Host.Outcome State Fault Refusal) : Prop := ∃ t, o = .next t

/-- The gate lets a command with gate bit `g` run (44_orchestration R250). -/
abbrev State.GateAllows (s : State) (g : Bool) : Prop :=
  g = true → s.ctrl.optEn = true ∧ s.params.rddivTrivial.toInt < s.rddiv.toInt

/-- Both neighbour contexts are present (44_orchestration R255). -/
abbrev State.NeighboursValid (s : State) : Prop := s.mbcfg.aboveValid = true ∧ s.mbcfg.leftValid = true

/-- The block passes `CHECK_BLOCK` (43_trellis R219): EOB at most 16 and every level in the optimized range in
−2048..2047. -/
abbrev State.BlockReady (s : State) (b : Nat) (t : BitVec 2) : Prop :=
  (s.eobAt b).toNat ≤ 16 ∧
    ∀ i, firstPos t ≤ i → i < (s.eobAt b).toNat → -2048 ≤ s.levelScan b i ∧ s.levelScan b i ≤ 2047

/-- The quantizer's contract for block `b` with plane type `t` (42_quant_dequant R181): Q1, Q2, Q3. -/
abbrev State.QuantizerContract (s : State) (b : Nat) (t : BitVec 2) : Prop :=
  (∀ i, i < (s.eobAt b).toNat → s.dqScan b i = s.levelScan b i * s.deqAt t i) ∧
    (firstPos t < (s.eobAt b).toNat → s.levelScan b ((s.eobAt b).toNat - 1) ≠ 0) ∧
    (∀ i, (s.eobAt b).toNat ≤ i → i ≤ 15 → s.levelScan b i = 0) ∧
    (s.eobAt b).toNat ≤ 16

/-- The dequantization invariant of block `b` (42_quant_dequant R184). -/
abbrev State.Dequantized (s : State) (b : Nat) (t : BitVec 2) : Prop :=
  ∀ i, firstPos t ≤ i → i < (s.eobAt b).toNat →
    s.dqScan b i = narrow 16 (s.levelScan b i * s.deqAt t i)

/-- The end of a command with no other effect: BUSY falls, DONE rises (10_state R32, R35). -/
abbrev State.ends (s : State) : State := { s with latch := none, status := { s.status with done := true } }

/-- The end of a command in error, with no other effect (60_exceptions R284). -/
abbrev State.failsWith (s : State) (c : ErrorCode) (blk pos : BitVec 5) : State :=
  { s with
    latch := none
    status := { s.status with done := false, error := some c }
    errinfo := { blk := blk, pos := pos } }

/-- The host moves in this step, in state `t`: no command is latched and `t` is `s`, or one is latched with more
than its last BUSY step left and `t` is `s` after that step (log entry 3). -/
abbrev State.HostTurn (s t : State) : Prop :=
  (s.latch = none ∧ t = s) ∨
    ∃ w n, s.latch = some { word := w, left := n + 2 } ∧ t = { s with latch := some { word := w, left := n + 1 } }

/-- A whole aligned word of the window at offset `off` (20_memory R70, R75). -/
abbrev State.WordAt (s : State) (addr off : Nat) : Prop :=
  addr = s.params.base + off ∧ off < 0x10000 ∧ off % 4 = 0

/-- The fields the opcode of a command uses (30_encoding R102). -/
def usesBlk : Instr → Bool
  | .subB _ => true
  | .fdct4x4 _ => true
  | .fdct8x4 _ => true
  | .dqB _ _ => true
  | .optB _ _ _ => true
  | _ => false
def usesPt : Instr → Bool
  | .dqB _ _ => true
  | .optB _ _ _ => true
  | _ => false
def usesG : Instr → Bool
  | .optB _ _ _ => true
  | .optMb _ => true
  | .optMby _ => true
  | .optMbuv _ => true
  | _ => false

/-- Offsets of the bytes of the 16 elements of block `b` in an array of 25 raster blocks that starts at `base`. -/
abbrev InBlock (base b off : Nat) : Prop := base + 64 * b ≤ off ∧ off < base + 64 * b + 64

/-- Offsets of the bytes of the elements from index `lo` to below `hi` of the array that starts at `base`. -/
abbrev InRange (base lo hi off : Nat) : Prop := base + 4 * lo ≤ off ∧ off < base + 4 * hi

/-- Offsets of the bytes of the DIFF elements of block `b` (40_residual R130). -/
abbrev InDiffBlock (b off : Nat) : Prop :=
  ∃ r c, r < 4 ∧ c < 4 ∧ InRange diffBase (blockIndex b r c) (blockIndex b r c + 1) off

/-- Offsets of the bytes an optimization of block `b` may store to. -/
abbrev InOptimized (b off : Nat) : Prop :=
  InBlock qcoeffBase b off ∨ InBlock dqcoeffBase b off ∨ InRange eobBase b (b + 1) off

/-- Window offsets of the array bytes a command may store to in state `s`. -/
def State.storesAt (s : State) (off : Nat) : Instr → Prop
  | .nop => False
  | .subB blk => InDiffBlock blk.toNat off
  | .subMby => InRange diffBase 0 256 off
  | .subMbuv => InRange diffBase 256 384 off
  | .subMb => InRange diffBase 0 384 off
  | .fdct4x4 blk => InBlock coeffBase blk.toNat off
  | .fdct8x4 blk => InBlock coeffBase blk.toNat off ∨ InBlock coeffBase (blk.toNat + 1) off
  | .buildDc => InRange diffBase 384 400 off
  | .walsh4x4 => InBlock coeffBase 24 off
  | .xformMby => InRange coeffBase 0 256 off ∨
      (s.mbcfg.mode = 0 ∧ (InRange diffBase 384 400 off ∨ InBlock coeffBase 24 off))
  | .xformMbuv => InRange coeffBase 256 384 off
  | .xformMb => InRange coeffBase 0 384 off ∨
      (s.mbcfg.mode = 0 ∧ (InRange diffBase 384 400 off ∨ InBlock coeffBase 24 off))
  | .dqB blk _ => InBlock dqcoeffBase blk.toNat off
  | .optB blk _ _ => InOptimized blk.toNat off
  | .optMb _ => ∃ bt ∈ s.listMb, InOptimized bt.1 off
  | .optMby _ => ∃ bt ∈ s.listY, InOptimized bt.1 off
  | .optMbuv _ => ∃ bt ∈ listUv, InOptimized bt.1 off
  | .ctxSnap => False
  | .ctxCommit => False

/-- `v` is representable in `bits` bits, two's complement (00_scope R9): `narrow bits` does not change it. -/
abbrev Fits (bits : Nat) (v : Int) : Prop := -(2 ^ (bits - 1) : Int) ≤ v ∧ v < 2 ^ (bits - 1)

/-- The exact first-pass values of one row of the forward transform, by column (41_transform R151). -/
def fdctRowExact (i0 i1 i2 i3 : Int) : Nat → Int
  | 0 => (i0 + i3) * 8 + (i1 + i2) * 8
  | 1 => asr ((i1 - i2) * 8 * 2217 + (i0 - i3) * 8 * 5352 + 14500) 12
  | 2 => (i0 + i3) * 8 - (i1 + i2) * 8
  | _ => asr ((i0 - i3) * 8 * 2217 - (i1 - i2) * 8 * 5352 + 7500) 12

/-- The same values as the machine stores them in `T`: the sum under the shift wraps to 32 bits, the result to 16
(41_transform R150, R151). -/
def fdctRowStored (i0 i1 i2 i3 : Int) : Nat → Int
  | 0 => narrow 16 ((i0 + i3) * 8 + (i1 + i2) * 8)
  | 1 => narrow 16 (asr (narrow 32 ((i1 - i2) * 8 * 2217 + (i0 - i3) * 8 * 5352 + 14500)) 12)
  | 2 => narrow 16 ((i0 + i3) * 8 - (i1 + i2) * 8)
  | _ => narrow 16 (asr (narrow 32 ((i0 - i3) * 8 * 2217 - (i1 - i2) * 8 * 5352 + 7500)) 12)

/-- The second-pass values of one column `(T[c], T[4+c], T[8+c], T[12+c])`, by row (41_transform R152). -/
def fdctColumnExact (t0 t1 t2 t3 : Int) : Nat → Int
  | 0 => asr (t0 + t3 + (t1 + t2) + 7) 4
  | 1 => asr ((t1 - t2) * 2217 + (t0 - t3) * 5352 + 12000) 16 + (if t0 - t3 ≠ 0 then 1 else 0)
  | 2 => asr (t0 + t3 - (t1 + t2) + 7) 4
  | _ => asr ((t0 - t3) * 2217 - (t1 - t2) * 5352 + 51000) 16

/-- The exact first-pass values of one row of the second-order transform, by column (41_transform R155). -/
def whtRowExact (i0 i1 i2 i3 : Int) : Nat → Int
  | 0 => (i0 + i2) * 4 + (i1 + i3) * 4 + (if (i0 + i2) * 4 ≠ 0 then 1 else 0)
  | 1 => (i0 - i2) * 4 + (i1 - i3) * 4
  | 2 => (i0 - i2) * 4 - (i1 - i3) * 4
  | _ => (i0 + i2) * 4 - (i1 + i3) * 4

/-- `asr(x + [x < 0] + 3, 3)` (41_transform R156). -/
def whtRounded (x : Int) : Int := asr (x + (if x < 0 then 1 else 0) + 3) 3

/-- The second-pass values of one column `(T[c], T[4+c], T[8+c], T[12+c])`, by row (41_transform R156). -/
def whtColumnExact (t0 t1 t2 t3 : Int) : Nat → Int
  | 0 => whtRounded (t0 + t2 + (t1 + t3))
  | 1 => whtRounded (t0 - t2 + (t1 - t3))
  | 2 => whtRounded (t0 - t2 - (t1 - t3))
  | _ => whtRounded (t0 + t2 - (t1 + t3))

/-- A row pass of an input `f` given by row and column: the value at (r, c). -/
def rowsOf (row : Int → Int → Int → Int → Nat → Int) (f : Nat → Nat → Int) (r c : Nat) : Int :=
  row (f r 0) (f r 1) (f r 2) (f r 3) c

/-- A column pass of an intermediate array `f` given by row and column: the value at (r, c). -/
def columnsOf (column : Int → Int → Int → Int → Nat → Int) (f : Nat → Nat → Int) (r c : Nat) : Int :=
  column (f 0 c) (f 1 c) (f 2 c) (f 3 c) r

/-- The residual at element (r, c) of block `b` (40_residual R130). -/
def State.residualAt (s : State) (b r c : Nat) : Int := (s.diffAt (blockIndex b r c)).toInt

/-- `RDCOST(r, e)` as a value (43_trellis R208). -/
def rdCostValue (rdm rdd r e : Int) : Int :=
  narrow 32 (asr (narrow 32 (128 + narrow 32 (r * rdm))) 8 + narrow 32 (rdd * e))

/-- `RDTRUNC(r)` as a value (43_trellis R208). -/
def rdTruncValue (rdm r : Int) : Int := narrow 32 (128 + narrow 32 (r * rdm)) % 256

/-- Successor state 1 wins (43_trellis R208). -/
abbrev SecondWins (rdm rdd r0 e0 r1 e1 : Int) : Prop :=
  rdCostValue rdm rdd r1 e1 < rdCostValue rdm rdd r0 e0 ∨
    (rdCostValue rdm rdd r0 e0 = rdCostValue rdm rdd r1 e1 ∧ rdTruncValue rdm r1 < rdTruncValue rdm r0)

/-- The effective RD multiplier as a value (43_trellis R207). -/
def State.rdmValue (s : State) (t : BitVec 2) : Int :=
  let rdm := narrow 32 (s.rdmult.toInt * (s.prm[t.toNat]).toInt)
  if s.mbcfg.intra then asr (narrow 32 (rdm * 9)) 4 else rdm

/-! ### The trellis as 43_trellis writes it: node array, decision masks and head position, in values -/

/-- A node `N[p][k]` (43_trellis R206). -/
structure RuleNode where
  rate : Int
  err : Int
  next : Nat
  tok : Token
  qc : Int
  deriving DecidableEq, Repr

/-- `N[p][k]`, bit `p` of `M[k]`, and `nx` (43_trellis R206); state 1 is `true`. -/
structure RuleTrellis where
  node : Nat → Bool → RuleNode
  mask : Bool → Nat → Bool
  nx : Nat

/-- The start of a block optimization (43_trellis R206). -/
def ruleStart (e : Nat) : RuleTrellis :=
  { node := fun _ _ => { rate := 0, err := 0, next := 16, tok := .eob, qc := 0 }, mask := fun _ _ => false, nx := e }

/-- The rate of a path through node (nx, k) from a node at position `i` with token `own` (43_trellis R209). -/
def State.ruleRate (s : State) (t : BitVec 2) (i : Nat) (own : Token) (T : RuleTrellis) (k : Bool) : Int :=
  if T.nx < 16 then
    narrow 32 ((T.node T.nx k).rate + s.tcAt t (band (i + 1)) (pclass own) (T.node T.nx k).tok)
  else (T.node T.nx k).rate

/-- The node and the bit of state 0 at a nonzero position (43_trellis R209). -/
def State.ruleKeep (s : State) (t : BitVec 2) (b i : Nat) (T : RuleTrellis) : RuleNode × Bool :=
  let x := s.levelScan b i
  let r := s.ruleRate t i (tokenOf x) T
  let e := fun k => (T.node T.nx k).err
  let k := decide (SecondWins (s.rdmValue t) s.rddiv.toInt (r false) (e false) (r true) (e true))
  let dx := s.dqScan b i - s.coefScan b i
  ({ rate := narrow 32 (s.vcAt x + r k), err := narrow 32 (narrow 32 (dx * dx) + e k), next := T.nx
     tok := tokenOf x, qc := x }, k)

/-- `SC(i)` (43_trellis R210). -/
abbrev State.RuleEligible (s : State) (t : BitVec 2) (b i : Nat) : Prop :=
  ((s.levelScan b i).natAbs : Int) * s.deqAt t i > (s.coefScan b i).natAbs ∧
    ((s.levelScan b i).natAbs : Int) * s.deqAt t i < (s.coefScan b i).natAbs + s.deqAt t i

/-- The node and the bit of state 1 at a nonzero position (43_trellis R211). -/
def State.ruleRound (s : State) (t : BitVec 2) (b i : Nat) (T : RuleTrellis) : RuleNode × Bool :=
  let x := s.levelScan b i
  let x1 := if s.RuleEligible t b i then (if x < 0 then x + 1 else x - 1) else x
  let u := fun k => if x1 = 0 then (if (T.node T.nx k).tok = .eob then .eob else .zero) else tokenOf x1
  let r := fun k => if u k = .eob then (T.node T.nx k).rate else s.ruleRate t i (u k) T k
  let e := fun k => (T.node T.nx k).err
  let k := decide (SecondWins (s.rdmValue t) s.rddiv.toInt (r false) (e false) (r true) (e true))
  let dx := s.dqScan b i - s.coefScan b i
  let dx1 := if s.RuleEligible t b i then dx - (if x < 0 then -s.deqAt t i else s.deqAt t i) else dx
  ({ rate := narrow 32 ((if x1 = 0 then 0 else s.vcAt x1) + r k), err := narrow 32 (narrow 32 (dx1 * dx1) + e k)
     next := T.nx, tok := u k, qc := x1 }, k)

/-- A node of the head position after a zero position `i` (43_trellis R212). -/
def State.ruleZero (s : State) (t : BitVec 2) (i : Nat) (n : RuleNode) : RuleNode :=
  if n.tok = .eob then n
  else { n with rate := narrow 32 (n.rate + s.tcAt t (band (i + 1)) 0 n.tok), tok := .zero }

/-- One position of the sweep (43_trellis R213). -/
def State.ruleVisit (s : State) (t : BitVec 2) (b : Nat) (T : RuleTrellis) (i : Nat) : RuleTrellis :=
  if s.levelScan b i = 0 then
    { T with node := fun p k => if p = T.nx then s.ruleZero t i (T.node p k) else T.node p k }
  else
    let n := fun (k : Bool) => if k then s.ruleRound t b i T else s.ruleKeep t b i T
    { node := fun p k => if p = i then (n k).1 else T.node p k
      mask := fun k p => if p = i then (n k).2 else T.mask k p
      nx := i }

/-- The sweep of block `b` from position E−1 down to i0 (43_trellis R213). -/
def State.ruleSweep (s : State) (t : BitVec 2) (b : Nat) : RuleTrellis :=
  (List.range' (firstPos t) ((s.eobAt b).toNat - firstPos t)).foldr (fun i T => s.ruleVisit t b T i)
    (ruleStart (s.eobAt b).toNat)

/-- The state the winning path starts in (43_trellis R214). -/
def State.ruleHead (s : State) (t : BitVec 2) (b : Nat) (T : RuleTrellis) : Bool :=
  let p := (s.wctxAbove.getLsbD (aboveIndex b)).toNat + (s.wctxLeft.getLsbD (leftIndex b)).toNat
  let r := fun k => narrow 32 ((T.node T.nx k).rate +
    s.tcAt t (band (min (s.eobAt b).toNat (firstPos t))) p (T.node T.nx k).tok)
  decide (SecondWins (s.rdmValue t) s.rddiv.toInt (r false) (T.node T.nx false).err (r true) (T.node T.nx true).err)

/-- The positions and levels of the replay from position `j` in state `k`, at most `n` of them (43_trellis R215). -/
def RuleTrellis.replay (T : RuleTrellis) (e : Nat) : Nat → Nat → Bool → List (Nat × Int)
  | 0, _, _ => []
  | n + 1, j, k =>
    if j < e then (j, (T.node j k).qc) :: T.replay e n (T.node j k).next (T.mask k j) else []

/-- The replay of an optimization of block `b` with plane type `t`: rules R206, R207 and R213 to R215 of 43_trellis. -/
def State.rulePath (s : State) (b : Nat) (t : BitVec 2) : List (Nat × Int) :=
  let T := s.ruleSweep t b
  T.replay (s.eobAt b).toNat 16 T.nx (s.ruleHead t b T)

/-! ### The source's claims about the optimizer (43_trellis R222, 93_implementation_defined U22)

The spec derives neither; a model tests them (Tests/Slice0.lean). Both are said of one block, with the working context
it was optimized in, in exact arithmetic. -/

/-- The rate of the levels `xs` at positions `pos`, `pos + 1`, …, the first token in context `ctx`: the token costs, the
level-value costs, and the EOB token after them below position 16 (43_trellis R209, R211, R212, R214). -/
def State.codedRate (s : State) (t : BitVec 2) : Nat → Nat → List Int → Int
  | pos, ctx, [] => if pos < 16 then s.tcAt t (band pos) ctx .eob else 0
  | pos, ctx, x :: xs =>
    s.tcAt t (band pos) ctx (tokenOf x) + (if x = 0 then 0 else s.vcAt x) +
      s.codedRate t (pos + 1) (pclass (tokenOf x)) xs

/-- The estimated rate-distortion cost of block `b` as it stands, in head context `ctx`. -/
def State.blockCost (s : State) (b : Nat) (t : BitVec 2) (ctx : Nat) : Int :=
  let rate := s.codedRate t (firstPos t) ctx
    ((List.range' (firstPos t) ((s.eobAt b).toNat - firstPos t)).map (s.levelScan b))
  let err := ((List.range 16).map fun i =>
    (s.dqScan b i - s.coefScan b i) * (s.dqScan b i - s.coefScan b i)).sum
  asr (128 + rate * s.rdmValue t) 8 + s.rddiv.toInt * err

/-- Cost non-regression of one optimization (43_trellis R222). -/
abbrev State.CostNonRegression (s : State) (b : Nat) (t : BitVec 2) : Prop :=
  (s.optimize b t).blockCost b t (s.headContext b) ≤ s.blockCost b t (s.headContext b)

/-- The block after a first optimization, in the working context before it. -/
def State.optimizedOnce (s : State) (b : Nat) (t : BitVec 2) : State :=
  { s.optimize b t with wctxAbove := s.wctxAbove, wctxLeft := s.wctxLeft }

/-- Block `b` is as in `s`: its EOB, levels and dequantized values. -/
abbrev State.SameBlock (s u : State) (b : Nat) : Prop :=
  u.eobAt b = s.eobAt b ∧ ∀ i, i < 16 → u.levelScan b i = s.levelScan b i ∧ u.dqScan b i = s.dqScan b i

/-- Idempotence of one optimization (43_trellis R222): a second one, on the first one's output and in the same working
context, changes nothing. -/
abbrev State.Idempotent (s : State) (b : Nat) (t : BitVec 2) : Prop :=
  (s.optimizedOnce b t).SameBlock ((s.optimizedOnce b t).optimize b t) b

/-! ### Errors, registers and sequences of commands -/

/-- `CHECK_BLOCK(b, t)` fails with code `c` and position `pos` (43_trellis R219): EOB above 16, or the highest
position of the optimized range whose level is outside −2048..2047. -/
abbrev State.BlockFails (s : State) (b : Nat) (t : BitVec 2) (c : ErrorCode) (pos : Nat) : Prop :=
  (16 < (s.eobAt b).toNat ∧ c = .badEob ∧ pos = 0) ∨
    ((s.eobAt b).toNat ≤ 16 ∧ c = .badLevel ∧ firstPos t ≤ pos ∧ pos < (s.eobAt b).toNat ∧
      (s.levelScan b pos < -2048 ∨ 2047 < s.levelScan b pos) ∧
      ∀ i, pos < i → i < (s.eobAt b).toNat → -2048 ≤ s.levelScan b i ∧ s.levelScan b i ≤ 2047)

/-- A STATUS write of `w` (10_state R35, 60_exceptions R286): each W1C flag whose bit is 1 is cleared, ERRCODE with
ERR. -/
abbrev Status.cleared (st : Status) (w : Word) : Status :=
  { done := if w.getLsbD 1 then false else st.done
    error := if w.getLsbD 2 then none else st.error
    ovr := if w.getLsbD 3 then false else st.ovr
    wrap := if w.getLsbD 4 then false else st.wrap
    busywr := if w.getLsbD 5 then false else st.busywr }

/-- The word a host reads at window offset `off` while the engine is IDLE (20_memory R70). -/
abbrev State.wordAt (s : State) (off : Nat) : Word := s.readLoc (locate off)

/-- The window offsets of the u8, s16 and s32 elements (20_memory R70, R71). -/
abbrev ByteElement (off : Nat) : Prop := (0x400 ≤ off ∧ off < 0x1000) ∨ (0x4800 ≤ off ∧ off < 0x4864)
abbrev HalfElement (off : Nat) : Prop :=
  (0x1000 ≤ off ∧ off < 0x1640) ∨ (0x2000 ≤ off ∧ off < 0x2640) ∨ (0x3000 ≤ off ∧ off < 0x3640) ∨
    (0x4000 ≤ off ∧ off < 0x4640) ∨ (0x4900 ≤ off ∧ off < 0x4A00)
abbrev WordElement (off : Nat) : Prop := (0x5000 ≤ off ∧ off < 0x6200) ∨ (0x8000 ≤ off ∧ off < 0xC000)

/-- The reserved window offsets (20_memory R70). -/
abbrev ReservedOffset (off : Nat) : Prop :=
  (0x44 ≤ off ∧ off < 0x400) ∨ (0x1640 ≤ off ∧ off < 0x2000) ∨ (0x2640 ≤ off ∧ off < 0x3000) ∨
    (0x3640 ≤ off ∧ off < 0x4000) ∨ (0x4640 ≤ off ∧ off < 0x4800) ∨ (0x4864 ≤ off ∧ off < 0x4900) ∨
    (0x4A00 ≤ off ∧ off < 0x5000) ∨ (0x6200 ≤ off ∧ off < 0x8000) ∨ (0xC000 ≤ off ∧ off < 0x10000)

/-- Commands one after another, each started in the state the last one left (20_memory R82). -/
def execAll : List Instr → State → Host.Outcome State Fault Refusal
  | [], s => .next s
  | i :: is, s =>
    match exec i s with
    | .next t => execAll is t
    | .fault f => .fault f
    | .refused r => .refused r

end Sys2Proof.Machine
end

