-- ==== Sys2Proof/Certificates/Slice0/Obligations.lean ====
section
/-! DEFINITION. The statements for the provers. Each docstring names the rule it formalises; a clause that rests on a
choice of the model names the log entry (notes/assumptions). -/

open Sys2Proof Sys2Proof.Machine

/-! ### Encoding (30_encoding) -/

/-- R100, R101, R108: every well-formed command is what its own word decodes to. -/
def Obligations.DecodeInvertsEncode : Prop :=
  ∀ i : Instr, i.WellFormed → decode (encode i) = .ok i

/-- R102..R105: a word that decodes is the assembler's word of a well-formed command, so no word has two meanings and
no bit of it is ignored. -/
def Obligations.EncodeInvertsDecode : Prop :=
  ∀ (w : Word) (i : Instr), decode w = .ok i → i.WellFormed ∧ encode i = w

/-- R107: the match and mask of each command, and the error of a word whose masked bits differ. -/
def Obligations.MatchAndMaskSelectTheCommand : Prop :=
  ∀ (w : Word) (i : Instr),
    i.mask = ~~~((if usesBlk i then 0x7C0#32 else 0) ||| (if usesPt i then 0x1800#32 else 0) |||
      (if usesG i then 0x2000#32 else 0)) ∧
    (decode w = .ok i → w &&& i.mask = i.opcode.setWidth 32) ∧
    (opField w = i.opcode → w &&& i.mask ≠ i.opcode.setWidth 32 → decode w = .error .rsvdField)

/-- R110: the sixteen worked encodings. -/
def Obligations.WorkedEncodings : Prop :=
  ∀ p ∈ ([(.nop, 0x00000000#32), (.subB 5, 0x00000141#32), (.subMb, 0x00000004#32),
      (.fdct4x4 0, 0x00000008#32), (.fdct8x4 2, 0x00000089#32), (.buildDc, 0x0000000A#32),
      (.walsh4x4, 0x0000000B#32), (.xformMb, 0x0000000E#32), (.dqB 3 0, 0x000000D0#32),
      (.optB 0 0 false, 0x00000014#32), (.optB 24 1 true, 0x00002E14#32), (.optMb true, 0x00002015#32),
      (.optMby false, 0x00000016#32), (.optMbuv true, 0x00002017#32), (.ctxSnap, 0x00000018#32),
      (.ctxCommit, 0x00000019#32)] : List (Instr × Word)),
    encode p.1 = p.2 ∧ decode p.2 = .ok p.1

/-! ### Words that are no command (30_encoding R103..R106, 60_exceptions R281, R283, R284) -/

/-- R106, R103, R281, R284: an illegal opcode ends in error ILLEGAL_OP, whatever its other fields, and changes nothing
but STATUS and ERRINFO; and only the zero word is NOP. -/
def Obligations.IllegalOpcodeEndsInError : Prop :=
  (∀ (s : State) (w : Word) (n : Nat), s.latch = some { word := w, left := n } → n ≤ 1 →
    ((5 ≤ (opField w).toNat ∧ (opField w).toNat ≤ 7) ∨ (opField w).toNat = 0xF ∨
      (0x11 ≤ (opField w).toNat ∧ (opField w).toNat ≤ 0x13) ∨ 0x1A ≤ (opField w).toNat) →
    step s = .next (s.failsWith .illegalOp 0 0)) ∧
  ∀ w : Word, decode w = .ok .nop ↔ w = 0

/-- R104 (with R281, R283, R284): a set reserved bit, or a set bit of a field the opcode does not use, ends in error
RSVD_FIELD, whatever BLK is, and changes nothing but STATUS and ERRINFO. -/
def Obligations.ReservedFieldEndsInError : Prop :=
  ∀ (s : State) (w : Word) (n : Nat) (i : Instr), s.latch = some { word := w, left := n } → n ≤ 1 →
    opField w = i.opcode →
    (rsvField w ≠ 0 ∨ (usesBlk i = false ∧ blkField w ≠ 0) ∨ (usesPt i = false ∧ ptField w ≠ 0) ∨
      (usesG i = false ∧ gField w = true)) →
    step s = .next (s.failsWith .rsvdField 0 0)

/-- R105 (with R281, R283, R284): a BLK outside the opcode's legal set ends in error BAD_BLK with the block in ERRINFO. -/
def Obligations.IllegalBlockEndsInError : Prop :=
  ∀ (s : State) (w : Word) (n : Nat), s.latch = some { word := w, left := n } → n ≤ 1 →
    ((((opField w).toNat = 0x01 ∨ (opField w).toNat = 0x08) ∧ 24 ≤ (blkField w).toNat ∧ w >>> 11 = 0) ∨
      ((opField w).toNat = 0x09 ∧ ((blkField w).toNat % 2 = 1 ∨ 23 ≤ (blkField w).toNat) ∧ w >>> 11 = 0) ∨
      ((opField w).toNat = 0x10 ∧ 25 ≤ (blkField w).toNat ∧ w >>> 13 = 0) ∨
      ((opField w).toNat = 0x14 ∧ 25 ≤ (blkField w).toNat ∧ w >>> 14 = 0)) →
    step s = .next (s.failsWith .badBlk (blkField w) 0)

/-! ### The sequencer and the host (10_state R32, 20_memory R79..R83) -/

/-- A STEP RUNS THE DECODED COMMAND (R31, R32, R82): in its last BUSY step the latched word runs, and step is exec of
the command it decodes to, or the error of a word that is no command. Nothing is added around exec. -/
def Obligations.StepRunsTheLatchedCommand : Prop :=
  ∀ (s : State) (w : Word) (n : Nat), s.latch = some { word := w, left := n } → n ≤ 1 →
    (∀ i, decode w = .ok i → step s = exec i s) ∧
    ∀ e, decode w = .error e → step s = .next (s.raise (decodeFailure e))

/-- R79, R83, R108: in every other step the host makes its next move (the host's list and the moves are the model's:
log entries 1, 3 and 10). -/
def Obligations.HostMovesWhenNoCommandIsDue : Prop :=
  ∀ s t : State, s.HostTurn t →
    (s.host = [] → step s = .next t) ∧
    ∀ rest,
      (s.host = .idle :: rest → step s = .next { t with host := rest }) ∧
      (s.host = .poll :: rest → step s = .next { t with
        reply := some (.value (t.wordAt 0x008))
        host := if t.latch.isSome then .poll :: rest else rest }) ∧
      (s.host = .waitIrq :: rest → step s = .next { t with
        host := if t.ctrl.irqEn && (t.status.done || t.status.error.isSome) then rest
          else .waitIrq :: rest }) ∧
      (∀ addr width, s.host = .read addr width :: rest →
        step s = ({ t with host := rest } : State).hostRead addr width) ∧
      ∀ addr width v, s.host = .write addr width v :: rest →
        step s = ({ t with host := rest } : State).hostWrite addr width v

/-- R32, R340: a command word the host writes to CMD of the idle engine runs, after LATENCY(op) further steps, on the
state the write left (the step count is the model's reading of LATENCY: log entry 3). -/
def Obligations.AcceptedCommandRunsAfterItsLatency : Prop :=
  ∀ (s : State) (w : Word) (i : Instr), s.latch = none → s.status.error = none →
    s.host = [.write (s.params.base + 0x00C) 32 w] → decode w = .ok i →
    Sys2Proof.core.run (s.params.busyExtra[(opField w).toNat] + 2) s =
      exec i { s with
        host := [], reply := some .taken, latch := some { word := w, left := 1 },
        status := { s.status with done := false } }

/-- R79, R80, R334: while a command is latched and not yet in its last BUSY step, a step without hardware reset changes
nothing a command reads: only STATUS flags, the BUSY count, and the host's side (log entry 3). -/
def Obligations.BusyEngineKeepsTheCommandsInputs : Prop :=
  ∀ (s t : State) (w : Word) (n : Nat), s.latch = some { word := w, left := n + 2 } →
    s.host.head? ≠ some .hardReset → step s = .next t →
    t = { s with
      status := t.status, latch := some { word := w, left := n + 1 }, host := t.host, reply := t.reply,
      fresh := t.fresh }

/-! ### Host accesses (20_memory, 60_exceptions) -/

/-- R282: a CMD write is accepted exactly when BUSY = 0 and ERR = 0; an accepted one clears DONE and latches the word;
another sets OVR and changes nothing else (that it leaves BUSYWR while BUSY is the model's reading: log entry 18). -/
def Obligations.CmdWriteIsAcceptedOrSetsOvr : Prop :=
  ∀ (s : State) (w : Word),
    (s.latch = none ∧ s.status.error = none →
      ∃ n, 1 ≤ n ∧ s.hostWrite (s.params.base + 0x00C) 32 w = .next { s with
        reply := some .taken, latch := some { word := w, left := n },
        status := { s.status with done := false } }) ∧
    (¬(s.latch = none ∧ s.status.error = none) →
      s.hostWrite (s.params.base + 0x00C) 32 w = .next { s with
        reply := some .taken, status := { s.status with ovr := true } })

/-- R35, R281, R286: a STATUS write clears the flags whose bit is 1, ERRCODE with ERR, and keeps ERRINFO, BUSY and
everything else, whether or not the engine is BUSY; STATUS reads the flags at their bits, and ERRCODE at bits 11:8 with
the number of each error. -/
def Obligations.StatusWriteClearsTheNamedFlags : Prop :=
  ∀ (s : State) (w : Word),
    s.hostWrite (s.params.base + 0x008) 32 w = .next { s with
      reply := some .taken, status := s.status.cleared w } ∧
    (s.wordAt 0x008).getLsbD 0 = s.latch.isSome ∧ (s.wordAt 0x008).getLsbD 1 = s.status.done ∧
    (s.wordAt 0x008).getLsbD 2 = s.status.error.isSome ∧ (s.wordAt 0x008).getLsbD 3 = s.status.ovr ∧
    (s.wordAt 0x008).getLsbD 4 = s.status.wrap ∧ (s.wordAt 0x008).getLsbD 5 = s.status.busywr ∧
    (s.status.error = none → (s.wordAt 0x008) >>> 6 = 0) ∧
    ∀ p ∈ ([(.illegalOp, 1), (.rsvdField, 2), (.badBlk, 3), (.badEob, 5), (.badLevel, 6), (.badMode, 7)] :
        List (ErrorCode × Nat)),
      s.status.error = some p.1 → (s.wordAt 0x008) >>> 6 = BitVec.ofNat 32 (4 * p.2)

/-- R80, R282: while BUSY a STATUS write is performed, a CMD write is refused with OVR only (log entry 18), and every
other write changes nothing but BUSYWR. -/
def Obligations.WritesWhileBusyAreDropped : Prop :=
  ∀ (s : State) (addr off : Nat) (w : Word), s.latch.isSome = true → s.WordAt addr off →
    (off = 0x008 → s.hostWrite addr 32 w = .next { s with
      reply := some .taken, status := s.status.cleared w }) ∧
    (off = 0x00C → s.hostWrite addr 32 w = .next { s with
      reply := some .taken, status := { s.status with ovr := true } }) ∧
    (off ≠ 0x008 → off ≠ 0x00C → s.hostWrite addr 32 w = .next { s with
      reply := some .taken, status := { s.status with busywr := true } })

/-- R76, R77, R81: a read answers the word and has no side effect; while BUSY, a read of state the running command may
write answers some value (which state counts, and that the value is of the type of what stands there, is the model's
reading: log entry 6), and STATUS reads as it stands. -/
def Obligations.ReadsHaveNoSideEffect : Prop :=
  ∀ (s : State) (addr off : Nat), s.WordAt addr off →
    (s.latch = none → s.hostRead addr 32 = .next { s with reply := some (.value (s.wordAt off)) }) ∧
    ∀ c, s.latch = some c →
      (off = 0x008 → s.hostRead addr 32 = .next { s with reply := some (.value (s.wordAt off)) }) ∧
      (s.wordMayWrite c.word (locate off) = false →
        s.hostRead addr 32 = .next { s with reply := some (.value (s.wordAt off)) }) ∧
      (s.wordMayWrite c.word (locate off) = true →
        ∃ v, s.hostRead addr 32 = .next { s with reply := some (.value v), fresh := s.fresh + 1 } ∧
          (ByteElement off → v = (v.setWidth 8).setWidth 32) ∧
          (HalfElement off → v = (v.setWidth 16).signExtend 32) ∧
          (0x030 ≤ off ∧ off < 0x040 → v = (v.setWidth 9).setWidth 32) ∧
          (off = 0x040 → v = v &&& 0x1F1F#32))

/-- R81: what a host may read while BUSY as the state's value is state the running command does not change: whatever it
changes, but for STATUS, counts as what it may write. -/
def Obligations.ReadableWhileBusyIsUnchanged : Prop :=
  ∀ (s t : State) (w : Word) (loc : Loc), s.wordMayWrite w loc = false → loc ≠ .reg .status →
    s.runWord w = .next t → t.readLoc loc = s.readLoc loc

/-- R75: an access of another width or alignment is a bus error and changes no state. -/
def Obligations.BusErrorChangesNothing : Prop :=
  ∀ (s : State) (addr width : Nat) (w : Word), s.params.base ≤ addr → addr < s.params.base + 0x10000 →
    (width ≠ 32 ∨ (addr - s.params.base) % 4 ≠ 0) →
    s.hostRead addr width = .next { s with reply := some .busError } ∧
    s.hostWrite addr width w = .next { s with reply := some .busError }

/-- R71: element conversion. A write to an element of the idle engine stores the low 8, 16 or 32 bits; the element then
reads zero-extended, sign-extended or unchanged; every other word of the window, and so STATUS.WRAP, is as before.
R70: each word of the arrays is the element the commands read by its index; R45, R201, R203: the index of a level by
block and scan position, of a step, a token cost and a level-value cost. -/
def Obligations.ElementsReadBackAsConverted : Prop :=
  (∀ (s : State) (addr off : Nat) (v : Word), s.latch = none → s.WordAt addr off →
    (ByteElement off ∨ HalfElement off ∨ WordElement off) →
    ∃ t, s.hostWrite addr 32 v = .next t ∧ t.status = s.status ∧
      (ByteElement off → t.wordAt off = (v.setWidth 8).setWidth 32) ∧
      (HalfElement off → t.wordAt off = (v.setWidth 16).signExtend 32) ∧
      (WordElement off → t.wordAt off = v) ∧
      ∀ off', off' % 4 = 0 → off' ≠ off → t.wordAt off' = s.wordAt off') ∧
  ∀ s : State,
    (∀ j, j < 384 → s.wordAt (0x0400 + 4 * j) = (s.srcAt j).setWidth 32 ∧
      s.wordAt (0x0A00 + 4 * j) = (s.predAt j).setWidth 32) ∧
    (∀ j, j < 400 → s.wordAt (0x1000 + 4 * j) = (s.diffAt j).signExtend 32 ∧
      s.wordAt (0x2000 + 4 * j) = (s.coeffAt j).signExtend 32 ∧
      s.wordAt (0x3000 + 4 * j) = (s.qcoeffAt j).signExtend 32 ∧
      s.wordAt (0x4000 + 4 * j) = (s.dqcoeffAt j).signExtend 32) ∧
    (∀ b, b < 25 → s.wordAt (0x4800 + 4 * b) = (s.eobAt b).setWidth 32 ∧
      ∀ p ∈ ([0, 1, 4, 8, 5, 2, 3, 6, 9, 12, 13, 10, 7, 11, 14, 15] : List Nat).zipIdx,
        (s.wordAt (0x2000 + 4 * (16 * b + p.1))).toInt = s.coefScan b p.2 ∧
        (s.wordAt (0x3000 + 4 * (16 * b + p.1))).toInt = s.levelScan b p.2 ∧
        (s.wordAt (0x4000 + 4 * (16 * b + p.1))).toInt = s.dqScan b p.2) ∧
    (∀ (t : BitVec 2) (i : Nat), i < 16 → (s.wordAt (0x4900 + 4 * (16 * t.toNat + i))).toInt = s.deqAt t i) ∧
    (∀ (t : BitVec 2) (bd ctx : Nat), bd < 8 → ctx < 3 →
      ∀ p ∈ ([.zero, .one, .two, .three, .four, .cat1, .cat2, .cat3, .cat4, .cat5, .cat6, .eob] : List Token).zipIdx,
        (s.wordAt (0x5000 + 4 * (((8 * t.toNat + bd) * 3 + ctx) * 12 + p.2))).toInt = s.tcAt t bd ctx p.1) ∧
    ∀ v : Int, -2048 ≤ v → v ≤ 2047 → (s.wordAt (0x8000 + 4 * (v + 2048).toNat)).toInt = s.vcAt v

/-- R34, R37, R38, R40..R42, R72: a write to a register of the idle engine stores its fields (CTRL bit 31 apart);
reserved bits read 0; every other word of the window is as before. -/
def Obligations.RegistersStoreTheirFields : Prop :=
  ∀ (s : State) (v : Word), s.latch = none →
    ∀ p ∈ ([(0x004, 0xF#32), (0x010, 0x1F#32), (0x014, 0xFFFFFFFF#32), (0x018, 0xFFFFFFFF#32),
        (0x020, 0xFFFFFFFF#32), (0x024, 0xFFFFFFFF#32), (0x028, 0xFFFFFFFF#32), (0x02C, 0xFFFFFFFF#32),
        (0x030, 0x1FF#32), (0x034, 0x1FF#32), (0x038, 0x1FF#32), (0x03C, 0x1FF#32)] : List (Nat × Word)),
      (p.1 = 0x004 → v.getLsbD 31 = false) →
      ∃ t, s.hostWrite (s.params.base + p.1) 32 v = .next t ∧ t.wordAt p.1 = v &&& p.2 ∧
        ∀ off', off' % 4 = 0 → off' ≠ p.1 → t.wordAt off' = s.wordAt off'

/-- R33, R36, R39, R43, R44, R72: ID and VERSION read their constants, CMD and reserved offsets read 0, ERRINFO reads BLK
at bits 4:0 and POS at bits 12:8, and a write to ID, VERSION, ERRINFO or a reserved offset of the idle engine has no
effect. -/
def Obligations.ReadOnlyAndReservedWords : Prop :=
  ∀ (s : State) (off : Nat) (v : Word),
    s.wordAt 0x000 = 0x56503854#32 ∧ s.wordAt 0x01C = 1#32 ∧ s.wordAt 0x00C = 0 ∧
    s.wordAt 0x040 = 0#19 ++ s.errinfo.pos ++ 0#3 ++ s.errinfo.blk ∧
    (ReservedOffset off → s.wordAt off = 0) ∧
    (s.latch = none → off % 4 = 0 → (off = 0x000 ∨ off = 0x01C ∨ off = 0x040 ∨ ReservedOffset off) →
      s.hostWrite (s.params.base + off) 32 v = .next { s with reply := some .taken })

/-- R46 on the visible state, and the model's own fields: which commands write what. -/
def Obligations.CommandsWriteOnlyTheirState : Prop :=
  ∀ (i : Instr) (s t : State), exec i s = .next t →
    t.ctrl = s.ctrl ∧ t.mbcfg = s.mbcfg ∧ t.rdmult = s.rdmult ∧ t.rddiv = s.rddiv ∧ t.prm = s.prm ∧
    t.src = s.src ∧ t.pred = s.pred ∧ t.deq = s.deq ∧ t.tc = s.tc ∧ t.vc = s.vc ∧
    t.params = s.params ∧ t.host = s.host ∧ t.reply = s.reply ∧ t.epoch = s.epoch ∧ t.fresh = s.fresh ∧
    t.status.ovr = s.status.ovr ∧ t.status.busywr = s.status.busywr ∧
    (t.diff ≠ s.diff → isResidual i = true ∨ i = .buildDc ∨ (isLumaXform i = true ∧ s.mbcfg.mode = 0)) ∧
    (t.coeff ≠ s.coeff → writesCoeff i = true) ∧
    (t.qcoeff ≠ s.qcoeff → isOptimization i = true) ∧
    (t.dqcoeff ≠ s.dqcoeff → isOptimization i = true ∨ ∃ blk pt, i = .dqB blk pt) ∧
    (t.eob ≠ s.eob → isOptimization i = true) ∧
    (t.wctxAbove ≠ s.wctxAbove ∨ t.wctxLeft ≠ s.wctxLeft → isOptimization i = true ∨ i = .ctxSnap) ∧
    (t.ctxAbove ≠ s.ctxAbove ∨ t.ctxLeft ≠ s.ctxLeft →
      i = .ctxCommit ∨ (isPass i = true ∧ s.ctrl.ctxCommit = true)) ∧
    (t.errinfo ≠ s.errinfo → t.status.error.isSome = true)

/-- EVERY BYTE of the arrays' part of the window is unchanged but for the bytes the command stores to (R46, R74, R78).
`State.storesAt` says which bytes a command may store to, from its operands and MBCFG.MODE. -/
def Obligations.OtherBytesAreUnchanged : Prop :=
  ∀ (i : Instr) (s t : State) (off : Nat), i.WellFormed → exec i s = .next t → 0x400 ≤ off →
    ¬s.storesAt off i → t.windowByte off = s.windowByte off

/-! ### Reset (70_reset) -/

/-- R321: soft reset while IDLE, and its refusal while BUSY. -/
def Obligations.SoftResetSetsEveryRegister : Prop :=
  ∀ (s : State) (v : Word), v.getLsbD 31 = true →
    (s.latch = none → s.hostWrite (s.params.base + 0x004) 32 v = .next { s with
      reply := some .taken,
      ctrl := { optEn := false, ctxCommit := true, eobClamp := false, irqEn := false },
      status := { done := false, error := none, ovr := false, wrap := false, busywr := false },
      mbcfg := { mode := 0, intra := false, aboveValid := false, leftValid := false },
      rdmult := 0, rddiv := 0, prm := #v[4#32, 16#32, 2#32, 4#32],
      ctxAbove := 0, ctxLeft := 0, wctxAbove := 0, wctxLeft := 0, errinfo := { blk := 0, pos := 0 } }) ∧
    (s.latch.isSome = true → s.hostWrite (s.params.base + 0x004) 32 v = .next { s with
      reply := some .taken, status := { s.status with busywr := true } })

/-- R320, R322: a hardware reset, in a step in which the host moves (log entry 13), leaves the registers of R51, no
latched command, every array element unwritten, the interrupt output 0, and an engine that accepts a CMD write. -/
def Obligations.HardwareResetSetsEveryRegister : Prop :=
  ∀ (s t : State) (rest : List HostAction), s.HostTurn t → s.host = .hardReset :: rest →
    ∃ u, step s = .next u ∧
      u = { State.powerOn s.params (s.epoch + 1) with host := rest, reply := s.reply, fresh := s.fresh } ∧
      u.irq = false ∧
      ∀ v, ∃ n, 1 ≤ n ∧ u.hostWrite (s.params.base + 0x00C) 32 v = .next { u with
        reply := some .taken, latch := some { word := v, left := n } }

/-- R51, R323, R322: what reset leaves, as the host reads it, for every value of the OPEN parameters and every epoch of
unwritten elements; State.reset is the instance with the default parameters; and a gated optimization command after
reset completes as a no-op. -/
def Obligations.ResetLeavesTheListedValues : Prop :=
  State.reset = State.powerOn Params.default 0 ∧
  ∀ (p : Params) (e : Nat) (s : State), s = State.powerOn p e →
    s.wordAt 0x000 = 0x56503854#32 ∧ s.wordAt 0x004 = 2#32 ∧ s.wordAt 0x008 = 0 ∧ s.wordAt 0x010 = 0 ∧
    s.wordAt 0x014 = 0 ∧ s.wordAt 0x018 = 0 ∧ s.wordAt 0x01C = 1#32 ∧ s.wordAt 0x020 = 4#32 ∧
    s.wordAt 0x024 = 16#32 ∧ s.wordAt 0x028 = 2#32 ∧ s.wordAt 0x02C = 4#32 ∧ s.wordAt 0x030 = 0 ∧
    s.wordAt 0x034 = 0 ∧ s.wordAt 0x038 = 0 ∧ s.wordAt 0x03C = 0 ∧ s.wordAt 0x040 = 0 ∧
    s.latch = none ∧ s.irq = false ∧
    (∀ j, s.srcAt j = (Config.unwritten e (0x400 + 4 * j)).setWidth 8 ∧
      s.predAt j = (Config.unwritten e (0xA00 + 4 * j)).setWidth 8 ∧
      s.diffAt j = (Config.unwritten e (0x1000 + 4 * j)).setWidth 16 ∧
      s.coeffAt j = (Config.unwritten e (0x2000 + 4 * j)).setWidth 16 ∧
      s.qcoeffAt j = (Config.unwritten e (0x3000 + 4 * j)).setWidth 16 ∧
      s.dqcoeffAt j = (Config.unwritten e (0x4000 + 4 * j)).setWidth 16 ∧
      s.eobAt j = (Config.unwritten e (0x4800 + 4 * j)).setWidth 8 ∧
      s.deqElem j = (Config.unwritten e (0x4900 + 4 * j)).setWidth 16 ∧
      s.tcElem j = Config.unwritten e (0x5000 + 4 * j) ∧
      s.vcElem j = Config.unwritten e (0x8000 + 4 * j)) ∧
    (∀ blk pt, blk.toNat ≤ 24 → exec (.optB blk pt true) s = .next s.ends) ∧
    exec (.optMb true) s = .next s.ends ∧ exec (.optMby true) s = .next s.ends ∧
    exec (.optMbuv true) s = .next s.ends

/-! ### Invariants and whole-machine rules -/

/-- R32, R35, R282, R284: every step keeps the BUSY handshake. -/
def Obligations.StepKeepsTheHandshake : Prop :=
  ∀ s t : State, s.Handshake → step s = .next t → t.Handshake

/-- Every step keeps every array in canonical form with its indices inside the array (R45; the form is the model's:
log entry 5), so no command and no host access writes outside an array. -/
def Obligations.StepKeepsTheArraysCanonical : Prop :=
  ∀ s t : State, s.ArraysWf → step s = .next t → t.ArraysWf

/-- Both invariants hold right after reset, whatever the parameters. -/
def Obligations.ResetSatisfiesTheInvariants : Prop :=
  ∀ (p : Params) (e : Nat), (State.powerOn p e).Handshake ∧ (State.powerOn p e).ArraysWf ∧
    State.reset.Handshake ∧ State.reset.ArraysWf

/-- R280, R287 (and 00_scope R8 for the parameters; log entries 2 and 8): a step answers a next state with the same
OPEN parameters, or the host accessed an address outside the window. It never refuses. -/
def Obligations.StepStopsOnlyOutsideTheWindow : Prop :=
  ∀ s : State, (∃ t, step s = .next t ∧ t.params = s.params) ∨
    ∃ addr, step s = .fault (.outsideWindow addr) ∧
      (addr < s.params.base ∨ s.params.base + 0x10000 ≤ addr)

/-- R32, R280, R284: every command ends: BUSY falls and either DONE is set and ERR is as before, or ERR is set and DONE
is 0. -/
def Obligations.EveryCommandEnds : Prop :=
  ∀ (i : Instr) (s : State), ∃ t, exec i s = .next t ∧ t.latch = none ∧
    ((t.status.done = true ∧ t.status.error = s.status.error) ∨
      (t.status.done = false ∧ t.status.error.isSome = true))

/-- R285: a command that ends in error has changed nothing but STATUS (not WRAP) and ERRINFO. -/
def Obligations.ErrorsArePrecise : Prop :=
  ∀ (i : Instr) (s t : State) (c : ErrorCode), s.status.error = none → exec i s = .next t →
    t.status.error = some c → t = s.failsWith c t.errinfo.blk t.errinfo.pos

/-- R290: no command clears WRAP, and the SUB commands, BUILD_DC, NOP and the context commands leave it as it is. -/
def Obligations.WrapIsSticky : Prop :=
  ∀ (i : Instr) (s t : State), exec i s = .next t →
    (s.status.wrap = true → t.status.wrap = true) ∧
    (isResidual i = true ∨ i = .buildDc ∨ i = .nop ∨ i = .ctxSnap ∨ i = .ctxCommit →
      t.status.wrap = s.status.wrap)

/-- R292: the interrupt output is a level: it is IRQ_EN and (DONE or ERR); it is IRQ_EN when a command has ended; it
falls with the bits that caused it, with IRQ_EN, and with the next accepted command. -/
def Obligations.InterruptIsALevel : Prop :=
  ∀ s : State,
    (s.irq = true ↔ s.ctrl.irqEn = true ∧ (s.status.done = true ∨ s.status.error.isSome = true)) ∧
    (∀ i t, exec i s = .next t → t.irq = s.ctrl.irqEn) ∧
    (∀ v t, s.hostWrite (s.params.base + 0x008) 32 v = .next t →
      (s.status.done = true → v.getLsbD 1 = true) → (s.status.error.isSome = true → v.getLsbD 2 = true) →
      t.irq = false) ∧
    (∀ v t, s.latch = none → s.hostWrite (s.params.base + 0x004) 32 v = .next t → v.getLsbD 3 = false →
      v.getLsbD 31 = false → t.irq = false) ∧
    ∀ v t, s.latch = none → s.status.error = none →
      s.hostWrite (s.params.base + 0x00C) 32 v = .next t → t.irq = false

/-! ### Checks of the optimization and transform commands (60_exceptions R283) -/

/-- R250: with G = 1 a closed gate completes the command and changes nothing else; an open gate lets it run as with
G = 0. -/
def Obligations.GateDecidesGatedCommands : Prop :=
  ∀ s : State,
    (¬(s.ctrl.optEn = true ∧ s.params.rddivTrivial.toInt < s.rddiv.toInt) →
      (∀ blk pt, blk.toNat ≤ 24 → exec (.optB blk pt true) s = .next s.ends) ∧
      exec (.optMb true) s = .next s.ends ∧ exec (.optMby true) s = .next s.ends ∧
      exec (.optMbuv true) s = .next s.ends) ∧
    (s.ctrl.optEn = true → s.params.rddivTrivial.toInt < s.rddiv.toInt →
      (∀ blk pt, exec (.optB blk pt true) s = exec (.optB blk pt false) s) ∧
      exec (.optMb true) s = exec (.optMb false) s ∧ exec (.optMby true) s = exec (.optMby false) s ∧
      exec (.optMbuv true) s = exec (.optMbuv false) s)

/-- R255, R256 (the frame-boundary guard, before the mode and the blocks): with a neighbour missing the partial passes
complete and change nothing else. -/
def Obligations.MissingNeighbourSkipsPartialPasses : Prop :=
  ∀ (s : State) (g : Bool), s.mbcfg.aboveValid = false ∨ s.mbcfg.leftValid = false →
    exec (.optMby g) s = .next s.ends ∧ exec (.optMbuv g) s = .next s.ends

/-- R37, R281, R283: MODE = 3 ends in error BAD_MODE the commands that read MODE, once gate and guard let them on. -/
def Obligations.ReservedModeEndsInError : Prop :=
  ∀ (s : State) (g : Bool), s.mbcfg.mode = 3 →
    exec .xformMby s = .next (s.failsWith .badMode 0 0) ∧
    exec .xformMb s = .next (s.failsWith .badMode 0 0) ∧
    (s.GateAllows g → exec (.optMb g) s = .next (s.failsWith .badMode 0 0)) ∧
    (s.GateAllows g → s.NeighboursValid → exec (.optMby g) s = .next (s.failsWith .badMode 0 0))

/-- R219 for OPT_B: an EOB above 16 ends in BAD_EOB; otherwise the highest position of the optimized range whose level
is outside −2048..2047 ends in BAD_LEVEL. -/
def Obligations.OptBlockCheckEndsInError : Prop :=
  ∀ (s : State) (blk : BitVec 5) (pt : BitVec 2) (g : Bool), blk.toNat ≤ 24 → s.GateAllows g →
    (16 < (s.eobAt blk.toNat).toNat →
      exec (.optB blk pt g) s = .next (s.failsWith .badEob blk 0)) ∧
    ∀ i : Nat, (s.eobAt blk.toNat).toNat ≤ 16 → firstPos pt ≤ i → i < (s.eobAt blk.toNat).toNat →
      (s.levelScan blk.toNat i < -2048 ∨ 2047 < s.levelScan blk.toNat i) →
      (∀ k, i < k → k < (s.eobAt blk.toNat).toNat →
        -2048 ≤ s.levelScan blk.toNat k ∧ s.levelScan blk.toNat k ≤ 2047) →
      exec (.optB blk pt g) s = .next (s.failsWith .badLevel blk (BitVec.ofNat 5 i))

/-- R251, R254, R255, R256, R283: a pass checks every block of its list, in list order, before it writes anything: the
first block that fails decides the error, whatever the later blocks hold. -/
def Obligations.FirstFailingBlockEndsThePass : Prop :=
  ∀ (s : State) (g : Bool) (pre post : List (Nat × BitVec 2)) (b : Nat) (pt : BitVec 2) (c : ErrorCode)
    (pos : Nat), s.GateAllows g → (∀ q ∈ pre, s.BlockReady q.1 q.2) → s.BlockFails b pt c pos →
    (s.mbcfg.mode ≠ 3 → s.listMb = pre ++ (b, pt) :: post →
      exec (.optMb g) s = .next (s.failsWith c (BitVec.ofNat 5 b) (BitVec.ofNat 5 pos))) ∧
    (s.NeighboursValid → s.mbcfg.mode ≠ 3 → s.listY = pre ++ (b, pt) :: post →
      exec (.optMby g) s = .next (s.failsWith c (BitVec.ofNat 5 b) (BitVec.ofNat 5 pos))) ∧
    (s.NeighboursValid → listUv = pre ++ (b, pt) :: post →
      exec (.optMbuv g) s = .next (s.failsWith c (BitVec.ofNat 5 b) (BitVec.ofNat 5 pos)))

/-! ### Residuals (40_residual) -/

/-- R130, R131, R132: SUB_B completes; it writes the 16 differences of its block and leaves every other element and
register as it was. -/
def Obligations.SubBlockWritesItsResidual : Prop :=
  ∀ (s : State) (blk : BitVec 5), blk.toNat ≤ 23 →
    ∃ t, exec (.subB blk) s = .next t ∧ t = { s.ends with diff := t.diff } ∧
      (∀ r c, r < 4 → c < 4 →
        t.residualAt blk.toNat r c =
          ((s.srcAt (blockIndex blk.toNat r c)).toNat : Int) -
            ((s.predAt (blockIndex blk.toNat r c)).toNat : Int)) ∧
      ∀ j, (∀ r c, r < 4 → c < 4 → j ≠ blockIndex blk.toNat r c) → t.diffAt j = s.diffAt j

/-- R131, R133, R134, R135: the plane commands complete; each writes the differences of its index range and leaves
every other element and register as it was. -/
def Obligations.SubPlanesWriteTheirResiduals : Prop :=
  ∀ (s : State) (i : Instr) (lo hi : Nat),
    (i = .subMby ∧ lo = 0 ∧ hi = 256) ∨ (i = .subMbuv ∧ lo = 256 ∧ hi = 384) ∨
      (i = .subMb ∧ lo = 0 ∧ hi = 384) →
    ∃ t, exec i s = .next t ∧ t = { s.ends with diff := t.diff } ∧
      (∀ j, lo ≤ j → j < hi →
        (t.diffAt j).toInt = ((s.srcAt j).toNat : Int) - ((s.predAt j).toNat : Int)) ∧
      ∀ j, j < lo ∨ hi ≤ j → t.diffAt j = s.diffAt j

/-- R133, R134, R135 (corner cases): the plane commands equal SUB_B of their blocks in any order, and SUB_MB equals
SUB_MBY followed by SUB_MBUV. -/
def Obligations.PlaneResidualEqualsItsBlocks : Prop :=
  ∀ (s : State) (ys uvs : List (BitVec 5)),
    ys.Perm ((List.range 16).map (BitVec.ofNat 5)) → uvs.Perm ((List.range' 16 8).map (BitVec.ofNat 5)) →
    (∃ t u, exec .subMby s = .next t ∧ execAll (ys.map .subB) s = .next u ∧
      u = { t with diff := u.diff } ∧ ∀ j, u.diffAt j = t.diffAt j) ∧
    (∃ t u, exec .subMbuv s = .next t ∧ execAll (uvs.map .subB) s = .next u ∧
      u = { t with diff := u.diff } ∧ ∀ j, u.diffAt j = t.diffAt j) ∧
    exec .subMb s = execAll [.subMby, .subMbuv] s

/-! ### Transforms (41_transform) -/

/-- R150..R153: FDCT4X4 completes on every input; each coefficient is the second pass of the first pass's stored
values; WRAP is set exactly when a first-pass value does not fit 16 bits; nothing else changes. -/
def Obligations.Fdct4x4WritesTheTransform : Prop :=
  ∀ (s : State) (blk : BitVec 5), blk.toNat ≤ 23 →
    ∃ t, exec (.fdct4x4 blk) s = .next t ∧
      t = { s with
        coeff := t.coeff, latch := none, status := { s.status with done := true, wrap := t.status.wrap } } ∧
      (∀ r c, r < 4 → c < 4 →
        (t.coeffAt (blk.toNat * 16 + (4 * r + c))).toInt =
          columnsOf fdctColumnExact (rowsOf fdctRowStored (s.residualAt blk.toNat)) r c) ∧
      (t.status.wrap = true ↔ s.status.wrap = true ∨
        ∃ r c, r < 4 ∧ c < 4 ∧ ¬Fits 16 (rowsOf fdctRowExact (s.residualAt blk.toNat) r c)) ∧
      ∀ j, j / 16 ≠ blk.toNat → t.coeffAt j = s.coeffAt j

/-- R150 and the corner cases of R153: on residuals in −255..255 nothing wraps and both passes are exact; a constant
input v gives 8v, 1, 0, …, 0. -/
def Obligations.FdctOfResidualsNeverWraps : Prop :=
  ∀ (s : State) (blk : BitVec 5), blk.toNat ≤ 23 →
    (∀ r c, r < 4 → c < 4 → -255 ≤ s.residualAt blk.toNat r c ∧ s.residualAt blk.toNat r c ≤ 255) →
    ∃ t, exec (.fdct4x4 blk) s = .next t ∧ t.status.wrap = s.status.wrap ∧
      (∀ r c, r < 4 → c < 4 →
        (t.coeffAt (blk.toNat * 16 + (4 * r + c))).toInt =
          columnsOf fdctColumnExact (rowsOf fdctRowExact (s.residualAt blk.toNat)) r c) ∧
      ∀ v, (∀ r c, r < 4 → c < 4 → s.residualAt blk.toNat r c = v) →
        ∀ k, k < 16 → (t.coeffAt (blk.toNat * 16 + k)).toInt = if k = 0 then 8 * v else if k = 1 then 1 else 0

/-- R154: FDCT8X4 completes and equals FDCT4X4 of its block followed by FDCT4X4 of the next. -/
def Obligations.Fdct8x4EqualsTwoFdct4x4 : Prop :=
  ∀ (s : State) (blk : BitVec 5), blk.toNat ≤ 22 → blk.toNat % 2 = 0 →
    ∃ t, exec (.fdct8x4 blk) s = .next t ∧ execAll [.fdct4x4 blk, .fdct4x4 (blk + 1)] s = .next t

/-- R157: BUILD_DC completes, whatever the mode; DIFF[384 + i] gets the DC of luma block i; nothing else changes. -/
def Obligations.BuildDcCollectsTheLumaDcs : Prop :=
  ∀ s : State, ∃ t, exec .buildDc s = .next t ∧ t = { s.ends with diff := t.diff } ∧
    (∀ i, i < 16 → t.diffAt (384 + i) = s.coeffAt (16 * i)) ∧
    ∀ j, j < 384 ∨ 400 ≤ j → t.diffAt j = s.diffAt j

/-- R155, R156, R158: WALSH4X4 completes on every input; each coefficient of block 24 is the second pass of the
first pass's values truncated to 16 bits; WRAP is set exactly when a truncation changed one; nothing else changes. -/
def Obligations.WalshWritesTheTransform : Prop :=
  ∀ s : State, ∃ t, exec .walsh4x4 s = .next t ∧
    t = { s with
      coeff := t.coeff, latch := none, status := { s.status with done := true, wrap := t.status.wrap } } ∧
    (∀ r c, r < 4 → c < 4 →
      (t.coeffAt (384 + (4 * r + c))).toInt =
        columnsOf whtColumnExact
          (rowsOf (fun a b c d k => narrow 16 (whtRowExact a b c d k))
            fun r c => (s.diffAt (384 + (4 * r + c))).toInt) r c) ∧
    (t.status.wrap = true ↔ s.status.wrap = true ∨
      ∃ r c, r < 4 ∧ c < 4 ∧
        ¬Fits 16 (rowsOf whtRowExact (fun r c => (s.diffAt (384 + (4 * r + c))).toInt) r c)) ∧
    ∀ j, j / 16 ≠ 24 → t.coeffAt j = s.coeffAt j

/-- R159, R160, R161: the macroblock transforms complete and equal their steps as single commands, in the order the
rules write them. -/
def Obligations.MacroblockTransformsAreTheirSteps : Prop :=
  ∀ s : State,
    (s.mbcfg.mode ≠ 3 → ∃ t, exec .xformMby s = .next t ∧
      execAll ([.fdct8x4 0, .fdct8x4 2, .fdct8x4 4, .fdct8x4 6, .fdct8x4 8, .fdct8x4 10, .fdct8x4 12,
          .fdct8x4 14] ++ (if s.mbcfg.mode = 0 then [.buildDc, .walsh4x4] else [])) s = .next t) ∧
    (∃ t, exec .xformMbuv s = .next t ∧
      execAll [.fdct8x4 16, .fdct8x4 18, .fdct8x4 20, .fdct8x4 22] s = .next t) ∧
    (s.mbcfg.mode ≠ 3 → ∃ t, exec .xformMb s = .next t ∧
      execAll ([.fdct8x4 0, .fdct8x4 2, .fdct8x4 4, .fdct8x4 6, .fdct8x4 8, .fdct8x4 10, .fdct8x4 12,
          .fdct8x4 14] ++ (if s.mbcfg.mode = 0 then [.buildDc] else []) ++
          [.fdct8x4 16, .fdct8x4 18, .fdct8x4 20, .fdct8x4 22] ++
          (if s.mbcfg.mode = 0 then [.walsh4x4] else [])) s = .next t)

/-- R161 (corner case): XFORM_MB equals XFORM_MBY followed by XFORM_MBUV: the same elements, registers and flags. -/
def Obligations.XformMbEqualsLumaThenChroma : Prop :=
  ∀ s : State, s.mbcfg.mode ≠ 3 →
    ∃ t u, exec .xformMb s = .next t ∧ execAll [.xformMby, .xformMbuv] s = .next u ∧
      u = { t with coeff := u.coeff, diff := u.diff } ∧
      ∀ j, u.coeffAt j = t.coeffAt j ∧ u.diffAt j = t.diffAt j

/-! ### Dequantizer (42_quant_dequant) -/

/-- R183, R185: DQ_B completes; each of the 16 dequantized coefficients is level times step, truncated to 16 bits; WRAP
is set exactly when a truncation changed a product; nothing else changes. -/
def Obligations.DequantizeWritesTheProducts : Prop :=
  ∀ (s : State) (blk : BitVec 5) (pt : BitVec 2), blk.toNat ≤ 24 →
    ∃ t, exec (.dqB blk pt) s = .next t ∧
      t = { s with
        dqcoeff := t.dqcoeff, latch := none,
        status := { s.status with done := true, wrap := t.status.wrap } } ∧
      (∀ i, i < 16 → t.dqScan blk.toNat i = narrow 16 (s.levelScan blk.toNat i * s.deqAt pt i)) ∧
      (t.status.wrap = true ↔ s.status.wrap = true ∨
        ∃ i, i < 16 ∧ ¬Fits 16 (s.levelScan blk.toNat i * s.deqAt pt i)) ∧
      ∀ j, j / 16 ≠ blk.toNat → t.dqcoeffAt j = s.dqcoeffAt j

/-! ### The trellis optimizer (43_trellis) -/

/-- R205, R215, R217, R218: OPT_B completes; outside the positions i0..E−1 that held a nonzero level, outside EOB[b] and
outside the two context flags, which get [EOB ≠ i0], nothing changes but WRAP and DONE. -/
def Obligations.OptBlockFrame : Prop :=
  ∀ (s : State) (blk : BitVec 5) (pt : BitVec 2) (g : Bool), blk.toNat ≤ 24 → s.GateAllows g →
    s.BlockReady blk.toNat pt →
    ∃ t, exec (.optB blk pt g) s = .next t ∧
      t = { s with
        qcoeff := t.qcoeff, dqcoeff := t.dqcoeff, eob := t.eob, wctxAbove := t.wctxAbove,
        wctxLeft := t.wctxLeft, latch := none,
        status := { s.status with done := true, wrap := t.status.wrap } } ∧
      (∀ j, j / 16 ≠ blk.toNat → t.qcoeffAt j = s.qcoeffAt j ∧ t.dqcoeffAt j = s.dqcoeffAt j) ∧
      (∀ i, i < 16 →
        i < firstPos pt ∨ (s.eobAt blk.toNat).toNat ≤ i ∨ s.levelScan blk.toNat i = 0 →
        t.levelScan blk.toNat i = s.levelScan blk.toNat i ∧ t.dqScan blk.toNat i = s.dqScan blk.toNat i) ∧
      (∀ b, b ≠ blk.toNat → t.eobAt b = s.eobAt b) ∧
      (∀ k, k < 9 → t.wctxAbove.getLsbD k =
        if k = aboveIndex blk.toNat then decide ((t.eobAt blk.toNat).toNat ≠ firstPos pt)
        else s.wctxAbove.getLsbD k) ∧
      ∀ k, k < 9 → t.wctxLeft.getLsbD k =
        if k = leftIndex blk.toNat then decide ((t.eobAt blk.toNat).toNat ≠ firstPos pt)
        else s.wctxLeft.getLsbD k

/-- R210, R215, R221: at every position of the optimized range that held a nonzero level x the new level is x, or x one
step closer to zero where rounding is eligible, and the new dequantized value is its product with the step; the new EOB
is one past the last nonzero level of the range, or i0. -/
def Obligations.OptBlockMovesLevelsTowardZero : Prop :=
  ∀ (s : State) (blk : BitVec 5) (pt : BitVec 2) (g : Bool), blk.toNat ≤ 24 → s.GateAllows g →
    s.BlockReady blk.toNat pt → firstPos pt ≤ (s.eobAt blk.toNat).toNat →
    ∃ t, exec (.optB blk pt g) s = .next t ∧
      (∀ i, firstPos pt ≤ i → i < (s.eobAt blk.toNat).toNat → s.levelScan blk.toNat i ≠ 0 →
        (t.levelScan blk.toNat i = s.levelScan blk.toNat i ∨
          (((s.levelScan blk.toNat i).natAbs : Int) * s.deqAt pt i > (s.coefScan blk.toNat i).natAbs ∧
            ((s.levelScan blk.toNat i).natAbs : Int) * s.deqAt pt i <
              (s.coefScan blk.toNat i).natAbs + s.deqAt pt i ∧
            t.levelScan blk.toNat i =
              if s.levelScan blk.toNat i < 0 then s.levelScan blk.toNat i + 1
              else s.levelScan blk.toNat i - 1)) ∧
        t.dqScan blk.toNat i = narrow 16 (t.levelScan blk.toNat i * s.deqAt pt i)) ∧
      (∀ i, (t.eobAt blk.toNat).toNat ≤ i → i < (s.eobAt blk.toNat).toNat → t.levelScan blk.toNat i = 0) ∧
      ((t.eobAt blk.toNat).toNat = firstPos pt ∨
        (firstPos pt < (t.eobAt blk.toNat).toNat ∧
          (t.eobAt blk.toNat).toNat ≤ (s.eobAt blk.toNat).toNat ∧
          t.levelScan blk.toNat ((t.eobAt blk.toNat).toNat - 1) ≠ 0))

/-- R220: with EOB_CLAMP = 0 the EOB never grows; with EOB_CLAMP = 1 the only exception is E = 0 with plane type 0,
which ends with EOB 1. -/
def Obligations.EobNeverGrows : Prop :=
  ∀ (s : State) (blk : BitVec 5) (pt : BitVec 2) (g : Bool), blk.toNat ≤ 24 → s.GateAllows g →
    s.BlockReady blk.toNat pt →
    ∃ t, exec (.optB blk pt g) s = .next t ∧
      (s.ctrl.eobClamp = false → (t.eobAt blk.toNat).toNat ≤ (s.eobAt blk.toNat).toNat) ∧
      (s.ctrl.eobClamp = true →
        if (s.eobAt blk.toNat).toNat = 0 ∧ pt = 0 then (t.eobAt blk.toNat).toNat = 1
        else (t.eobAt blk.toNat).toNat ≤ (s.eobAt blk.toNat).toNat)

/-- R184: the dequantization invariant survives every optimization. -/
def Obligations.OptimizationKeepsTheDequantizationInvariant : Prop :=
  ∀ (s : State) (blk : BitVec 5) (pt : BitVec 2) (g : Bool), blk.toNat ≤ 24 → s.GateAllows g →
    s.BlockReady blk.toNat pt →
    (∀ i, i < (s.eobAt blk.toNat).toNat →
      s.dqScan blk.toNat i = narrow 16 (s.levelScan blk.toNat i * s.deqAt pt i)) →
    ∃ t, exec (.optB blk pt g) s = .next t ∧
      ∀ i, firstPos pt ≤ i → i < (t.eobAt blk.toNat).toNat →
        t.dqScan blk.toNat i = narrow 16 (t.levelScan blk.toNat i * t.deqAt pt i)

/-- R216, R223: no level and no dequantized value is written when E ≤ i0. With E = i0 the EOB keeps its value and the
flags become 0. With E = 0 and plane type 0 the EOB stays 0 and the flags become 1, or with EOB_CLAMP = 1 the EOB
becomes 1 and the flags 0. -/
def Obligations.EmptyBlockIsATrivialPass : Prop :=
  ∀ (s : State) (blk : BitVec 5) (pt : BitVec 2) (g : Bool), blk.toNat ≤ 24 → s.GateAllows g →
    (s.eobAt blk.toNat).toNat ≤ firstPos pt →
    ∃ t, exec (.optB blk pt g) s = .next t ∧ t.qcoeff = s.qcoeff ∧ t.dqcoeff = s.dqcoeff ∧
      ((s.eobAt blk.toNat).toNat = firstPos pt →
        t.eobAt blk.toNat = s.eobAt blk.toNat ∧ t.wctxAbove.getLsbD (aboveIndex blk.toNat) = false ∧
          t.wctxLeft.getLsbD (leftIndex blk.toNat) = false) ∧
      ((s.eobAt blk.toNat).toNat < firstPos pt → s.ctrl.eobClamp = false →
        t.eob = s.eob ∧ t.wctxAbove.getLsbD (aboveIndex blk.toNat) = true ∧
          t.wctxLeft.getLsbD (leftIndex blk.toNat) = true) ∧
      ((s.eobAt blk.toNat).toNat < firstPos pt → s.ctrl.eobClamp = true →
        t.eobAt blk.toNat = 1#8 ∧ t.wctxAbove.getLsbD (aboveIndex blk.toNat) = false ∧
          t.wctxLeft.getLsbD (leftIndex blk.toNat) = false)

/-- R208: the comparison every choice of the optimizer is made with: the lower cost wins, on equal costs the lower
remainder, on equal remainders state 0. -/
def Obligations.PickComparesCostThenRemainder : Prop :=
  ∀ (p : RdParams) (r0 e0 r1 e1 : Int) (w : Bool),
    ((pick p r0 e0 r1 e1).run w).1 = true ↔ SecondWins p.rdm p.rdd r0 e0 r1 e1

/-- R206..R215 on a block with one nonzero level in its optimized range, at any position n, for every plane type and EOB:
the new level, dequantized value and EOB, from the two candidate paths' rates and errors. The EOB after the level is
costed below E = 16 (R209); the zero positions below it are costed in context 0, the one at n − 1 with the level's token
and the others with ZERO (R212); the head token is costed in band BAND[i0] and the context of the two neighbour flags
(R214); the level may be rounded only if eligible (R210), and one rounded to zero leaves an end of block for which only
the head pays (R211, R212). -/
def Obligations.SingleLevelDecision : Prop :=
  ∀ (s : State) (blk : BitVec 5) (pt : BitVec 2) (g : Bool) (b n i0 e ctx : Nat)
    (x x1 c st d total0 err0 total1 err1 : Int) (path : Int → Int),
    blk.toNat ≤ 24 → s.GateAllows g → s.BlockReady blk.toNat pt → b = blk.toNat →
    i0 = (if pt = 0 then 1 else 0) → e = (s.eobAt b).toNat → i0 ≤ n → n < e → x = s.levelScan b n → x ≠ 0 →
    (∀ i, i0 ≤ i → i < e → i ≠ n → s.levelScan b i = 0) →
    c = s.coefScan b n → st = s.deqAt pt n → d = s.dqScan b n →
    x1 = (if (x.natAbs : Int) * st > c.natAbs ∧ (x.natAbs : Int) * st < c.natAbs + st then
      (if x < 0 then x + 1 else x - 1) else x) →
    ctx = (s.wctxAbove.getLsbD (aboveIndex b)).toNat + (s.wctxLeft.getLsbD (leftIndex b)).toNat →
    (∀ v, path v = s.vcAt v + (if e < 16 then s.tcAt pt (band (n + 1)) (pclass (tokenOf v)) .eob else 0) +
      (if n = i0 then s.tcAt pt (band i0) ctx (tokenOf v)
        else s.tcAt pt (band n) 0 (tokenOf v) +
          ((List.range' (i0 + 1) (n - 1 - i0)).map fun j => s.tcAt pt (band j) 0 .zero).sum +
          s.tcAt pt (band i0) ctx .zero)) →
    total0 = narrow 32 (path x) → err0 = narrow 32 ((d - c) * (d - c)) →
    total1 = (if x1 = 0 then s.tcAt pt (band i0) ctx .eob else narrow 32 (path x1)) →
    err1 = (if x1 = x then err0 else
      narrow 32 ((d - c - (if x < 0 then -st else st)) * (d - c - (if x < 0 then -st else st)))) →
    ∃ t, exec (.optB blk pt g) s = .next t ∧
      (t.levelScan b n =
        if SecondWins (s.rdmValue pt) s.rddiv.toInt total0 err0 total1 err1 then x1 else x) ∧
      t.dqScan b n = narrow 16 (t.levelScan b n * st) ∧
      (t.eobAt b).toNat = if t.levelScan b n = 0 then i0 else n + 1

/-! ### Orchestration (44_orchestration) -/

/-- R252..R256: a pass whose gate, guard, mode and blocks let it run completes, and equals CTX_SNAP, OPT_B of each block
of its list in the list's order, and CTX_COMMIT if CTRL.CTX_COMMIT is 1. OPT_MB reads neither neighbour bit and OPT_MBUV
does not read MODE. -/
def Obligations.PassesEqualTheirBlocksInOrder : Prop :=
  ∀ (s : State) (g : Bool) (luma chroma second : List (Nat × BitVec 2)) (last : List Instr)
    (run : List (Nat × BitVec 2) → List Instr),
    s.GateAllows g →
    luma = (List.range 16).map (fun b => (b, if s.mbcfg.mode = 0 then 0#2 else 3#2)) →
    chroma = (List.range' 16 8).map (fun b => (b, 2#2)) →
    second = (if s.mbcfg.mode = 0 then [(24, 1#2)] else []) →
    last = (if s.ctrl.ctxCommit then [.ctxCommit] else []) →
    (∀ list, run list = [.ctxSnap] ++ list.map (fun bt => .optB (BitVec.ofNat 5 bt.1) bt.2 false) ++ last) →
    (s.mbcfg.mode ≠ 3 → (∀ bt ∈ luma ++ chroma ++ second, s.BlockReady bt.1 bt.2) →
      ∃ t, exec (.optMb g) s = .next t ∧ execAll (run (luma ++ chroma ++ second)) s = .next t) ∧
    (s.NeighboursValid → s.mbcfg.mode ≠ 3 → (∀ bt ∈ luma ++ second, s.BlockReady bt.1 bt.2) →
      ∃ t, exec (.optMby g) s = .next t ∧ execAll (run (luma ++ second)) s = .next t) ∧
    (s.NeighboursValid → (∀ bt ∈ chroma, s.BlockReady bt.1 bt.2) →
      ∃ t, exec (.optMbuv g) s = .next t ∧ execAll (run chroma) s = .next t)

/-- R253, R257, R258, R259: CTX_SNAP, CTX_COMMIT (which does not read CTRL.CTX_COMMIT) and NOP complete and change
nothing else. -/
def Obligations.ContextCommandsAndNop : Prop :=
  ∀ s : State,
    exec .ctxSnap s = .next { s.ends with wctxAbove := s.ctxAbove, wctxLeft := s.ctxLeft } ∧
    exec .ctxCommit s = .next { s.ends with ctxAbove := s.wctxAbove, ctxLeft := s.wctxLeft } ∧
    exec .nop s = .next s.ends

/-- R253, R255, R256 (corner cases, with R47): after a committed luma pass the chroma entries 4..7 of the context are the
canonical ones, and after a committed chroma pass the luma and block-24 entries are. -/
def Obligations.PassesKeepTheOtherPlanesContext : Prop :=
  ∀ (s t : State) (g : Bool) (k : Nat), k < 9 → s.ctrl.ctxCommit = true →
    ((exec (.optMby g) s = .next t ∧ 4 ≤ k ∧ k < 8) ∨ (exec (.optMbuv g) s = .next t ∧ (k < 4 ∨ k = 8))) →
    t.ctxAbove.getLsbD k = s.ctxAbove.getLsbD k ∧ t.ctxLeft.getLsbD k = s.ctxLeft.getLsbD k

/-! ### The trellis as a whole (43_trellis) -/

/-- R206..R215: OPT_B leaves what the rules' own trellis gives, for every block with E ≥ i0: the node array, the decision
masks and the head position as the rules write them (`State.rulePath`), with the node of a kept level (R209), of a level
that may be rounded (R210, R211) and of a zero position (R212) at every stage, the head comparison (R214) and the replay
through the masks (R215). The levels and dequantized values of the positions of the replay are the replay's, all others
are as before, and the EOB is one past the last nonzero level of the replay, or i0. -/
def Obligations.OptBlockReplaysTheRulesTrellis : Prop :=
  ∀ (s : State) (blk : BitVec 5) (pt : BitVec 2) (g : Bool) (b : Nat),
    blk.toNat ≤ 24 → s.GateAllows g → s.BlockReady blk.toNat pt → b = blk.toNat →
    firstPos pt ≤ (s.eobAt b).toNat →
    ∃ t, exec (.optB blk pt g) s = .next t ∧
      (∀ jx ∈ s.rulePath b pt, jx.1 < 16 ∧
        t.levelScan b jx.1 = jx.2 ∧ t.dqScan b jx.1 = narrow 16 (jx.2 * s.deqAt pt jx.1)) ∧
      (∀ i, i < 16 → (∀ jx ∈ s.rulePath b pt, jx.1 ≠ i) →
        t.levelScan b i = s.levelScan b i ∧ t.dqScan b i = s.dqScan b i) ∧
      (t.eobAt b).toNat =
        (s.rulePath b pt).foldl (fun f jx => if jx.2 = 0 then f else jx.1 + 1) (firstPos pt)
end

