-- ==== Sys2Proof/Laws/Arith.lean ====
section
/-! SUPPORT. Computations that carry STATUS.WRAP: how they run, when nothing wraps, and that the flag is sticky. -/

namespace Sys2Proof.Machine

/-! ### Running a computation

The proofs are `(rfl)`, in parentheses, so that `simp` rewrites with these lemmas by proof terms: rewriting by
definitional equality leaves the kernel a whole computation to unfold. -/

theorem Arith.run_bind {α β : Type} (m : Arith α) (f : α → Arith β) (w : Bool) :
    (m >>= f).run w = (f (m.run w).1).run (m.run w).2 := (rfl)

theorem Arith.run_pure {α : Type} (a : α) (w : Bool) : (pure a : Arith α).run w = (a, w) := (rfl)

theorem Arith.run_ite {α : Type} (c : Prop) [Decidable c] (m n : Arith α) (w : Bool) :
    (if c then m else n).run w = if c then m.run w else n.run w := by split <;> rfl

theorem narrowing_run (bits : Nat) (v : Int) (w : Bool) :
    (narrowing bits v).run w = (narrow bits v, w || decide (narrow bits v ≠ v)) := (rfl)

theorem calc_eq {α : Type} (s : State) (m : Arith α) : s.calc m = m.run s.status.wrap := rfl

/-! ### Nothing wraps in range -/

theorem narrow_of_range {bits : Nat} (v : Int) (hb : 0 < bits) (h1 : -(2 ^ (bits - 1) : Int) ≤ v)
    (h2 : v < (2 ^ (bits - 1) : Int)) : narrow bits v = v := by
  obtain ⟨n, rfl⟩ : ∃ n, bits = n + 1 := ⟨bits - 1, by omega⟩
  simp only [Nat.add_sub_cancel] at h1 h2
  unfold narrow
  apply Int.bmod_eq_of_le
  · push_cast [pow_succ]; omega
  · push_cast [pow_succ]; omega

theorem narrow32_of_range {v : Int} (h1 : -2147483648 ≤ v) (h2 : v ≤ 2147483647) : narrow 32 v = v :=
  narrow_of_range v (by omega) (by norm_num; omega) (by norm_num; omega)

theorem narrow16_of_range {v : Int} (h1 : -32768 ≤ v) (h2 : v ≤ 32767) : narrow 16 v = v :=
  narrow_of_range v (by omega) (by norm_num; omega) (by norm_num; omega)

theorem wrap32_run_of_range {v : Int} (w : Bool) (h1 : -2147483648 ≤ v) (h2 : v ≤ 2147483647) :
    (wrap32 v).run w = (v, w) := by
  simp [wrap32, narrowing_run, narrow32_of_range h1 h2]

theorem trunc16_run_of_range {v : Int} (w : Bool) (h1 : -32768 ≤ v) (h2 : v ≤ 32767) :
    (trunc16 v).run w = (v, w) := by
  simp [trunc16, narrowing_run, narrow16_of_range h1 h2]

/-- A truncated value has the bits the untruncated one has. -/
theorem ofInt_narrow (w : Nat) (v : Int) : BitVec.ofInt w (narrow w v) = BitVec.ofInt w v := by
  apply BitVec.eq_of_toInt_eq
  simp [narrow, BitVec.toInt_ofInt]

theorem toInt_ofInt_narrow (w : Nat) (v : Int) : (BitVec.ofInt w v).toInt = narrow w v := by
  simp [narrow, BitVec.toInt_ofInt]

/-! ### The flag is sticky -/

/-- A computation's value does not depend on the flag it starts with, and the flag it ends with is the one it
started with or the one it sets itself (60_exceptions R290). -/
def Sticky {α : Type} (m : Arith α) : Prop :=
  ∀ w, (m.run w).1 = (m.run false).1 ∧ (m.run w).2 = (w || (m.run false).2)

theorem sticky_pure {α : Type} (a : α) : Sticky (pure a : Arith α) := by
  intro w
  rw [Arith.run_pure, Arith.run_pure]
  simp

theorem sticky_bind {α β : Type} {m : Arith α} {f : α → Arith β} (hm : Sticky m) (hf : ∀ a, Sticky (f a)) :
    Sticky (m >>= f) := by
  intro w
  simp only [Arith.run_bind]
  obtain ⟨h1, h2⟩ := hm w
  rw [h1, h2]
  obtain ⟨h3, h4⟩ := hf (m.run false).1 (w || (m.run false).2)
  obtain ⟨h5, h6⟩ := hf (m.run false).1 (m.run false).2
  rw [h3, h4, h5, h6, Bool.or_assoc]
  exact ⟨rfl, rfl⟩

theorem sticky_ite {α : Type} (c : Prop) [Decidable c] {m n : Arith α} (hm : Sticky m) (hn : Sticky n) :
    Sticky (if c then m else n) := by split <;> assumption

theorem sticky_narrowing (bits : Nat) (v : Int) : Sticky (narrowing bits v) := by
  intro w
  simp [narrowing_run]

theorem sticky_wrap32 (v : Int) : Sticky (wrap32 v) := sticky_narrowing 32 v
theorem sticky_trunc16 (v : Int) : Sticky (trunc16 v) := sticky_narrowing 16 v
theorem sticky_add32 (a b : Int) : Sticky (add32 a b) := sticky_wrap32 _
theorem sticky_sub32 (a b : Int) : Sticky (sub32 a b) := sticky_wrap32 _
theorem sticky_mul32 (a b : Int) : Sticky (mul32 a b) := sticky_wrap32 _

theorem sticky_collect {α β : Type} {f : α → Arith β} (hf : ∀ a, Sticky (f a)) (as : List α) :
    Sticky (collect f as) := by
  induction as with
  | nil => exact sticky_pure _
  | cons a as ih => exact sticky_bind (hf a) fun _ => sticky_bind ih fun _ => sticky_pure _

theorem sticky_fdctRow (q : Quad) : Sticky (fdctRow q) := by
  unfold fdctRow
  repeat' first
    | with_reducible refine sticky_bind ?_ fun _ => ?_
    | with_reducible exact sticky_pure _
    | with_reducible exact sticky_add32 _ _
    | with_reducible exact sticky_sub32 _ _
    | with_reducible exact sticky_mul32 _ _
    | with_reducible exact sticky_trunc16 _

theorem sticky_fdctColumn (q : Quad) : Sticky (fdctColumn q) := by
  unfold fdctColumn
  repeat' first
    | with_reducible refine sticky_bind ?_ fun _ => ?_
    | with_reducible exact sticky_pure _
    | with_reducible exact sticky_add32 _ _
    | with_reducible exact sticky_sub32 _ _
    | with_reducible exact sticky_mul32 _ _
    | with_reducible exact sticky_trunc16 _

theorem sticky_whtRow (q : Quad) : Sticky (whtRow q) := by
  unfold whtRow
  repeat' first
    | with_reducible refine sticky_bind ?_ fun _ => ?_
    | with_reducible exact sticky_pure _
    | with_reducible exact sticky_add32 _ _
    | with_reducible exact sticky_sub32 _ _
    | with_reducible exact sticky_mul32 _ _
    | with_reducible exact sticky_trunc16 _

theorem sticky_whtRound (x : Int) : Sticky (whtRound x) :=
  sticky_bind (sticky_add32 _ _) fun _ => sticky_bind (sticky_add32 _ _) fun _ => sticky_trunc16 _

theorem sticky_whtColumn (q : Quad) : Sticky (whtColumn q) := by
  unfold whtColumn
  repeat' first
    | with_reducible refine sticky_bind ?_ fun _ => ?_
    | with_reducible exact sticky_pure _
    | with_reducible exact sticky_add32 _ _
    | with_reducible exact sticky_sub32 _ _
    | with_reducible exact sticky_whtRound _

theorem sticky_rowPass {f : Quad → Arith Quad} (hf : ∀ q, Sticky (f q)) (m : Block) :
    Sticky (m.rowPass f) :=
  sticky_bind (hf _) fun _ => sticky_bind (hf _) fun _ => sticky_bind (hf _) fun _ =>
    sticky_bind (hf _) fun _ => sticky_pure _

theorem sticky_columnPass {f : Quad → Arith Quad} (hf : ∀ q, Sticky (f q)) (m : Block) :
    Sticky (m.columnPass f) := sticky_bind (sticky_rowPass hf _) fun _ => sticky_pure _

theorem sticky_fdct (m : Block) : Sticky (fdct m) :=
  sticky_bind (sticky_rowPass sticky_fdctRow m) fun _ => sticky_columnPass sticky_fdctColumn _

theorem sticky_wht (m : Block) : Sticky (wht m) :=
  sticky_bind (sticky_rowPass sticky_whtRow m) fun _ => sticky_columnPass sticky_whtColumn _

theorem sticky_dequantized (s : State) (b : Nat) (t : BitVec 2) (i : Nat) : Sticky (s.dequantized b t i) :=
  sticky_bind (sticky_trunc16 _) fun _ => sticky_pure _

theorem sticky_effectiveRdm (s : State) (t : BitVec 2) : Sticky (s.effectiveRdm t) :=
  sticky_bind (sticky_wrap32 _) fun _ =>
    sticky_ite _ (sticky_bind (sticky_wrap32 _) fun _ => sticky_pure _) (sticky_pure _)

theorem sticky_rdCost (p : RdParams) (r e : Int) : Sticky (rdCost p r e) :=
  sticky_bind (sticky_wrap32 _) fun _ => sticky_bind (sticky_wrap32 _) fun _ =>
    sticky_bind (sticky_wrap32 _) fun _ => sticky_wrap32 _

theorem sticky_rdTrunc (p : RdParams) (r : Int) : Sticky (rdTrunc p r) :=
  sticky_bind (sticky_wrap32 _) fun _ => sticky_bind (sticky_wrap32 _) fun _ => sticky_pure _

theorem sticky_pick (p : RdParams) (r0 e0 r1 e1 : Int) : Sticky (pick p r0 e0 r1 e1) :=
  sticky_bind (sticky_rdCost _ _ _) fun _ => sticky_bind (sticky_rdCost _ _ _) fun _ =>
    sticky_ite _ (sticky_bind (sticky_rdTrunc _ _) fun _ => sticky_bind (sticky_rdTrunc _ _) fun _ => sticky_pure _)
      (sticky_pure _)

theorem sticky_succRate (s : State) (p : RdParams) (i nx : Nat) (own : Token) (n : Node) :
    Sticky (s.succRate p i nx own n) := sticky_ite _ (sticky_wrap32 _) (sticky_pure _)

theorem sticky_succRate1 (s : State) (p : RdParams) (i nx : Nat) (own : Token) (n : Node) :
    Sticky (s.succRate1 p i nx own n) := sticky_ite _ (sticky_pure _) (sticky_succRate _ _ _ _ _ _)

theorem sticky_roundedError (sc : Bool) (x dx step : Int) : Sticky (roundedError sc x dx step) :=
  sticky_ite _ (sticky_wrap32 _) (sticky_wrap32 _)

theorem sticky_keepNode (s : State) (p : RdParams) (b i : Nat) (h : Stage) : Sticky (s.keepNode p b i h) :=
  sticky_bind (sticky_succRate _ _ _ _ _ _) fun _ => sticky_bind (sticky_succRate _ _ _ _ _ _) fun _ =>
    sticky_bind (sticky_pick _ _ _ _ _) fun _ => sticky_bind (sticky_wrap32 _) fun _ =>
      sticky_bind (sticky_wrap32 _) fun _ => sticky_bind (sticky_wrap32 _) fun _ => sticky_pure _

theorem sticky_roundNode (s : State) (p : RdParams) (b i : Nat) (h : Stage) : Sticky (s.roundNode p b i h) :=
  sticky_bind (sticky_succRate1 _ _ _ _ _ _) fun _ => sticky_bind (sticky_succRate1 _ _ _ _ _ _) fun _ =>
    sticky_bind (sticky_pick _ _ _ _ _) fun _ => sticky_bind (sticky_roundedError _ _ _ _) fun _ =>
      sticky_bind (sticky_wrap32 _) fun _ => sticky_bind (sticky_wrap32 _) fun _ => sticky_pure _

theorem sticky_zeroNode (s : State) (p : RdParams) (i : Nat) (n : Node) : Sticky (s.zeroNode p i n) :=
  sticky_ite _ (sticky_pure _) (sticky_bind (sticky_wrap32 _) fun _ => sticky_pure _)

theorem sticky_visit (s : State) (p : RdParams) (b i : Nat) (tr : Trellis) : Sticky (s.visit p b i tr) :=
  sticky_ite _
    (sticky_bind (sticky_zeroNode _ _ _ _) fun _ => sticky_bind (sticky_zeroNode _ _ _ _) fun _ => sticky_pure _)
    (sticky_bind (sticky_keepNode _ _ _ _ _) fun _ => sticky_bind (sticky_roundNode _ _ _ _ _) fun _ =>
      sticky_pure _)

theorem sticky_sweep (s : State) (p : RdParams) (b : Nat) (is : List Nat) (tr : Trellis) :
    Sticky (s.sweep p b is tr) := by
  induction is generalizing tr with
  | nil => exact sticky_pure _
  | cons i is ih => exact sticky_bind (sticky_visit _ _ _ _ _) fun _ => ih _

theorem sticky_headPick (s : State) (p : RdParams) (b e : Nat) (h : Stage) : Sticky (s.headPick p b e h) :=
  sticky_bind (sticky_wrap32 _) fun _ => sticky_bind (sticky_wrap32 _) fun _ => sticky_pick _ _ _ _ _

theorem sticky_winningPath (s : State) (b : Nat) (t : BitVec 2) : Sticky (s.winningPath b t) :=
  sticky_bind (sticky_effectiveRdm _ _) fun _ => sticky_bind (sticky_sweep _ _ _ _ _) fun _ =>
    sticky_bind (sticky_headPick _ _ _ _ _) fun _ => sticky_pure _

theorem sticky_replay (s : State) (b : Nat) (t : BitVec 2) : Sticky (s.replay b t) :=
  sticky_bind (sticky_winningPath _ _ _) fun _ =>
    sticky_bind (sticky_collect (fun _ => sticky_bind (sticky_trunc16 _) fun _ => sticky_pure _) _) fun _ =>
      sticky_pure _

end Sys2Proof.Machine
end

