-- ==== Sys2Proof/Laws/Elems.lean ====
section
/-! SUPPORT. The sparse arrays: reading after writing, and the canonical form. -/

namespace Sys2Proof.Machine

theorem Elems.find_put {w : Nat} (m : Elems w) (j k : Nat) (v : BitVec w) :
    (m.put j v).find k = if k = j then some v else m.find k := by
  induction m with
  | nil => simp [Elems.put, Elems.find]
  | cons p rest ih =>
    obtain ⟨i, u⟩ := p
    simp only [Elems.put]
    split
    · simp [Elems.find]
    · split
      · rename_i h
        subst h
        by_cases hk : k = j <;> simp [Elems.find, hk]
      · rename_i hlt hne
        simp only [Elems.find, ih]
        by_cases hi : k = i
        · simp [hi]
          omega
        · simp [hi]

@[simp] theorem Elems.find_put_same {w : Nat} (m : Elems w) (j : Nat) (v : BitVec w) :
    (m.put j v).find j = some v := by simp [Elems.find_put]

theorem Elems.find_put_other {w : Nat} (m : Elems w) {j k : Nat} (v : BitVec w) (h : k ≠ j) :
    (m.put j v).find k = m.find k := by simp [Elems.find_put, h]

@[simp] theorem Elems.putAll_nil {w : Nat} (m : Elems w) : m.putAll [] = m := rfl

@[simp] theorem Elems.putAll_cons {w : Nat} (m : Elems w) (u : Nat × Int) (us : List (Nat × Int)) :
    m.putAll (u :: us) = (m.put u.1 (BitVec.ofInt w u.2)).putAll us := rfl

theorem Elems.putAll_append {w : Nat} (m : Elems w) (us vs : List (Nat × Int)) :
    m.putAll (us ++ vs) = (m.putAll us).putAll vs := by simp [Elems.putAll]

/-- An element no write names keeps its entry. -/
theorem Elems.find_putAll_other {w : Nat} (us : List (Nat × Int)) (m : Elems w) {k : Nat}
    (h : ∀ u ∈ us, u.1 ≠ k) : (m.putAll us).find k = m.find k := by
  induction us generalizing m with
  | nil => rfl
  | cons u us ih =>
    rw [Elems.putAll_cons, ih _ fun x hx => h x (List.mem_cons_of_mem _ hx),
      Elems.find_put_other _ _ (h u List.mem_cons_self).symm]

/-- An element one write of a list with distinct indices names gets that write's value. -/
theorem Elems.find_putAll_mem {w : Nat} (us : List (Nat × Int)) (m : Elems w) {k : Nat} {v : Int}
    (hd : (us.map Prod.fst).Nodup) (h : (k, v) ∈ us) :
    (m.putAll us).find k = some (BitVec.ofInt w v) := by
  induction us generalizing m with
  | nil => simp at h
  | cons u us ih =>
    rw [List.map_cons, List.nodup_cons] at hd
    rw [Elems.putAll_cons]
    rcases List.mem_cons.mp h with rfl | h
    · rw [Elems.find_putAll_other, Elems.find_put_same]
      exact fun x hx hk => hd.1 (List.mem_map.mpr ⟨x, hx, hk⟩)
    · exact ih _ hd.2 h

/-- The canonical form, said of the head and the rest: the first index is in range and below the next. -/
theorem Elems.wf_cons {w n : Nat} (k : Nat) (v : BitVec w) (rest : Elems w) :
    Elems.wf n ((k, v) :: rest) = true ↔
      k < n ∧ (∀ p, rest.head? = some p → k < p.1) ∧ Elems.wf n rest = true := by
  cases rest with
  | nil => simp [Elems.wf]
  | cons p t => simp [Elems.wf, and_assoc]

theorem Elems.put_head {w : Nat} (m : Elems w) (j : Nat) (v : BitVec w) {p : Nat × BitVec w}
    (h : (m.put j v).head? = some p) : p.1 = j ∨ ∃ q, m.head? = some q ∧ p.1 = q.1 := by
  cases m with
  | nil => simp [Elems.put] at h; simp [← h]
  | cons q rest =>
    obtain ⟨k, u⟩ := q
    simp only [Elems.put] at h
    split at h
    · simp at h; simp [← h]
    · split at h
      · simp at h; simp [← h]
      · simp at h; simp [← h]

/-- Every write inside the array keeps the canonical form. -/
theorem Elems.wf_put {w n : Nat} (m : Elems w) (j : Nat) (v : BitVec w) (hj : j < n)
    (h : m.wf n = true) : (m.put j v).wf n = true := by
  induction m with
  | nil => simp [Elems.put, Elems.wf, hj]
  | cons p rest ih =>
    obtain ⟨k, u⟩ := p
    have hc := (Elems.wf_cons k u rest).mp h
    simp only [Elems.put]
    split
    · rename_i hlt
      exact (Elems.wf_cons _ _ _).mpr ⟨hj, by simpa using hlt, h⟩
    · split
      · rename_i heq
        exact (Elems.wf_cons _ _ _).mpr ⟨hj, heq ▸ hc.2.1, hc.2.2⟩
      · rename_i hlt hne
        refine (Elems.wf_cons _ _ _).mpr ⟨hc.1, fun p hp => ?_, ih hc.2.2⟩
        rcases Elems.put_head rest j v hp with hpj | ⟨q, hq, hpq⟩
        · omega
        · have := hc.2.1 q hq
          omega

theorem Elems.wf_putAll {w n : Nat} (us : List (Nat × Int)) (m : Elems w) (hu : ∀ u ∈ us, u.1 < n)
    (h : m.wf n = true) : (m.putAll us).wf n = true := by
  induction us generalizing m with
  | nil => exact h
  | cons u us ih =>
    exact ih _ (fun x hx => hu x (List.mem_cons_of_mem _ hx))
      (Elems.wf_put m _ _ (hu u List.mem_cons_self) h)

@[simp] theorem Elems.wf_nil {w n : Nat} : Elems.wf n ([] : Elems w) = true := rfl

/-! ### Elements of the state -/

theorem State.elem_put {w : Nat} (s : State) (m : Elems w) (base j k : Nat) (v : BitVec w) :
    s.elem (m.put j v) base k = if k = j then v else s.elem m base k := by
  unfold State.elem
  rw [Elems.find_put]
  by_cases h : k = j <;> simp [h]

theorem State.elem_putAll_other {w : Nat} (s : State) (m : Elems w) (us : List (Nat × Int)) (base : Nat)
    {k : Nat} (h : ∀ u ∈ us, u.1 ≠ k) : s.elem (m.putAll us) base k = s.elem m base k := by
  unfold State.elem
  rw [Elems.find_putAll_other us m h]

theorem State.elem_putAll_mem {w : Nat} (s : State) (m : Elems w) (us : List (Nat × Int)) (base : Nat)
    {k : Nat} {v : Int} (hd : (us.map Prod.fst).Nodup) (h : (k, v) ∈ us) :
    s.elem (m.putAll us) base k = BitVec.ofInt w v := by
  unfold State.elem
  rw [Elems.find_putAll_mem us m hd h]

/-- An element depends on the state only through the epoch. -/
theorem State.elem_congr {w : Nat} (s t : State) (m : Elems w) (base j : Nat) (h : t.epoch = s.epoch) :
    t.elem m base j = s.elem m base j := by
  simp [State.elem, State.unwritten, h]

end Sys2Proof.Machine
end

