-- ==== Sys2Proof/Laws/State.lean ====
section
/-! SUPPORT. One lemma per field per update of the state, true by rfl, so that no proof unfolds a record update. -/

namespace Sys2Proof.Machine

@[simp] theorem State.complete_ctrl (s : State) : (s.complete).ctrl = s.ctrl := rfl
@[simp] theorem State.complete_status (s : State) : (s.complete).status = { s.status with done := true } := rfl
@[simp] theorem State.complete_latch (s : State) : (s.complete).latch = none := rfl
@[simp] theorem State.complete_mbcfg (s : State) : (s.complete).mbcfg = s.mbcfg := rfl
@[simp] theorem State.complete_rdmult (s : State) : (s.complete).rdmult = s.rdmult := rfl
@[simp] theorem State.complete_rddiv (s : State) : (s.complete).rddiv = s.rddiv := rfl
@[simp] theorem State.complete_prm (s : State) : (s.complete).prm = s.prm := rfl
@[simp] theorem State.complete_ctxAbove (s : State) : (s.complete).ctxAbove = s.ctxAbove := rfl
@[simp] theorem State.complete_ctxLeft (s : State) : (s.complete).ctxLeft = s.ctxLeft := rfl
@[simp] theorem State.complete_wctxAbove (s : State) : (s.complete).wctxAbove = s.wctxAbove := rfl
@[simp] theorem State.complete_wctxLeft (s : State) : (s.complete).wctxLeft = s.wctxLeft := rfl
@[simp] theorem State.complete_errinfo (s : State) : (s.complete).errinfo = s.errinfo := rfl
@[simp] theorem State.complete_src (s : State) : (s.complete).src = s.src := rfl
@[simp] theorem State.complete_pred (s : State) : (s.complete).pred = s.pred := rfl
@[simp] theorem State.complete_diff (s : State) : (s.complete).diff = s.diff := rfl
@[simp] theorem State.complete_coeff (s : State) : (s.complete).coeff = s.coeff := rfl
@[simp] theorem State.complete_qcoeff (s : State) : (s.complete).qcoeff = s.qcoeff := rfl
@[simp] theorem State.complete_dqcoeff (s : State) : (s.complete).dqcoeff = s.dqcoeff := rfl
@[simp] theorem State.complete_eob (s : State) : (s.complete).eob = s.eob := rfl
@[simp] theorem State.complete_deq (s : State) : (s.complete).deq = s.deq := rfl
@[simp] theorem State.complete_tc (s : State) : (s.complete).tc = s.tc := rfl
@[simp] theorem State.complete_vc (s : State) : (s.complete).vc = s.vc := rfl
@[simp] theorem State.complete_params (s : State) : (s.complete).params = s.params := rfl
@[simp] theorem State.complete_host (s : State) : (s.complete).host = s.host := rfl
@[simp] theorem State.complete_reply (s : State) : (s.complete).reply = s.reply := rfl
@[simp] theorem State.complete_epoch (s : State) : (s.complete).epoch = s.epoch := rfl
@[simp] theorem State.complete_fresh (s : State) : (s.complete).fresh = s.fresh := rfl

@[simp] theorem State.raise_ctrl (s : State) (f : Failure) : (s.raise f).ctrl = s.ctrl := rfl
@[simp] theorem State.raise_status (s : State) (f : Failure) : (s.raise f).status = { s.status with done := false, error := some f.code } := rfl
@[simp] theorem State.raise_latch (s : State) (f : Failure) : (s.raise f).latch = none := rfl
@[simp] theorem State.raise_mbcfg (s : State) (f : Failure) : (s.raise f).mbcfg = s.mbcfg := rfl
@[simp] theorem State.raise_rdmult (s : State) (f : Failure) : (s.raise f).rdmult = s.rdmult := rfl
@[simp] theorem State.raise_rddiv (s : State) (f : Failure) : (s.raise f).rddiv = s.rddiv := rfl
@[simp] theorem State.raise_prm (s : State) (f : Failure) : (s.raise f).prm = s.prm := rfl
@[simp] theorem State.raise_ctxAbove (s : State) (f : Failure) : (s.raise f).ctxAbove = s.ctxAbove := rfl
@[simp] theorem State.raise_ctxLeft (s : State) (f : Failure) : (s.raise f).ctxLeft = s.ctxLeft := rfl
@[simp] theorem State.raise_wctxAbove (s : State) (f : Failure) : (s.raise f).wctxAbove = s.wctxAbove := rfl
@[simp] theorem State.raise_wctxLeft (s : State) (f : Failure) : (s.raise f).wctxLeft = s.wctxLeft := rfl
@[simp] theorem State.raise_errinfo (s : State) (f : Failure) : (s.raise f).errinfo = { blk := f.blk, pos := f.pos } := rfl
@[simp] theorem State.raise_src (s : State) (f : Failure) : (s.raise f).src = s.src := rfl
@[simp] theorem State.raise_pred (s : State) (f : Failure) : (s.raise f).pred = s.pred := rfl
@[simp] theorem State.raise_diff (s : State) (f : Failure) : (s.raise f).diff = s.diff := rfl
@[simp] theorem State.raise_coeff (s : State) (f : Failure) : (s.raise f).coeff = s.coeff := rfl
@[simp] theorem State.raise_qcoeff (s : State) (f : Failure) : (s.raise f).qcoeff = s.qcoeff := rfl
@[simp] theorem State.raise_dqcoeff (s : State) (f : Failure) : (s.raise f).dqcoeff = s.dqcoeff := rfl
@[simp] theorem State.raise_eob (s : State) (f : Failure) : (s.raise f).eob = s.eob := rfl
@[simp] theorem State.raise_deq (s : State) (f : Failure) : (s.raise f).deq = s.deq := rfl
@[simp] theorem State.raise_tc (s : State) (f : Failure) : (s.raise f).tc = s.tc := rfl
@[simp] theorem State.raise_vc (s : State) (f : Failure) : (s.raise f).vc = s.vc := rfl
@[simp] theorem State.raise_params (s : State) (f : Failure) : (s.raise f).params = s.params := rfl
@[simp] theorem State.raise_host (s : State) (f : Failure) : (s.raise f).host = s.host := rfl
@[simp] theorem State.raise_reply (s : State) (f : Failure) : (s.raise f).reply = s.reply := rfl
@[simp] theorem State.raise_epoch (s : State) (f : Failure) : (s.raise f).epoch = s.epoch := rfl
@[simp] theorem State.raise_fresh (s : State) (f : Failure) : (s.raise f).fresh = s.fresh := rfl

@[simp] theorem State.withWrap_ctrl (s : State) (w : Bool) : (s.withWrap w).ctrl = s.ctrl := rfl
@[simp] theorem State.withWrap_status (s : State) (w : Bool) : (s.withWrap w).status = { s.status with wrap := w } := rfl
@[simp] theorem State.withWrap_latch (s : State) (w : Bool) : (s.withWrap w).latch = s.latch := rfl
@[simp] theorem State.withWrap_mbcfg (s : State) (w : Bool) : (s.withWrap w).mbcfg = s.mbcfg := rfl
@[simp] theorem State.withWrap_rdmult (s : State) (w : Bool) : (s.withWrap w).rdmult = s.rdmult := rfl
@[simp] theorem State.withWrap_rddiv (s : State) (w : Bool) : (s.withWrap w).rddiv = s.rddiv := rfl
@[simp] theorem State.withWrap_prm (s : State) (w : Bool) : (s.withWrap w).prm = s.prm := rfl
@[simp] theorem State.withWrap_ctxAbove (s : State) (w : Bool) : (s.withWrap w).ctxAbove = s.ctxAbove := rfl
@[simp] theorem State.withWrap_ctxLeft (s : State) (w : Bool) : (s.withWrap w).ctxLeft = s.ctxLeft := rfl
@[simp] theorem State.withWrap_wctxAbove (s : State) (w : Bool) : (s.withWrap w).wctxAbove = s.wctxAbove := rfl
@[simp] theorem State.withWrap_wctxLeft (s : State) (w : Bool) : (s.withWrap w).wctxLeft = s.wctxLeft := rfl
@[simp] theorem State.withWrap_errinfo (s : State) (w : Bool) : (s.withWrap w).errinfo = s.errinfo := rfl
@[simp] theorem State.withWrap_src (s : State) (w : Bool) : (s.withWrap w).src = s.src := rfl
@[simp] theorem State.withWrap_pred (s : State) (w : Bool) : (s.withWrap w).pred = s.pred := rfl
@[simp] theorem State.withWrap_diff (s : State) (w : Bool) : (s.withWrap w).diff = s.diff := rfl
@[simp] theorem State.withWrap_coeff (s : State) (w : Bool) : (s.withWrap w).coeff = s.coeff := rfl
@[simp] theorem State.withWrap_qcoeff (s : State) (w : Bool) : (s.withWrap w).qcoeff = s.qcoeff := rfl
@[simp] theorem State.withWrap_dqcoeff (s : State) (w : Bool) : (s.withWrap w).dqcoeff = s.dqcoeff := rfl
@[simp] theorem State.withWrap_eob (s : State) (w : Bool) : (s.withWrap w).eob = s.eob := rfl
@[simp] theorem State.withWrap_deq (s : State) (w : Bool) : (s.withWrap w).deq = s.deq := rfl
@[simp] theorem State.withWrap_tc (s : State) (w : Bool) : (s.withWrap w).tc = s.tc := rfl
@[simp] theorem State.withWrap_vc (s : State) (w : Bool) : (s.withWrap w).vc = s.vc := rfl
@[simp] theorem State.withWrap_params (s : State) (w : Bool) : (s.withWrap w).params = s.params := rfl
@[simp] theorem State.withWrap_host (s : State) (w : Bool) : (s.withWrap w).host = s.host := rfl
@[simp] theorem State.withWrap_reply (s : State) (w : Bool) : (s.withWrap w).reply = s.reply := rfl
@[simp] theorem State.withWrap_epoch (s : State) (w : Bool) : (s.withWrap w).epoch = s.epoch := rfl
@[simp] theorem State.withWrap_fresh (s : State) (w : Bool) : (s.withWrap w).fresh = s.fresh := rfl

@[simp] theorem State.snap_ctrl (s : State) : (s.snap).ctrl = s.ctrl := rfl
@[simp] theorem State.snap_status (s : State) : (s.snap).status = s.status := rfl
@[simp] theorem State.snap_latch (s : State) : (s.snap).latch = s.latch := rfl
@[simp] theorem State.snap_mbcfg (s : State) : (s.snap).mbcfg = s.mbcfg := rfl
@[simp] theorem State.snap_rdmult (s : State) : (s.snap).rdmult = s.rdmult := rfl
@[simp] theorem State.snap_rddiv (s : State) : (s.snap).rddiv = s.rddiv := rfl
@[simp] theorem State.snap_prm (s : State) : (s.snap).prm = s.prm := rfl
@[simp] theorem State.snap_ctxAbove (s : State) : (s.snap).ctxAbove = s.ctxAbove := rfl
@[simp] theorem State.snap_ctxLeft (s : State) : (s.snap).ctxLeft = s.ctxLeft := rfl
@[simp] theorem State.snap_wctxAbove (s : State) : (s.snap).wctxAbove = s.ctxAbove := rfl
@[simp] theorem State.snap_wctxLeft (s : State) : (s.snap).wctxLeft = s.ctxLeft := rfl
@[simp] theorem State.snap_errinfo (s : State) : (s.snap).errinfo = s.errinfo := rfl
@[simp] theorem State.snap_src (s : State) : (s.snap).src = s.src := rfl
@[simp] theorem State.snap_pred (s : State) : (s.snap).pred = s.pred := rfl
@[simp] theorem State.snap_diff (s : State) : (s.snap).diff = s.diff := rfl
@[simp] theorem State.snap_coeff (s : State) : (s.snap).coeff = s.coeff := rfl
@[simp] theorem State.snap_qcoeff (s : State) : (s.snap).qcoeff = s.qcoeff := rfl
@[simp] theorem State.snap_dqcoeff (s : State) : (s.snap).dqcoeff = s.dqcoeff := rfl
@[simp] theorem State.snap_eob (s : State) : (s.snap).eob = s.eob := rfl
@[simp] theorem State.snap_deq (s : State) : (s.snap).deq = s.deq := rfl
@[simp] theorem State.snap_tc (s : State) : (s.snap).tc = s.tc := rfl
@[simp] theorem State.snap_vc (s : State) : (s.snap).vc = s.vc := rfl
@[simp] theorem State.snap_params (s : State) : (s.snap).params = s.params := rfl
@[simp] theorem State.snap_host (s : State) : (s.snap).host = s.host := rfl
@[simp] theorem State.snap_reply (s : State) : (s.snap).reply = s.reply := rfl
@[simp] theorem State.snap_epoch (s : State) : (s.snap).epoch = s.epoch := rfl
@[simp] theorem State.snap_fresh (s : State) : (s.snap).fresh = s.fresh := rfl

@[simp] theorem State.commit_ctrl (s : State) : (s.commit).ctrl = s.ctrl := rfl
@[simp] theorem State.commit_status (s : State) : (s.commit).status = s.status := rfl
@[simp] theorem State.commit_latch (s : State) : (s.commit).latch = s.latch := rfl
@[simp] theorem State.commit_mbcfg (s : State) : (s.commit).mbcfg = s.mbcfg := rfl
@[simp] theorem State.commit_rdmult (s : State) : (s.commit).rdmult = s.rdmult := rfl
@[simp] theorem State.commit_rddiv (s : State) : (s.commit).rddiv = s.rddiv := rfl
@[simp] theorem State.commit_prm (s : State) : (s.commit).prm = s.prm := rfl
@[simp] theorem State.commit_ctxAbove (s : State) : (s.commit).ctxAbove = s.wctxAbove := rfl
@[simp] theorem State.commit_ctxLeft (s : State) : (s.commit).ctxLeft = s.wctxLeft := rfl
@[simp] theorem State.commit_wctxAbove (s : State) : (s.commit).wctxAbove = s.wctxAbove := rfl
@[simp] theorem State.commit_wctxLeft (s : State) : (s.commit).wctxLeft = s.wctxLeft := rfl
@[simp] theorem State.commit_errinfo (s : State) : (s.commit).errinfo = s.errinfo := rfl
@[simp] theorem State.commit_src (s : State) : (s.commit).src = s.src := rfl
@[simp] theorem State.commit_pred (s : State) : (s.commit).pred = s.pred := rfl
@[simp] theorem State.commit_diff (s : State) : (s.commit).diff = s.diff := rfl
@[simp] theorem State.commit_coeff (s : State) : (s.commit).coeff = s.coeff := rfl
@[simp] theorem State.commit_qcoeff (s : State) : (s.commit).qcoeff = s.qcoeff := rfl
@[simp] theorem State.commit_dqcoeff (s : State) : (s.commit).dqcoeff = s.dqcoeff := rfl
@[simp] theorem State.commit_eob (s : State) : (s.commit).eob = s.eob := rfl
@[simp] theorem State.commit_deq (s : State) : (s.commit).deq = s.deq := rfl
@[simp] theorem State.commit_tc (s : State) : (s.commit).tc = s.tc := rfl
@[simp] theorem State.commit_vc (s : State) : (s.commit).vc = s.vc := rfl
@[simp] theorem State.commit_params (s : State) : (s.commit).params = s.params := rfl
@[simp] theorem State.commit_host (s : State) : (s.commit).host = s.host := rfl
@[simp] theorem State.commit_reply (s : State) : (s.commit).reply = s.reply := rfl
@[simp] theorem State.commit_epoch (s : State) : (s.commit).epoch = s.epoch := rfl
@[simp] theorem State.commit_fresh (s : State) : (s.commit).fresh = s.fresh := rfl

@[simp] theorem State.writeContext_ctrl (s : State) (b : Nat) (f : Bool) : (s.writeContext b f).ctrl = s.ctrl := rfl
@[simp] theorem State.writeContext_status (s : State) (b : Nat) (f : Bool) : (s.writeContext b f).status = s.status := rfl
@[simp] theorem State.writeContext_latch (s : State) (b : Nat) (f : Bool) : (s.writeContext b f).latch = s.latch := rfl
@[simp] theorem State.writeContext_mbcfg (s : State) (b : Nat) (f : Bool) : (s.writeContext b f).mbcfg = s.mbcfg := rfl
@[simp] theorem State.writeContext_rdmult (s : State) (b : Nat) (f : Bool) : (s.writeContext b f).rdmult = s.rdmult := rfl
@[simp] theorem State.writeContext_rddiv (s : State) (b : Nat) (f : Bool) : (s.writeContext b f).rddiv = s.rddiv := rfl
@[simp] theorem State.writeContext_prm (s : State) (b : Nat) (f : Bool) : (s.writeContext b f).prm = s.prm := rfl
@[simp] theorem State.writeContext_ctxAbove (s : State) (b : Nat) (f : Bool) : (s.writeContext b f).ctxAbove = s.ctxAbove := rfl
@[simp] theorem State.writeContext_ctxLeft (s : State) (b : Nat) (f : Bool) : (s.writeContext b f).ctxLeft = s.ctxLeft := rfl
@[simp] theorem State.writeContext_wctxAbove (s : State) (b : Nat) (f : Bool) : (s.writeContext b f).wctxAbove = setFlag s.wctxAbove (aboveIndex b) f := rfl
@[simp] theorem State.writeContext_wctxLeft (s : State) (b : Nat) (f : Bool) : (s.writeContext b f).wctxLeft = setFlag s.wctxLeft (leftIndex b) f := rfl
@[simp] theorem State.writeContext_errinfo (s : State) (b : Nat) (f : Bool) : (s.writeContext b f).errinfo = s.errinfo := rfl
@[simp] theorem State.writeContext_src (s : State) (b : Nat) (f : Bool) : (s.writeContext b f).src = s.src := rfl
@[simp] theorem State.writeContext_pred (s : State) (b : Nat) (f : Bool) : (s.writeContext b f).pred = s.pred := rfl
@[simp] theorem State.writeContext_diff (s : State) (b : Nat) (f : Bool) : (s.writeContext b f).diff = s.diff := rfl
@[simp] theorem State.writeContext_coeff (s : State) (b : Nat) (f : Bool) : (s.writeContext b f).coeff = s.coeff := rfl
@[simp] theorem State.writeContext_qcoeff (s : State) (b : Nat) (f : Bool) : (s.writeContext b f).qcoeff = s.qcoeff := rfl
@[simp] theorem State.writeContext_dqcoeff (s : State) (b : Nat) (f : Bool) : (s.writeContext b f).dqcoeff = s.dqcoeff := rfl
@[simp] theorem State.writeContext_eob (s : State) (b : Nat) (f : Bool) : (s.writeContext b f).eob = s.eob := rfl
@[simp] theorem State.writeContext_deq (s : State) (b : Nat) (f : Bool) : (s.writeContext b f).deq = s.deq := rfl
@[simp] theorem State.writeContext_tc (s : State) (b : Nat) (f : Bool) : (s.writeContext b f).tc = s.tc := rfl
@[simp] theorem State.writeContext_vc (s : State) (b : Nat) (f : Bool) : (s.writeContext b f).vc = s.vc := rfl
@[simp] theorem State.writeContext_params (s : State) (b : Nat) (f : Bool) : (s.writeContext b f).params = s.params := rfl
@[simp] theorem State.writeContext_host (s : State) (b : Nat) (f : Bool) : (s.writeContext b f).host = s.host := rfl
@[simp] theorem State.writeContext_reply (s : State) (b : Nat) (f : Bool) : (s.writeContext b f).reply = s.reply := rfl
@[simp] theorem State.writeContext_epoch (s : State) (b : Nat) (f : Bool) : (s.writeContext b f).epoch = s.epoch := rfl
@[simp] theorem State.writeContext_fresh (s : State) (b : Nat) (f : Bool) : (s.writeContext b f).fresh = s.fresh := rfl

@[simp] theorem State.softReset_ctrl (s : State) : (s.softReset).ctrl = .atReset := rfl
@[simp] theorem State.softReset_status (s : State) : (s.softReset).status = .atReset := rfl
@[simp] theorem State.softReset_latch (s : State) : (s.softReset).latch = none := rfl
@[simp] theorem State.softReset_mbcfg (s : State) : (s.softReset).mbcfg = .atReset := rfl
@[simp] theorem State.softReset_rdmult (s : State) : (s.softReset).rdmult = 0 := rfl
@[simp] theorem State.softReset_rddiv (s : State) : (s.softReset).rddiv = 0 := rfl
@[simp] theorem State.softReset_prm (s : State) : (s.softReset).prm = prmAtReset := rfl
@[simp] theorem State.softReset_ctxAbove (s : State) : (s.softReset).ctxAbove = 0 := rfl
@[simp] theorem State.softReset_ctxLeft (s : State) : (s.softReset).ctxLeft = 0 := rfl
@[simp] theorem State.softReset_wctxAbove (s : State) : (s.softReset).wctxAbove = 0 := rfl
@[simp] theorem State.softReset_wctxLeft (s : State) : (s.softReset).wctxLeft = 0 := rfl
@[simp] theorem State.softReset_errinfo (s : State) : (s.softReset).errinfo = { blk := 0, pos := 0 } := rfl
@[simp] theorem State.softReset_src (s : State) : (s.softReset).src = s.src := rfl
@[simp] theorem State.softReset_pred (s : State) : (s.softReset).pred = s.pred := rfl
@[simp] theorem State.softReset_diff (s : State) : (s.softReset).diff = s.diff := rfl
@[simp] theorem State.softReset_coeff (s : State) : (s.softReset).coeff = s.coeff := rfl
@[simp] theorem State.softReset_qcoeff (s : State) : (s.softReset).qcoeff = s.qcoeff := rfl
@[simp] theorem State.softReset_dqcoeff (s : State) : (s.softReset).dqcoeff = s.dqcoeff := rfl
@[simp] theorem State.softReset_eob (s : State) : (s.softReset).eob = s.eob := rfl
@[simp] theorem State.softReset_deq (s : State) : (s.softReset).deq = s.deq := rfl
@[simp] theorem State.softReset_tc (s : State) : (s.softReset).tc = s.tc := rfl
@[simp] theorem State.softReset_vc (s : State) : (s.softReset).vc = s.vc := rfl
@[simp] theorem State.softReset_params (s : State) : (s.softReset).params = s.params := rfl
@[simp] theorem State.softReset_host (s : State) : (s.softReset).host = s.host := rfl
@[simp] theorem State.softReset_reply (s : State) : (s.softReset).reply = s.reply := rfl
@[simp] theorem State.softReset_epoch (s : State) : (s.softReset).epoch = s.epoch := rfl
@[simp] theorem State.softReset_fresh (s : State) : (s.softReset).fresh = s.fresh := rfl

@[simp] theorem State.hardReset_ctrl (s : State) : (s.hardReset).ctrl = .atReset := rfl
@[simp] theorem State.hardReset_status (s : State) : (s.hardReset).status = .atReset := rfl
@[simp] theorem State.hardReset_latch (s : State) : (s.hardReset).latch = none := rfl
@[simp] theorem State.hardReset_mbcfg (s : State) : (s.hardReset).mbcfg = .atReset := rfl
@[simp] theorem State.hardReset_rdmult (s : State) : (s.hardReset).rdmult = 0 := rfl
@[simp] theorem State.hardReset_rddiv (s : State) : (s.hardReset).rddiv = 0 := rfl
@[simp] theorem State.hardReset_prm (s : State) : (s.hardReset).prm = prmAtReset := rfl
@[simp] theorem State.hardReset_ctxAbove (s : State) : (s.hardReset).ctxAbove = 0 := rfl
@[simp] theorem State.hardReset_ctxLeft (s : State) : (s.hardReset).ctxLeft = 0 := rfl
@[simp] theorem State.hardReset_wctxAbove (s : State) : (s.hardReset).wctxAbove = 0 := rfl
@[simp] theorem State.hardReset_wctxLeft (s : State) : (s.hardReset).wctxLeft = 0 := rfl
@[simp] theorem State.hardReset_errinfo (s : State) : (s.hardReset).errinfo = { blk := 0, pos := 0 } := rfl
@[simp] theorem State.hardReset_src (s : State) : (s.hardReset).src = [] := rfl
@[simp] theorem State.hardReset_pred (s : State) : (s.hardReset).pred = [] := rfl
@[simp] theorem State.hardReset_diff (s : State) : (s.hardReset).diff = [] := rfl
@[simp] theorem State.hardReset_coeff (s : State) : (s.hardReset).coeff = [] := rfl
@[simp] theorem State.hardReset_qcoeff (s : State) : (s.hardReset).qcoeff = [] := rfl
@[simp] theorem State.hardReset_dqcoeff (s : State) : (s.hardReset).dqcoeff = [] := rfl
@[simp] theorem State.hardReset_eob (s : State) : (s.hardReset).eob = [] := rfl
@[simp] theorem State.hardReset_deq (s : State) : (s.hardReset).deq = [] := rfl
@[simp] theorem State.hardReset_tc (s : State) : (s.hardReset).tc = [] := rfl
@[simp] theorem State.hardReset_vc (s : State) : (s.hardReset).vc = [] := rfl
@[simp] theorem State.hardReset_params (s : State) : (s.hardReset).params = s.params := rfl
@[simp] theorem State.hardReset_host (s : State) : (s.hardReset).host = s.host := rfl
@[simp] theorem State.hardReset_reply (s : State) : (s.hardReset).reply = s.reply := rfl
@[simp] theorem State.hardReset_epoch (s : State) : (s.hardReset).epoch = s.epoch + 1 := rfl
@[simp] theorem State.hardReset_fresh (s : State) : (s.hardReset).fresh = s.fresh := rfl

/-! Elements of a completed state. -/

@[simp] theorem State.complete_srcAt (s : State) (j : Nat) : s.complete.srcAt j = s.srcAt j := rfl
@[simp] theorem State.complete_predAt (s : State) (j : Nat) : s.complete.predAt j = s.predAt j := rfl
@[simp] theorem State.complete_diffAt (s : State) (j : Nat) : s.complete.diffAt j = s.diffAt j := rfl
@[simp] theorem State.complete_coeffAt (s : State) (j : Nat) : s.complete.coeffAt j = s.coeffAt j := rfl
@[simp] theorem State.complete_qcoeffAt (s : State) (j : Nat) : s.complete.qcoeffAt j = s.qcoeffAt j := rfl
@[simp] theorem State.complete_dqcoeffAt (s : State) (j : Nat) : s.complete.dqcoeffAt j = s.dqcoeffAt j := rfl
@[simp] theorem State.complete_eobAt (s : State) (j : Nat) : s.complete.eobAt j = s.eobAt j := rfl
@[simp] theorem State.complete_deqElem (s : State) (j : Nat) : s.complete.deqElem j = s.deqElem j := rfl
@[simp] theorem State.complete_tcElem (s : State) (j : Nat) : s.complete.tcElem j = s.tcElem j := rfl
@[simp] theorem State.complete_vcElem (s : State) (j : Nat) : s.complete.vcElem j = s.vcElem j := rfl
@[simp] theorem State.complete_deqAt (s : State) (t : BitVec 2) (i : Nat) : s.complete.deqAt t i = s.deqAt t i := rfl
@[simp] theorem State.complete_coefScan (s : State) (b i : Nat) : s.complete.coefScan b i = s.coefScan b i := rfl
@[simp] theorem State.complete_levelScan (s : State) (b i : Nat) : s.complete.levelScan b i = s.levelScan b i := rfl
@[simp] theorem State.complete_dqScan (s : State) (b i : Nat) : s.complete.dqScan b i = s.dqScan b i := rfl

end Sys2Proof.Machine
end

