-- ==== Sys2Proof/Laws/Trellis.lean ====
section
/-! SUPPORT. What one optimization can do (43_trellis R213, R215): which positions the winning path visits and which
levels it gives them. -/

namespace Sys2Proof.Machine

/-- The positions from `lo` up to below `e` that hold a nonzero level, rising. -/
def State.nonzeroPositions (s : State) (b lo e : Nat) : List Nat :=
  (List.range' lo (e - lo)).filter fun i => decide (s.levelScan b i ≠ 0)

/-- The levels a node of position `i` may hold: the level kept, or one step toward zero where rounding is eligible
(43_trellis R209..R211). -/
def State.NodeLevel (s : State) (b : Nat) (t : BitVec 2) (i : Nat) (x : Int) : Prop :=
  x = s.levelScan b i ∨
    (roundable (s.levelScan b i) (s.coefScan b i) (s.deqAt t i) = true ∧ x = towardZero (s.levelScan b i))

/-- A stage of block `b`: state 0 keeps the level, state 1 keeps it or rounds it (43_trellis R209, R211). -/
def State.StageLevels (s : State) (b : Nat) (t : BitVec 2) (st : Stage) : Prop :=
  st.n0.qc = s.levelScan b st.pos ∧ s.NodeLevel b t st.pos st.n1.qc

/-- The chain after the sweep has come down to `lo`: one stage per nonzero position, then the sentinel. -/
def State.ChainOk (s : State) (b : Nat) (t : BitVec 2) (e lo : Nat) (tr : Trellis) : Prop :=
  ∃ stages sentinel, tr.head :: tr.rest = stages ++ [sentinel] ∧ sentinel.pos = e ∧
    stages.map Stage.pos = s.nonzeroPositions b lo e ∧ ∀ st ∈ stages, s.StageLevels b t st

theorem zeroNode_qc (s : State) (p : RdParams) (i : Nat) (n : Node) (w : Bool) :
    ((s.zeroNode p i n).run w).1.qc = n.qc := by
  unfold State.zeroNode
  split <;> rfl

theorem keepNode_qc (s : State) (p : RdParams) (b i : Nat) (h : Stage) (w : Bool) :
    ((s.keepNode p b i h).run w).1.1.qc = s.levelScan b i := by
  unfold State.keepNode
  simp only [Arith.run_bind, Arith.run_pure]

theorem roundNode_qc (s : State) (p : RdParams) (b i : Nat) (h : Stage) (w : Bool) :
    ((s.roundNode p b i h).run w).1.1.qc =
      if roundable (s.levelScan b i) (s.coefScan b i) (s.deqAt p.t i) then towardZero (s.levelScan b i)
      else s.levelScan b i := by
  unfold State.roundNode
  simp only [Arith.run_bind, Arith.run_pure]

theorem nonzeroPositions_below (s : State) (b lo e : Nat) {i : Nat} (h : i ∈ s.nonzeroPositions b lo e) :
    lo ≤ i ∧ i < e ∧ s.levelScan b i ≠ 0 := by
  simp only [State.nonzeroPositions, List.mem_filter, List.mem_range', decide_eq_true_eq] at h
  omega

theorem mem_nonzeroPositions (s : State) (b lo e : Nat) {i : Nat} :
    i ∈ s.nonzeroPositions b lo e ↔ lo ≤ i ∧ i < e ∧ s.levelScan b i ≠ 0 := by
  constructor
  · exact nonzeroPositions_below s b lo e
  · rintro ⟨h1, h2, h3⟩
    simp only [State.nonzeroPositions, List.mem_filter, List.mem_range', decide_eq_true_eq]
    exact ⟨⟨i - lo, by omega, by omega⟩, h3⟩

theorem nonzeroPositions_nodup (s : State) (b lo e : Nat) : (s.nonzeroPositions b lo e).Nodup :=
  List.Nodup.filter _ List.nodup_range'

theorem nonzeroPositions_step (s : State) (b : Nat) {i e : Nat} (h : i < e) :
    s.nonzeroPositions b i e =
      if s.levelScan b i = 0 then s.nonzeroPositions b (i + 1) e else i :: s.nonzeroPositions b (i + 1) e := by
  unfold State.nonzeroPositions
  obtain ⟨n, rfl⟩ : ∃ n, e = i + (n + 1) := ⟨e - i - 1, by omega⟩
  rw [show i + (n + 1) - i = n + 1 by omega, show i + (n + 1) - (i + 1) = n by omega, List.range'_succ,
    List.filter_cons]
  by_cases hz : s.levelScan b i = 0 <;> simp [hz]

/-- One position of the sweep keeps the chain. -/
theorem visit_chainOk (s : State) (p : RdParams) (b : Nat) {i e : Nat} (h : i < e) (tr : Trellis) (w : Bool)
    (hc : s.ChainOk b p.t e (i + 1) tr) : s.ChainOk b p.t e i ((s.visit p b i tr).run w).1 := by
  obtain ⟨stages, sen, heq, hpos, hmap, hlev⟩ := hc
  by_cases hz : s.levelScan b i = 0
  · have hrun : ((s.visit p b i tr).run w).1 =
        { tr with head := { tr.head with
            n0 := ((s.zeroNode p i tr.head.n0).run w).1
            n1 := ((s.zeroNode p i tr.head.n1).run ((s.zeroNode p i tr.head.n0).run w).2).1 } } := by
      unfold State.visit
      rw [if_pos hz]
      rfl
    have hmap' : s.nonzeroPositions b i e = s.nonzeroPositions b (i + 1) e := by
      rw [nonzeroPositions_step s b h, if_pos hz]
    rw [hrun]
    generalize hn0 : ((s.zeroNode p i tr.head.n0).run w).1 = n0
    generalize hn1 : ((s.zeroNode p i tr.head.n1).run ((s.zeroNode p i tr.head.n0).run w).2).1 = n1
    have hq0 : n0.qc = tr.head.n0.qc := by rw [← hn0, zeroNode_qc]
    have hq1 : n1.qc = tr.head.n1.qc := by rw [← hn1, zeroNode_qc]
    cases stages with
    | nil =>
      simp only [List.nil_append, List.cons.injEq] at heq
      refine ⟨[], { tr.head with n0 := n0, n1 := n1 }, ?_, ?_, ?_, ?_⟩
      · simp [heq.2]
      · simp [heq.1, hpos]
      · rw [hmap', ← hmap]
      · simp
    | cons st stages =>
      simp only [List.cons_append, List.cons.injEq] at heq
      refine ⟨{ tr.head with n0 := n0, n1 := n1 } :: stages, sen, ?_, hpos, ?_, ?_⟩
      · simp [heq.2]
      · rw [hmap', ← hmap]
        simp [heq.1]
      · intro st' hst'
        rcases List.mem_cons.mp hst' with rfl | hst'
        · have := hlev st List.mem_cons_self
          rw [← heq.1] at this
          simpa [State.StageLevels, hq0, hq1] using this
        · exact hlev st' (List.mem_cons_of_mem _ hst')
  · have hrun : ((s.visit p b i tr).run w).1 =
        { head :=
            { pos := i
              n0 := ((s.keepNode p b i tr.head).run w).1.1
              n1 := ((s.roundNode p b i tr.head).run ((s.keepNode p b i tr.head).run w).2).1.1
              pick0 := ((s.keepNode p b i tr.head).run w).1.2
              pick1 := ((s.roundNode p b i tr.head).run ((s.keepNode p b i tr.head).run w).2).1.2 }
          rest := tr.head :: tr.rest } := by
      unfold State.visit
      rw [if_neg hz]
      rfl
    rw [hrun]
    refine ⟨_ :: stages, sen, by rw [heq]; rfl, hpos, ?_, ?_⟩
    · rw [nonzeroPositions_step s b h, if_neg hz, List.map_cons, hmap]
    · intro st hst
      rcases List.mem_cons.mp hst with rfl | hst
      · refine ⟨keepNode_qc _ _ _ _ _ _, ?_⟩
        simp only [roundNode_qc]
        split
        · rename_i hr
          exact Or.inr ⟨hr, rfl⟩
        · exact Or.inl rfl
      · exact hlev st hst

/-- The sweep from `lo + n − 1` down to `lo` keeps the chain. -/
theorem sweep_chainOk (s : State) (p : RdParams) (b e lo : Nat) (n : Nat) (tr : Trellis) (w : Bool)
    (hn : lo + n ≤ e) (hc : s.ChainOk b p.t e (lo + n) tr) :
    s.ChainOk b p.t e lo ((s.sweep p b (List.range' lo n).reverse tr).run w).1 := by
  induction n generalizing tr w with
  | zero => exact hc
  | succ n ih =>
    rw [List.range'_1_concat, List.reverse_append]
    exact ih _ _ (by omega) (visit_chainOk s p b (by omega) tr w hc)

theorem trellisStart_chainOk (s : State) (b : Nat) (t : BitVec 2) (e lo : Nat) (h : e ≤ lo) :
    s.ChainOk b t e lo (trellisStart e) := by
  refine ⟨[], (trellisStart e).head, rfl, rfl, ?_, by simp⟩
  simp [State.nonzeroPositions, Nat.sub_eq_zero_of_le h]

/-- A winning path visits exactly the nonzero positions of its range, and gives each its level or, where rounding is
eligible, that level one step closer to zero. -/
def State.PathOk (s : State) (b : Nat) (t : BitVec 2) (lo e : Nat) (path : List (Nat × Int)) : Prop :=
  path.map Prod.fst = s.nonzeroPositions b lo e ∧ ∀ jx ∈ path, s.NodeLevel b t jx.1 jx.2

theorem replayPath_levels (s : State) (b : Nat) (t : BitVec 2) (e : Nat) (k : Bool) (stages : List Stage) (sen : Stage)
    (hsen : sen.pos = e) (hbelow : ∀ st ∈ stages, st.pos < e) (hlev : ∀ st ∈ stages, s.StageLevels b t st) :
    (replayPath e k (stages ++ [sen])).map Prod.fst = stages.map Stage.pos ∧
      ∀ jx ∈ replayPath e k (stages ++ [sen]), s.NodeLevel b t jx.1 jx.2 := by
  induction stages generalizing k with
  | nil => simp [replayPath, hsen]
  | cons st stages ih =>
    have hst := hbelow st List.mem_cons_self
    have hl := hlev st List.mem_cons_self
    obtain ⟨h1, h2⟩ := ih (if k then st.pick1 else st.pick0)
      (fun x hx => hbelow x (List.mem_cons_of_mem _ hx)) (fun x hx => hlev x (List.mem_cons_of_mem _ hx))
    simp only [List.cons_append, replayPath, hst, if_true]
    refine ⟨by rw [List.map_cons, h1, List.map_cons], fun jx hjx => ?_⟩
    rcases List.mem_cons.mp hjx with rfl | hjx
    · cases k
      · exact Or.inl hl.1
      · exact hl.2
    · exact h2 jx hjx

/-- The whole of rules R206, R207, R213 and R214: what the winning path looks like. -/
theorem winningPath_ok (s : State) (b : Nat) (t : BitVec 2) (w : Bool) :
    s.PathOk b t (firstPos t) (s.eobAt b).toNat ((s.winningPath b t).run w).1 := by
  have key : ∀ (p : RdParams) (w : Bool),
      p.t = t → s.ChainOk b t (s.eobAt b).toNat (firstPos t)
        ((s.sweep p b (sweepPositions t (s.eobAt b).toNat) (trellisStart (s.eobAt b).toNat)).run w).1 := by
    intro p w hp
    subst hp
    unfold sweepPositions
    by_cases h : firstPos p.t ≤ (s.eobAt b).toNat
    · refine sweep_chainOk s p b _ _ _ _ _ (by omega) ?_
      rw [Nat.add_sub_cancel' h]
      exact trellisStart_chainOk s b _ _ _ (le_refl _)
    · rw [Nat.sub_eq_zero_of_le (by omega)]
      exact trellisStart_chainOk s b _ _ _ (by omega)
  unfold State.winningPath
  simp only [Arith.run_bind, Arith.run_pure]
  obtain ⟨stages, sen, heq, hpos, hmap, hlev⟩ :=
    key { t := t, rdm := ((s.effectiveRdm t).run w).1, rdd := s.rddiv.toInt } ((s.effectiveRdm t).run w).2 rfl
  rw [heq]
  have hb : ∀ st ∈ stages, st.pos < (s.eobAt b).toNat := fun st hst =>
    (nonzeroPositions_below s b _ _ (hmap ▸ List.mem_map.mpr ⟨st, hst, rfl⟩)).2.1
  obtain ⟨h1, h2⟩ := replayPath_levels s b t _ _ stages sen hpos hb hlev
  exact ⟨h1.trans hmap, h2⟩

/-- The replay's DQCOEFF writes are the products of its levels, one per path element (43_trellis R215). -/
theorem collect_replayDq (s : State) (b : Nat) (t : BitVec 2) (path : List (Nat × Int)) (w : Bool) :
    ((collect (s.replayDq b t) path).run w).1 =
      path.map fun jx => (b * 16 + zz jx.1, narrow 16 (jx.2 * s.deqAt t jx.1)) := by
  induction path generalizing w with
  | nil => rfl
  | cons jx path ih =>
    simp only [collect, Arith.run_bind, Arith.run_pure, List.map_cons, ih]
    rfl

theorem replay_fst (s : State) (b : Nat) (t : BitVec 2) (w : Bool) :
    ((s.replay b t).run w).1.1 = ((s.winningPath b t).run w).1 := by
  unfold State.replay
  simp only [Arith.run_bind, Arith.run_pure]

theorem replay_snd (s : State) (b : Nat) (t : BitVec 2) (w : Bool) :
    ((s.replay b t).run w).1.2 =
      ((s.winningPath b t).run w).1.map fun jx => (b * 16 + zz jx.1, narrow 16 (jx.2 * s.deqAt t jx.1)) := by
  unfold State.replay
  simp only [Arith.run_bind, Arith.run_pure]
  exact collect_replayDq s b t _ _

/-- The replay's EOB is the first included position or one past a position of the path. -/
theorem replayEob_cases (i0 : Nat) (path : List (Nat × Int)) :
    replayEob i0 path = i0 ∨ ∃ jx ∈ path, jx.2 ≠ 0 ∧ replayEob i0 path = jx.1 + 1 := by
  induction path using List.reverseRecOn with
  | nil => exact Or.inl rfl
  | append_singleton path jx ih =>
    have hstep : replayEob i0 (path ++ [jx]) = if jx.2 = 0 then replayEob i0 path else jx.1 + 1 := by
      simp [replayEob, List.foldl_append]
    by_cases h : jx.2 = 0
    · rw [hstep, if_pos h]
      rcases ih with ih | ⟨y, hy, h0, he⟩
      · exact Or.inl ih
      · exact Or.inr ⟨y, by simp [hy], h0, he⟩
    · exact Or.inr ⟨jx, by simp, h, by rw [hstep, if_neg h]⟩

/-! ### Scan positions -/

theorem zz_lt (i : Nat) : zz i < 16 := by
  by_cases h : i < 16
  · interval_cases i <;> decide
  · obtain ⟨n, rfl⟩ : ∃ n, i = n + 16 := ⟨i - 16, by omega⟩
    exact Nat.succ_pos 15

theorem zz_injective {i j : Nat} (hi : i < 16) (hj : j < 16) (h : zz i = zz j) : i = j := by
  have : ∀ i < 16, ∀ j < 16, zz i = zz j → i = j := by decide
  exact this i hi j hj h

end Sys2Proof.Machine
end

