-- ==== Sys2Proof/Laws/Commands.lean ====
section
/-! SUPPORT. What each shared operation of the commands does: which fields it writes (a frame equation), and what the
elements of the arrays are afterwards. -/

namespace Sys2Proof.Machine

/-! ### Checks -/

theorem checkBlk_legal (s : State) (legal : BitVec 5 → Bool) (blk : BitVec 5) (body : State → State)
    (h : legal blk = true) : s.checkBlk legal blk body = body s := by simp [State.checkBlk, h]

theorem checkBlk_illegal (s : State) (legal : BitVec 5 → Bool) (blk : BitVec 5) (body : State → State)
    (h : legal blk = false) :
    s.checkBlk legal blk body = s.raise { code := .badBlk, blk := blk, pos := 0 } := by
  simp [State.checkBlk, h, decodeFailure]

theorem gateOpen_iff (s : State) :
    s.gateOpen = true ↔ s.ctrl.optEn = true ∧ s.params.rddivTrivial.toInt < s.rddiv.toInt := by
  simp [State.gateOpen]

theorem checkGate_allowed (s : State) (g : Bool) (body : State → State)
    (h : g = true → s.ctrl.optEn = true ∧ s.params.rddivTrivial.toInt < s.rddiv.toInt) :
    s.checkGate g body = body s := by
  cases g
  · rfl
  · simp [State.checkGate, (gateOpen_iff s).mpr (h rfl)]

theorem checkGate_closed (s : State) (body : State → State) (h : s.gateOpen = false) :
    s.checkGate true body = s.complete := by simp [State.checkGate, h]

theorem checkGuard_valid (s : State) (body : State → State) (ha : s.mbcfg.aboveValid = true)
    (hl : s.mbcfg.leftValid = true) : s.checkGuard body = body s := by simp [State.checkGuard, ha, hl]

theorem checkMode_legal (s : State) (body : State → State) (h : s.mbcfg.mode ≠ 3) :
    s.checkMode body = body s := by
  unfold State.checkMode
  rw [if_neg h]

theorem mem_sweepPositions (t : BitVec 2) (e i : Nat) :
    i ∈ sweepPositions t e ↔ firstPos t ≤ i ∧ i < e := by
  simp only [sweepPositions, List.mem_reverse, List.mem_range']
  constructor
  · rintro ⟨k, hk, rfl⟩; omega
  · rintro ⟨h1, h2⟩; exact ⟨i - firstPos t, by omega, by omega⟩

theorem badLevelAt_iff (s : State) (b i : Nat) :
    s.badLevelAt b i = true ↔ s.levelScan b i < -2048 ∨ 2047 < s.levelScan b i := by
  simp only [State.badLevelAt, Bool.and_eq_true, Bool.or_eq_true, decide_eq_true_eq]
  omega

/-- `CHECK_BLOCK` passes exactly when EOB is at most 16 and every level of the optimized range is in −2048..2047. -/
theorem checkBlock_none_iff (s : State) (b : Nat) (t : BitVec 2) :
    s.checkBlock b t = none ↔ (s.eobAt b).toNat ≤ 16 ∧
      ∀ i, firstPos t ≤ i → i < (s.eobAt b).toNat → -2048 ≤ s.levelScan b i ∧ s.levelScan b i ≤ 2047 := by
  unfold State.checkBlock
  by_cases he : 16 < (s.eobAt b).toNat
  · simp only [he, if_true, reduceCtorEq, false_iff]
    omega
  · simp only [he, if_false]
    constructor
    · intro h
      refine ⟨by omega, fun i h1 h2 => ?_⟩
      split at h
      · simp at h
      · rename_i hf
        have := List.find?_eq_none.mp hf i ((mem_sweepPositions t _ i).mpr ⟨h1, h2⟩)
        rw [badLevelAt_iff] at this
        omega
    · rintro ⟨-, h⟩
      have : (sweepPositions t (s.eobAt b).toNat).find? (s.badLevelAt b) = none := by
        rw [List.find?_eq_none]
        intro i hi
        rw [badLevelAt_iff]
        have := h i ((mem_sweepPositions t _ i).mp hi).1 ((mem_sweepPositions t _ i).mp hi).2
        omega
      rw [this]

theorem firstFailure_none_iff (s : State) (list : List (Nat × BitVec 2)) :
    s.firstFailure list = none ↔ ∀ bt ∈ list, s.checkBlock bt.1 bt.2 = none := by
  induction list with
  | nil => simp [State.firstFailure]
  | cons bt list ih =>
    simp only [State.firstFailure, List.mem_cons, forall_eq_or_imp]
    cases h : s.checkBlock bt.1 bt.2 <;> simp [ih]

/-- `CHECK_BLOCK` reads only the epoch, EOB and QCOEFF. -/
theorem checkBlock_congr (s s' : State) (b : Nat) (t : BitVec 2) (he : s'.eobAt b = s.eobAt b)
    (hq : ∀ i, s'.levelScan b i = s.levelScan b i) : s'.checkBlock b t = s.checkBlock b t := by
  have : s'.badLevelAt b = s.badLevelAt b := by
    funext i
    simp [State.badLevelAt, hq]
  simp [State.checkBlock, he, this]

/-! ### Residuals -/

theorem collect_residual (s : State) (js : List Nat) (w : Bool) :
    (collect s.residual js).run w =
      (js.map fun j => (j, ((s.srcAt j).toNat : Int) - ((s.predAt j).toNat : Int)), w) := by
  have h1 : ∀ j w, (s.residual j).run w = ((j, ((s.srcAt j).toNat : Int) - ((s.predAt j).toNat : Int)), w) := by
    intro j w
    unfold State.residual
    have ha := (s.srcAt j).isLt
    have hb := (s.predAt j).isLt
    rw [Arith.run_bind, trunc16_run_of_range w (by omega) (by omega), Arith.run_pure]
  induction js generalizing w with
  | nil => rfl
  | cons j js ih => simp only [collect, Arith.run_bind, Arith.run_pure, h1, ih, List.map_cons]

/-- Residuals write DIFF only; WRAP is not set (40_residual R131). -/
theorem residuals_frame (s : State) (js : List Nat) :
    s.residuals js = { s with diff := (s.residuals js).diff } := by
  unfold State.residuals
  simp only [calc_eq, collect_residual]
  rfl

/-- The residuals as stored. -/
theorem residuals_diff (s : State) (js : List Nat) :
    (s.residuals js).diff =
      s.diff.putAll (js.map fun j => (j, ((s.srcAt j).toNat : Int) - ((s.predAt j).toNat : Int))) := by
  unfold State.residuals
  simp only [calc_eq, collect_residual]

theorem residuals_diffAt_mem (s : State) {js : List Nat} (hd : js.Nodup) {j : Nat} (h : j ∈ js) :
    ((s.residuals js).diffAt j).toInt = ((s.srcAt j).toNat : Int) - ((s.predAt j).toNat : Int) := by
  have ha := (s.srcAt j).isLt
  have hb := (s.predAt j).isLt
  unfold State.diffAt
  rw [State.elem_congr s _ _ _ _ (by rw [residuals_frame]), residuals_diff,
    State.elem_putAll_mem s s.diff _ _ (by simpa [List.map_map, Function.comp_def] using hd)
      (List.mem_map.mpr ⟨j, h, rfl⟩), toInt_ofInt_narrow, narrow16_of_range (by omega) (by omega)]

theorem residuals_diffAt_other (s : State) {js : List Nat} {j : Nat} (h : j ∉ js) :
    (s.residuals js).diffAt j = s.diffAt j := by
  unfold State.diffAt
  rw [State.elem_congr s _ _ _ _ (by rw [residuals_frame]), residuals_diff, State.elem_putAll_other]
  intro u hu
  obtain ⟨k, hk, rfl⟩ := List.mem_map.mp hu
  exact fun hkj => h (hkj ▸ hk)

/-! ### Transforms -/

/-- Storing a block writes COEFF, and WRAP. -/
theorem storeCoeff_frame (s : State) (b : Nat) (out : Block × Bool) :
    s.storeCoeff b out = { s with
      coeff := (s.storeCoeff b out).coeff, status := { s.status with wrap := out.2 } } := by
  simp only [State.storeCoeff, State.withWrap]

theorem storeCoeff_coeff (s : State) (b : Nat) (out : Block × Bool) :
    (s.storeCoeff b out).coeff =
      s.coeff.putAll ((List.range 16).zipWith (fun k v => (b * 16 + k, v)) out.1.toList) := by
  simp only [State.storeCoeff, State.withWrap]

/-- What a command that writes COEFF and WRAP leaves: everything else. -/
def State.CoeffFrame (s t : State) : Prop :=
  t = { s with coeff := t.coeff, status := { s.status with wrap := t.status.wrap } }

theorem coeffFrame_refl (s : State) : s.CoeffFrame s := rfl

theorem coeffFrame_trans {s t u : State} (h1 : s.CoeffFrame t) (h2 : t.CoeffFrame u) : s.CoeffFrame u := by
  unfold State.CoeffFrame at *
  rw [h2, h1]

theorem storeCoeff_coeffFrame (s : State) (b : Nat) (out : Block × Bool) :
    s.CoeffFrame (s.storeCoeff b out) := by
  unfold State.CoeffFrame
  rw [storeCoeff_frame]

theorem fdctBlock_frame (s : State) (b : Nat) : s.CoeffFrame (s.fdctBlock b) := by
  unfold State.fdctBlock
  exact storeCoeff_coeffFrame _ _ _

theorem walsh_frame (s : State) : s.CoeffFrame s.walsh := by
  unfold State.walsh
  exact storeCoeff_coeffFrame _ _ _

theorem fdctPair_frame (s : State) (b : Nat) : s.CoeffFrame (s.fdctPair b) :=
  coeffFrame_trans (fdctBlock_frame s b) (fdctBlock_frame _ _)

theorem fdctPairs_cons (s : State) (b : Nat) (bs : List Nat) :
    s.fdctPairs (b :: bs) = (s.fdctPair b).fdctPairs bs := by
  simp only [State.fdctPairs, List.foldl_cons]

theorem fdctPairs_frame (s : State) (bs : List Nat) : s.CoeffFrame (s.fdctPairs bs) := by
  induction bs generalizing s with
  | nil => exact coeffFrame_refl s
  | cons b bs ih =>
    rw [fdctPairs_cons]
    exact coeffFrame_trans (fdctPair_frame s b) (ih (s.fdctPair b))

/-- BUILD_DC writes DIFF only. -/
theorem buildDc_frame (s : State) : s.buildDc = { s with diff := s.buildDc.diff } := by
  simp only [State.buildDc]

theorem buildDc_diff (s : State) :
    s.buildDc.diff = s.diff.putAll s.lumaDcs := by
  simp only [State.buildDc]

theorem State.lumaDcs_mem (s : State) {i : Nat} (hi : i < 16) :
    (384 + i, (s.coeffAt (i * 16)).toInt) ∈ s.lumaDcs := by
  unfold State.lumaDcs
  exact List.mem_map.mpr ⟨i, by simpa using hi, rfl⟩

theorem zipWith_range_eq (b : Nat) (xs : List Int) (h : xs.length = 16) :
    (List.range 16).zipWith (fun k v => (b * 16 + k, v)) xs =
      (List.range 16).map fun k => (b * 16 + k, xs.getD k 0) := by
  match xs, h with
  | [_, _, _, _, _, _, _, _, _, _, _, _, _, _, _, _], _ => rfl

theorem Block.toList_length (m : Block) : m.toList.length = 16 := rfl

theorem storeCoeff_keys (b : Nat) (xs : List Int) (h : xs.length = 16) :
    ((List.range 16).zipWith (fun k v => (b * 16 + k, v)) xs).map Prod.fst =
      (List.range 16).map fun k => b * 16 + k := by
  rw [zipWith_range_eq b xs h]
  rfl

theorem block_keys_nodup (b : Nat) : ((List.range 16).map fun k => b * 16 + k).Nodup :=
  List.Nodup.map (fun _ _ h => by simpa using h) List.nodup_range

/-- Coefficient `k` of the stored block. -/
theorem storeCoeff_mem (s : State) (b : Nat) (out : Block × Bool) {k : Nat} (hk : k < 16) :
    (s.storeCoeff b out).coeffAt (b * 16 + k) = BitVec.ofInt 16 (out.1.toList.getD k 0) := by
  unfold State.coeffAt
  rw [State.elem_congr s (s.storeCoeff b out) _ _ _ (by rw [storeCoeff_frame]), storeCoeff_coeff]
  refine State.elem_putAll_mem s s.coeff _ _ ?_ ?_
  · rw [storeCoeff_keys b _ (Block.toList_length _)]
    exact block_keys_nodup b
  · rw [zipWith_range_eq b _ (Block.toList_length _)]
    exact List.mem_map.mpr ⟨k, by simpa using hk, rfl⟩

/-- A coefficient of another block is as before. -/
theorem storeCoeff_other (s : State) (b : Nat) (out : Block × Bool) {j : Nat} (hj : j / 16 ≠ b) :
    (s.storeCoeff b out).coeffAt j = s.coeffAt j := by
  unfold State.coeffAt
  rw [State.elem_congr s (s.storeCoeff b out) _ _ _ (by rw [storeCoeff_frame]), storeCoeff_coeff]
  refine State.elem_putAll_other s s.coeff _ _ fun u hu h => hj ?_
  rw [zipWith_range_eq b _ (Block.toList_length _)] at hu
  obtain ⟨k, hk, rfl⟩ := List.mem_map.mp hu
  simp only [List.mem_range] at hk
  simp only at h
  omega

theorem buildDc_diffAt_mem (s : State) {i : Nat} (hi : i < 16) :
    s.buildDc.diffAt (384 + i) = s.coeffAt (i * 16) := by
  unfold State.diffAt
  rw [State.elem_congr s s.buildDc _ _ _ (by rw [buildDc_frame]), buildDc_diff]
  rw [State.elem_putAll_mem s s.diff _ _ ?_ (State.lumaDcs_mem s hi)]
  · exact BitVec.ofInt_toInt
  · rw [State.lumaDcs, List.map_map]
    exact List.Nodup.map (fun _ _ h => by simpa using h) List.nodup_range

theorem buildDc_diffAt_other (s : State) {j : Nat} (hj : j < 384 ∨ 400 ≤ j) :
    s.buildDc.diffAt j = s.diffAt j := by
  unfold State.diffAt
  rw [State.elem_congr s s.buildDc _ _ _ (by rw [buildDc_frame]), buildDc_diff]
  refine State.elem_putAll_other s s.diff _ _ fun u hu h => ?_
  rw [State.lumaDcs] at hu
  obtain ⟨k, hk, rfl⟩ := List.mem_map.mp hu
  simp only [List.mem_range] at hk
  simp only at h
  omega

/-! ### Dequantizer -/

theorem dequantBlock_frame (s : State) (b : Nat) (t : BitVec 2) :
    s.dequantBlock b t = { s with
      dqcoeff := (s.dequantBlock b t).dqcoeff
      status := { s.status with wrap := (s.dequantBlock b t).status.wrap } } := by
  simp only [State.dequantBlock, State.withWrap]

theorem collect_dequantized (s : State) (b : Nat) (t : BitVec 2) (is : List Nat) (w : Bool) :
    (collect (s.dequantized b t) is).run w =
      (is.map fun i => (b * 16 + zz i, narrow 16 (s.levelScan b i * s.deqAt t i)),
        w || is.any fun i =>
          decide (narrow 16 (s.levelScan b i * s.deqAt t i) ≠ s.levelScan b i * s.deqAt t i)) := by
  induction is generalizing w with
  | nil =>
    show ([], w) = _
    simp
  | cons i is ih =>
    have h1 : (s.dequantized b t i).run w =
        ((b * 16 + zz i, narrow 16 (s.levelScan b i * s.deqAt t i)),
          w || decide (narrow 16 (s.levelScan b i * s.deqAt t i) ≠ s.levelScan b i * s.deqAt t i)) := by
      unfold State.dequantized dqProduct trunc16
      rw [Arith.run_bind, Arith.run_pure, narrowing_run]
    simp only [collect, Arith.run_bind, Arith.run_pure, h1, ih, List.map_cons, List.any_cons, Bool.or_assoc]

theorem scan_keys_nodup (b : Nat) {is : List Nat} (hd : is.Nodup) (hlt : ∀ i ∈ is, i < 16) :
    (is.map fun i => b * 16 + zz i).Nodup := by
  refine List.Nodup.map_on (fun i hi j hj h => ?_) hd
  exact zz_injective (hlt i hi) (hlt j hj) (by omega)

/-! ### Optimization -/

/-- OPTIMIZE writes QCOEFF, DQCOEFF, EOB, the working context and WRAP. -/
theorem optimize_frame (s : State) (b : Nat) (t : BitVec 2) :
    s.optimize b t = { s with
      qcoeff := (s.optimize b t).qcoeff
      dqcoeff := (s.optimize b t).dqcoeff
      eob := (s.optimize b t).eob
      wctxAbove := (s.optimize b t).wctxAbove
      wctxLeft := (s.optimize b t).wctxLeft
      status := { s.status with wrap := (s.optimize b t).status.wrap } } := by
  simp only [State.optimize, State.writeContext, State.withWrap]

theorem optimizeAll_cons (s : State) (bt : Nat × BitVec 2) (list : List (Nat × BitVec 2)) :
    s.optimizeAll (bt :: list) = (s.optimize bt.1 bt.2).optimizeAll list := by
  simp only [State.optimizeAll, List.foldl_cons]

theorem optimizeAll_frame (s : State) (list : List (Nat × BitVec 2)) :
    s.optimizeAll list = { s with
      qcoeff := (s.optimizeAll list).qcoeff
      dqcoeff := (s.optimizeAll list).dqcoeff
      eob := (s.optimizeAll list).eob
      wctxAbove := (s.optimizeAll list).wctxAbove
      wctxLeft := (s.optimizeAll list).wctxLeft
      status := { s.status with wrap := (s.optimizeAll list).status.wrap } } := by
  induction list generalizing s with
  | nil => rfl
  | cons bt list ih =>
    rw [optimizeAll_cons, ih (s.optimize bt.1 bt.2)]
    generalize hu : s.optimize bt.1 bt.2 = u
    have hf := optimize_frame s bt.1 bt.2
    rw [hu] at hf
    rw [hf]

/-- The winning path an optimization of block `b` replays. -/
def State.path (s : State) (b : Nat) (t : BitVec 2) : List (Nat × Int) :=
  ((s.winningPath b t).run s.status.wrap).1

theorem path_ok (s : State) (b : Nat) (t : BitVec 2) :
    s.PathOk b t (firstPos t) (s.eobAt b).toNat (s.path b t) := winningPath_ok s b t _

theorem optimize_qcoeff (s : State) (b : Nat) (t : BitVec 2) :
    (s.optimize b t).qcoeff = s.qcoeff.putAll ((s.path b t).map fun jx => (b * 16 + zz jx.1, jx.2)) := by
  unfold State.optimize State.path
  simp only [State.writeContext_qcoeff, calc_eq, replay_fst]

theorem optimize_dqcoeff (s : State) (b : Nat) (t : BitVec 2) :
    (s.optimize b t).dqcoeff = s.dqcoeff.putAll
      ((s.path b t).map fun jx => (b * 16 + zz jx.1, narrow 16 (jx.2 * s.deqAt t jx.1))) := by
  unfold State.optimize State.path
  simp only [State.writeContext_dqcoeff, calc_eq, replay_snd]

theorem optimize_eob (s : State) (b : Nat) (t : BitVec 2) :
    (s.optimize b t).eob =
      if keepsEob s.ctrl.eobClamp t (s.eobAt b).toNat then s.eob
      else s.eob.put b (BitVec.ofNat 8
        (finalEob s.ctrl.eobClamp t (s.eobAt b).toNat (s.path b t))) := by
  unfold State.optimize State.path
  simp only [State.writeContext_eob, calc_eq, replay_fst]

theorem optimize_context (s : State) (b : Nat) (t : BitVec 2) :
    (s.optimize b t).wctxAbove =
        setFlag s.wctxAbove (aboveIndex b)
          (decide (finalEob s.ctrl.eobClamp t (s.eobAt b).toNat (s.path b t) ≠ firstPos t)) ∧
      (s.optimize b t).wctxLeft =
        setFlag s.wctxLeft (leftIndex b)
          (decide (finalEob s.ctrl.eobClamp t (s.eobAt b).toNat (s.path b t) ≠ firstPos t)) := by
  unfold State.optimize State.path
  simp only [State.writeContext_wctxAbove, State.writeContext_wctxLeft, State.withWrap_wctxAbove,
    State.withWrap_wctxLeft, calc_eq, replay_fst, and_self]

/-- The final EOB is at most the larger of the initial EOB and the first included position. -/
theorem finalEob_le (s : State) (b : Nat) (t : BitVec 2) (clamp : Bool) :
    finalEob clamp t (s.eobAt b).toNat (s.path b t) ≤ max (firstPos t) (s.eobAt b).toNat := by
  unfold finalEob
  split
  · exact le_max_right _ _
  · rcases replayEob_cases (firstPos t) (s.path b t) with h | ⟨jx, hjx, -, h⟩
    · rw [h]; exact le_max_left _ _
    · have := (path_ok s b t).1 ▸ List.mem_map.mpr ⟨jx, hjx, rfl⟩
      have := (nonzeroPositions_below s b _ _ this).2.1
      rw [h]
      exact le_max_of_le_right this

theorem setFlag_get (row : Flags9) (k i : Nat) (f : Bool) (hk : k < 9) (hi : i < 9) :
    (setFlag row k f).getLsbD i = if i = k then f else row.getLsbD i := by
  unfold setFlag
  by_cases h : i = k
  · subst h
    cases f <;> simp [hi]
  · cases f <;> simp [h, hi]

theorem aboveIndex_lt (b : Nat) : aboveIndex b < 9 := by
  unfold aboveIndex
  split_ifs <;> omega

theorem leftIndex_lt {b : Nat} (h : b < 25) : leftIndex b < 9 := by
  unfold leftIndex
  split_ifs <;> omega

end Sys2Proof.Machine
end

