-- ==== Sys2Proof/Laws/Window.lean ====
section
/-! SUPPORT. The window: what a whole-word access does, the address map inverted, and what one write changes. -/

namespace Sys2Proof.Machine

/-! ### Accesses -/

/-- A whole-word access inside the window is performed at its offset. -/
theorem access_word (s : State) (addr off : Nat) (f : Nat → State) (h : s.WordAt addr off) :
    s.access addr 32 f = .next (f off) := by
  obtain ⟨rfl, h1, h2⟩ := h
  simp [State.access, State.inWindow, State.wholeWord, h1, h2]

theorem hostWrite_word (s : State) (addr off : Nat) (v : Word) (h : s.WordAt addr off) :
    s.hostWrite addr 32 v = .next (s.writeWindow off v) := access_word s addr off _ h

theorem hostRead_word (s : State) (addr off : Nat) (h : s.WordAt addr off) :
    s.hostRead addr 32 = .next (s.readWindow off) := access_word s addr off _ h

theorem wordAt_base (s : State) {off : Nat} (h1 : off < 0x10000) (h2 : off % 4 = 0) :
    s.WordAt (s.params.base + off) off := ⟨rfl, h1, h2⟩

theorem writeWindow_idle (s : State) (off : Nat) (v : Word) (h : s.latch = none) :
    s.writeWindow off v = { s.writeLoc (locate off) v with reply := some .taken } := by
  simp [State.writeWindow, State.busy, h]

theorem writeWindow_busy (s : State) (off : Nat) (v : Word) (h : s.latch.isSome = true) :
    s.writeWindow off v = { s.writeBusy (locate off) v with reply := some .taken } := by
  simp [State.writeWindow, State.busy, h]

theorem clearWith_cleared (st : Status) (w : Word) : st.clearWith w = st.cleared w := by
  simp [Status.clearWith, Status.cleared, Bool.and_comm]

/-! ### The address map inverted -/

/-- The offset of a register (10_state R33..R43). -/
def Reg.offset : Reg → Nat
  | .id => 0x000
  | .ctrl => 0x004
  | .status => 0x008
  | .cmd => 0x00C
  | .mbcfg => 0x010
  | .rdmult => 0x014
  | .rddiv => 0x018
  | .version => 0x01C
  | .prm t => 0x020 + 4 * t.val
  | .ctxAbove => 0x030
  | .ctxLeft => 0x034
  | .wctxAbove => 0x038
  | .wctxLeft => 0x03C
  | .errinfo => 0x040

/-- The offset of what stands at a location; a reserved location has many, and gets 0xC000 (20_memory R70). -/
def Loc.offset : Loc → Nat
  | .reg r => r.offset
  | .src j => 0x0400 + 4 * j
  | .pred j => 0x0A00 + 4 * j
  | .diff j => 0x1000 + 4 * j
  | .coeff j => 0x2000 + 4 * j
  | .qcoeff j => 0x3000 + 4 * j
  | .dqcoeff j => 0x4000 + 4 * j
  | .eob b => 0x4800 + 4 * b
  | .deq j => 0x4900 + 4 * j
  | .tc j => 0x5000 + 4 * j
  | .vc j => 0x8000 + 4 * j
  | .reserved => 0xC000

/-- The element index is inside its array (10_state R45). -/
def Loc.InArray : Loc → Prop
  | .reg _ => True
  | .src j => j < 384
  | .pred j => j < 384
  | .diff j => j < 400
  | .coeff j => j < 400
  | .qcoeff j => j < 400
  | .dqcoeff j => j < 400
  | .eob b => b < 25
  | .deq j => j < 64
  | .tc j => j < 1152
  | .vc j => j < 4096
  | .reserved => True

theorem regOfIndex_offset (k : Nat) : regOfIndex k = .reserved ∨ (regOfIndex k).offset = 4 * k := by
  by_cases h : k < 17
  · right
    interval_cases k <;> rfl
  · left
    obtain ⟨n, rfl⟩ : ∃ n, k = n + 17 := ⟨k - 17, by omega⟩
    rfl

theorem regOfIndex_inArray (k : Nat) : (regOfIndex k).InArray := by
  by_cases h : k < 17
  · interval_cases k <;> trivial
  · obtain ⟨n, rfl⟩ : ∃ n, k = n + 17 := ⟨k - 17, by omega⟩
    trivial

theorem ite_elim {α : Type} (P : α → Prop) {c : Prop} [Decidable c] {a b : α} (h1 : c → P a)
    (h2 : ¬c → P b) : P (if c then a else b) := by
  by_cases h : c
  · rw [if_pos h]; exact h1 h
  · rw [if_neg h]; exact h2 h

/-- What a property of locations comes to on the map: one case per range (20_memory R70). -/
theorem locate_cases (P : Loc → Prop) (off : Nat) (hreg : off < 0x400 → P (regOfIndex (off / 4)))
    (hsrc : 0x400 ≤ off → off < 0xA00 → P (.src ((off - 0x0400) / 4)))
    (hpred : 0xA00 ≤ off → off < 0x1000 → P (.pred ((off - 0x0A00) / 4)))
    (hdiff : 0x1000 ≤ off → off < 0x1640 → P (.diff ((off - 0x1000) / 4)))
    (hcoeff : 0x2000 ≤ off → off < 0x2640 → P (.coeff ((off - 0x2000) / 4)))
    (hqcoeff : 0x3000 ≤ off → off < 0x3640 → P (.qcoeff ((off - 0x3000) / 4)))
    (hdqcoeff : 0x4000 ≤ off → off < 0x4640 → P (.dqcoeff ((off - 0x4000) / 4)))
    (heob : 0x4800 ≤ off → off < 0x4864 → P (.eob ((off - 0x4800) / 4)))
    (hdeq : 0x4900 ≤ off → off < 0x4A00 → P (.deq ((off - 0x4900) / 4)))
    (htc : 0x5000 ≤ off → off < 0x6200 → P (.tc ((off - 0x5000) / 4)))
    (hvc : 0x8000 ≤ off → off < 0xC000 → P (.vc ((off - 0x8000) / 4)))
    (hres : ReservedOffset off ∨ 0x10000 ≤ off → P .reserved) : P (locate off) :=
  ite_elim P (fun h => hreg h) fun h0 =>
  ite_elim P (fun h => hsrc (by omega) h) fun h1 =>
  ite_elim P (fun h => hpred (by omega) h) fun h2 =>
  ite_elim P (fun h => hdiff (by omega) h) fun h3 =>
  ite_elim P (fun h => hres (by omega)) fun h4 =>
  ite_elim P (fun h => hcoeff (by omega) h) fun h5 =>
  ite_elim P (fun h => hres (by omega)) fun h6 =>
  ite_elim P (fun h => hqcoeff (by omega) h) fun h7 =>
  ite_elim P (fun h => hres (by omega)) fun h8 =>
  ite_elim P (fun h => hdqcoeff (by omega) h) fun h9 =>
  ite_elim P (fun h => hres (by omega)) fun h10 =>
  ite_elim P (fun h => heob (by omega) h) fun h11 =>
  ite_elim P (fun h => hres (by omega)) fun h12 =>
  ite_elim P (fun h => hdeq (by omega) h) fun h13 =>
  ite_elim P (fun h => hres (by omega)) fun h14 =>
  ite_elim P (fun h => htc (by omega) h) fun h15 =>
  ite_elim P (fun h => hres (by omega)) fun h16 =>
  ite_elim P (fun h => hvc (by omega) h) fun h17 =>
  hres (by omega)

/-- An aligned offset is reserved, or the offset of what stands there. -/
theorem locate_offset (off : Nat) (h : off % 4 = 0) :
    locate off = .reserved ∨ (locate off).offset = off := by
  refine locate_cases (fun l => l = .reserved ∨ l.offset = off) off (fun h1 => ?_) ?_ ?_ ?_ ?_ ?_ ?_ ?_ ?_ ?_ ?_
    (fun _ => Or.inl rfl)
  · rcases regOfIndex_offset (off / 4) with h2 | h2
    · exact Or.inl h2
    · right; rw [h2]; omega
  all_goals
    intro h1 h2
    right
    simp only [Loc.offset]
    omega

/-- The map names no element outside its array. -/
theorem locate_inArray (off : Nat) : (locate off).InArray := by
  refine locate_cases Loc.InArray off (fun _ => regOfIndex_inArray _) ?_ ?_ ?_ ?_ ?_ ?_ ?_ ?_ ?_ ?_
    (fun _ => trivial)
  all_goals
    intro h1 h2
    simp only [Loc.InArray]
    omega

/-- Two aligned offsets with the same location that is not reserved are one offset. -/
theorem locate_injective {off off' : Nat} (h : off % 4 = 0) (h' : off' % 4 = 0)
    (he : locate off' = locate off) (hr : locate off ≠ .reserved) : off' = off := by
  have h1 := (locate_offset off h).resolve_left hr
  have h2 := (locate_offset off' h').resolve_left (he ▸ hr)
  rw [← h2, he, h1]

/-! ### Writing an element -/

/-- The location is an element of an array. -/
def Loc.isElement : Loc → Bool
  | .reg _ => false
  | .reserved => false
  | _ => true

/-- The word at an element's own offset is that element. -/
theorem locate_of_offset (L : Loc) (he : L.isElement = true) (hi : L.InArray) : locate L.offset = L := by
  refine locate_cases (fun l => l = L) L.offset ?_ ?_ ?_ ?_ ?_ ?_ ?_ ?_ ?_ ?_ ?_ ?_ <;> cases L <;> first
    | exact absurd he Bool.false_ne_true
    | (simp only [Loc.offset, Loc.InArray] at hi ⊢
       intros
       congr 1
       omega)

/-- An element write gives the element its converted value and changes no other word and no register. -/
theorem writeLoc_element (s : State) (loc : Loc) (v : Word) (h : loc.isElement = true) :
    (s.writeLoc loc v).readLoc loc = loc.fit v ∧ (s.writeLoc loc v).status = s.status ∧
      ∀ loc', loc' ≠ loc → (s.writeLoc loc v).readLoc loc' = s.readLoc loc' := by
  cases loc with
  | reg r => cases h
  | reserved => cases h
  | _ =>
    refine ⟨?_, rfl, fun loc' hne => ?_⟩
    · simp [State.writeLoc, State.readLoc, Loc.fit, State.srcAt, State.predAt, State.diffAt, State.coeffAt,
        State.qcoeffAt, State.dqcoeffAt, State.eobAt, State.deqElem, State.tcElem, State.vcElem, State.elem_put]
    · cases loc' with
      | reg r => cases r <;> rfl
      | reserved => rfl
      | _ =>
        first
        | rfl
        | (rename_i k
           simp only [ne_eq, Loc.src.injEq, Loc.pred.injEq, Loc.diff.injEq, Loc.coeff.injEq, Loc.qcoeff.injEq,
             Loc.dqcoeff.injEq, Loc.eob.injEq, Loc.deq.injEq, Loc.tc.injEq, Loc.vc.injEq] at hne
           simp [State.writeLoc, State.readLoc, State.srcAt, State.predAt, State.diffAt, State.coeffAt,
             State.qcoeffAt, State.dqcoeffAt, State.eobAt, State.deqElem, State.tcElem, State.vcElem,
             hne, State.elem, State.unwritten, Elems.find_put])

/-- The reply is not visible in the window. -/
theorem readLoc_reply (s : State) (r : Option Reply) (loc : Loc) :
    ({ s with reply := r } : State).readLoc loc = s.readLoc loc := by
  cases loc with
  | reg r => cases r <;> rfl
  | _ => rfl

/-! ### The host's turn -/

theorem hostTurn_step (s t : State) (h : s.HostTurn t) : step s = t.hostMove := by
  rcases h with ⟨h, rfl⟩ | ⟨w, n, h, rfl⟩ <;> simp [step, State.advance, State.due, State.countDown, h]

theorem hostTurn_host (s t : State) (h : s.HostTurn t) : t.host = s.host := by
  rcases h with ⟨h, rfl⟩ | ⟨w, n, h, rfl⟩ <;> rfl

theorem step_due (s : State) (w : Word) (n : Nat) (hl : s.latch = some { word := w, left := n }) (hn : n ≤ 1) :
    step s = s.runWord w := by simp [step, State.advance, State.due, hl, hn]

/-- A step runs the due word, or is the host's turn. -/
theorem step_cases (s : State) :
    (∃ w n, s.latch = some { word := w, left := n } ∧ n ≤ 1 ∧ step s = s.runWord w) ∨
      ∃ t, s.HostTurn t ∧ step s = t.hostMove := by
  rcases h : s.latch with _ | ⟨w, n⟩
  · exact Or.inr ⟨s, Or.inl ⟨h, rfl⟩, hostTurn_step s s (Or.inl ⟨h, rfl⟩)⟩
  · by_cases hn : n ≤ 1
    · exact Or.inl ⟨w, n, rfl, hn, step_due s w n h hn⟩
    · obtain ⟨m, rfl⟩ : ∃ m, n = m + 2 := ⟨n - 2, by omega⟩
      exact Or.inr ⟨_, Or.inr ⟨w, m, h, rfl⟩, hostTurn_step s _ (Or.inr ⟨w, m, h, rfl⟩)⟩

/-- One step of a run of any machine behind the host's interface. -/
theorem run_next (M : Host.Core) (k : Nat) (s t : M.State) (h : M.step s = .next t) : M.run (k + 1) s = M.run k t := by
  simp [Host.Core.run, h]

end Sys2Proof.Machine
end

