-- ==== Sys2Proof/Laws/Canonical.lean ====
section
/-! SUPPORT. Every operation that writes an array keeps all arrays in canonical form (log entry 5), given that its
block numbers or indices are the array's. -/

namespace Sys2Proof.Machine

theorem arraysWf_residuals (s : State) (js : List Nat) (hj : ∀ j ∈ js, j < 384) (h : s.ArraysWf) :
    (s.residuals js).ArraysWf := by
  obtain ⟨h1, h2, h3, h4, h5, h6, h7, h8, h9, h10⟩ := h
  have hc : (s.residuals js).diff.wf 400 = true := by
    rw [residuals_diff]
    refine Elems.wf_putAll _ _ ?_ h3
    intro u hu
    obtain ⟨j, hj', hju⟩ := List.mem_map.mp hu
    have := hj j hj'
    have hk := congrArg Prod.fst hju
    dsimp only at hk
    clear hju hu
    omega
  have hf := residuals_frame s js
  generalize s.residuals js = u at hf hc ⊢
  rw [hf]
  exact ⟨h1, h2, hc, h4, h5, h6, h7, h8, h9, h10⟩

theorem arraysWf_complete (s : State) (h : s.ArraysWf) : s.complete.ArraysWf := h

theorem storeCoeff_keys_lt (b : Nat) (out : Block × Bool) (hb : b < 25) :
    ∀ u ∈ (List.range 16).zipWith (fun k v => (b * 16 + k, v)) out.1.toList, u.1 < 400 := by
  intro u hu
  rw [zipWith_range_eq b _ (Block.toList_length _)] at hu
  obtain ⟨j, hj', hju⟩ := List.mem_map.mp hu
  have := List.mem_range.mp hj'
  have hk := congrArg Prod.fst hju
  dsimp only at hk
  clear hju hu
  omega

theorem arraysWf_storeCoeff (s : State) (b : Nat) (out : Block × Bool) (hb : b < 25) (h : s.ArraysWf) :
    (s.storeCoeff b out).ArraysWf := by
  obtain ⟨h1, h2, h3, h4, h5, h6, h7, h8, h9, h10⟩ := h
  have hc : (s.storeCoeff b out).coeff.wf 400 = true := by
    rw [storeCoeff_coeff]
    exact Elems.wf_putAll _ _ (storeCoeff_keys_lt b out hb) h4
  have hf := storeCoeff_frame s b out
  generalize s.storeCoeff b out = u at hf hc ⊢
  rw [hf]
  exact ⟨h1, h2, h3, hc, h5, h6, h7, h8, h9, h10⟩

theorem arraysWf_fdctPairs (s : State) (bs : List Nat) (hb : ∀ b ∈ bs, b < 24) (h : s.ArraysWf) :
    (s.fdctPairs bs).ArraysWf := by
  induction bs generalizing s with
  | nil => exact h
  | cons b bs ih =>
    rw [fdctPairs_cons]
    have := hb b (by simp)
    exact ih _ (fun x hx => hb x (by simp [hx])) (arraysWf_storeCoeff _ _ _ (by omega) (arraysWf_storeCoeff _ _ _ (by omega) h))

theorem arraysWf_buildDc (s : State) (h : s.ArraysWf) : s.buildDc.ArraysWf := by
  obtain ⟨h1, h2, h3, h4, h5, h6, h7, h8, h9, h10⟩ := h
  have hc : s.buildDc.diff.wf 400 = true := by
    rw [buildDc_diff]
    refine Elems.wf_putAll _ _ ?_ h3
    intro u hu
    obtain ⟨j, hj', hju⟩ := List.mem_map.mp hu
    have := List.mem_range.mp hj'
    have hk := congrArg Prod.fst hju
    dsimp only at hk
    clear hju hu
    omega
  have hf := buildDc_frame s
  generalize s.buildDc = u at hf hc ⊢
  rw [hf]
  exact ⟨h1, h2, hc, h4, h5, h6, h7, h8, h9, h10⟩

theorem arraysWf_optimize (s : State) (b : Nat) (t : BitVec 2) (hb : b < 25) (h : s.ArraysWf) :
    (s.optimize b t).ArraysWf := by
  obtain ⟨h1, h2, h3, h4, h5, h6, h7, h8, h9, h10⟩ := h
  have hq : (s.optimize b t).qcoeff.wf 400 = true := by
    rw [optimize_qcoeff]
    refine Elems.wf_putAll _ _ ?_ h5
    intro u hu
    obtain ⟨j, hj', rfl⟩ := List.mem_map.mp hu
    have := zz_lt j.1
    dsimp only
    omega
  have hd : (s.optimize b t).dqcoeff.wf 400 = true := by
    rw [optimize_dqcoeff]
    refine Elems.wf_putAll _ _ ?_ h6
    intro u hu
    obtain ⟨j, hj', rfl⟩ := List.mem_map.mp hu
    have := zz_lt j.1
    dsimp only
    omega
  have he : (s.optimize b t).eob.wf 25 = true := by
    rw [optimize_eob]
    split
    · exact h7
    · exact Elems.wf_put _ _ _ hb h7
  rw [optimize_frame]
  exact ⟨h1, h2, h3, h4, hq, hd, he, h8, h9, h10⟩

theorem arraysWf_optimizeAll (s : State) (l : List (Nat × BitVec 2)) (hb : ∀ b ∈ l, b.1 < 25) (h : s.ArraysWf) :
    (s.optimizeAll l).ArraysWf := by
  induction l generalizing s with
  | nil => exact h
  | cons b bs ih =>
    rw [optimizeAll_cons]
    exact ih _ (fun x hx => hb x (by simp [hx])) (arraysWf_optimize _ _ _ (hb _ (by simp)) h)

theorem dequantBlock_dqcoeff (s : State) (b : Nat) (t : BitVec 2) :
    (s.dequantBlock b t).dqcoeff = s.dqcoeff.putAll (s.calc (collect (s.dequantized b t) (List.range 16))).1 := by
  simp only [State.dequantBlock, State.withWrap]

theorem arraysWf_dequantBlock (s : State) (b : Nat) (t : BitVec 2) (hb : b < 25) (h : s.ArraysWf) :
    (s.dequantBlock b t).ArraysWf := by
  obtain ⟨h1, h2, h3, h4, h5, h6, h7, h8, h9, h10⟩ := h
  have hc : (s.dequantBlock b t).dqcoeff.wf 400 = true := by
    rw [dequantBlock_dqcoeff]
    refine Elems.wf_putAll _ _ ?_ h6
    rw [calc_eq, collect_dequantized]
    intro u hu
    obtain ⟨j, hj', hju⟩ := List.mem_map.mp hu
    have := zz_lt j
    have hk := congrArg Prod.fst hju
    dsimp only at hk
    clear hju hu hj'
    omega
  have hf := dequantBlock_frame s b t
  generalize s.dequantBlock b t = u at hf hc ⊢
  rw [hf]
  exact ⟨h1, h2, h3, h4, h5, hc, h7, h8, h9, h10⟩

/-- A host write to an element of an array keeps it canonical. -/
theorem arraysWf_writeLoc (s : State) (loc : Loc) (v : Word) (hl : loc.isElement = true) (hin : loc.InArray)
    (h : s.ArraysWf) : (s.writeLoc loc v).ArraysWf := by
  obtain ⟨h1, h2, h3, h4, h5, h6, h7, h8, h9, h10⟩ := h
  cases loc with
  | reg r => cases hl
  | reserved => cases hl
  | src j => exact ⟨Elems.wf_put _ _ _ hin h1, h2, h3, h4, h5, h6, h7, h8, h9, h10⟩
  | pred j => exact ⟨h1, Elems.wf_put _ _ _ hin h2, h3, h4, h5, h6, h7, h8, h9, h10⟩
  | diff j => exact ⟨h1, h2, Elems.wf_put _ _ _ hin h3, h4, h5, h6, h7, h8, h9, h10⟩
  | coeff j => exact ⟨h1, h2, h3, Elems.wf_put _ _ _ hin h4, h5, h6, h7, h8, h9, h10⟩
  | qcoeff j => exact ⟨h1, h2, h3, h4, Elems.wf_put _ _ _ hin h5, h6, h7, h8, h9, h10⟩
  | dqcoeff j => exact ⟨h1, h2, h3, h4, h5, Elems.wf_put _ _ _ hin h6, h7, h8, h9, h10⟩
  | eob j => exact ⟨h1, h2, h3, h4, h5, h6, Elems.wf_put _ _ _ hin h7, h8, h9, h10⟩
  | deq j => exact ⟨h1, h2, h3, h4, h5, h6, h7, Elems.wf_put _ _ _ hin h8, h9, h10⟩
  | tc j => exact ⟨h1, h2, h3, h4, h5, h6, h7, h8, Elems.wf_put _ _ _ hin h9, h10⟩
  | vc j => exact ⟨h1, h2, h3, h4, h5, h6, h7, h8, h9, Elems.wf_put _ _ _ hin h10⟩

end Sys2Proof.Machine
end

