-- ==== Sys2Proof/Laws/Exec.lean ====
section
/-! SUPPORT. What a command can do, said once: it ends in error with nothing else changed, or its body changes what its
class of commands may change and it completes. -/

namespace Sys2Proof.Machine

/-- The fields a command's body may change, by class of command (10_state R46), and the sticky flag. -/
structure State.BodyFrame (i : Instr) (s u : State) : Prop where
  eq : u = { s with
    diff := u.diff, coeff := u.coeff, qcoeff := u.qcoeff, dqcoeff := u.dqcoeff, eob := u.eob
    wctxAbove := u.wctxAbove, wctxLeft := u.wctxLeft, ctxAbove := u.ctxAbove, ctxLeft := u.ctxLeft
    status := { s.status with wrap := u.status.wrap } }
  sticky : s.status.wrap = true → u.status.wrap = true
  noWrap : isResidual i = true ∨ i = .buildDc ∨ i = .nop ∨ i = .ctxSnap ∨ i = .ctxCommit →
    u.status.wrap = s.status.wrap
  diff : u.diff = s.diff ∨ isResidual i = true ∨ i = .buildDc ∨ (isLumaXform i = true ∧ s.hasY2 = true)
  coeff : u.coeff = s.coeff ∨ writesCoeff i = true
  qcoeff : u.qcoeff = s.qcoeff ∨ isOptimization i = true
  dqcoeff : u.dqcoeff = s.dqcoeff ∨ isOptimization i = true ∨ ∃ blk pt, i = .dqB blk pt
  eob : u.eob = s.eob ∨ isOptimization i = true
  wctx : (u.wctxAbove = s.wctxAbove ∧ u.wctxLeft = s.wctxLeft) ∨ isOptimization i = true ∨ i = .ctxSnap
  ctx : (u.ctxAbove = s.ctxAbove ∧ u.ctxLeft = s.ctxLeft) ∨ i = .ctxCommit ∨
    (isPass i = true ∧ s.ctrl.ctxCommit = true)

theorem bodyFrame_refl (i : Instr) (s : State) : s.BodyFrame i s where
  eq := rfl
  sticky := id
  noWrap _ := rfl
  diff := .inl rfl
  coeff := .inl rfl
  qcoeff := .inl rfl
  dqcoeff := .inl rfl
  eob := .inl rfl
  wctx := .inl ⟨rfl, rfl⟩
  ctx := .inl ⟨rfl, rfl⟩

/-! ### The sticky flag of the bodies -/

theorem calc_sticky {α : Type} (s : State) {m : Arith α} (hm : Sticky m) (h : s.status.wrap = true) :
    (s.calc m).2 = true := by
  rw [calc_eq, (hm _).2, h, Bool.true_or]

theorem storeCoeff_wrap (s : State) (b : Nat) (out : Block × Bool) :
    (s.storeCoeff b out).status.wrap = out.2 := by simp only [State.storeCoeff, State.withWrap]

theorem fdctBlock_sticky (s : State) (b : Nat) (h : s.status.wrap = true) :
    (s.fdctBlock b).status.wrap = true := by
  unfold State.fdctBlock
  rw [storeCoeff_wrap]
  exact calc_sticky s (sticky_fdct _) h

theorem fdctPairs_sticky (s : State) (bs : List Nat) (h : s.status.wrap = true) :
    (s.fdctPairs bs).status.wrap = true := by
  induction bs generalizing s with
  | nil => exact h
  | cons b bs ih =>
    rw [fdctPairs_cons]
    exact ih _ (fdctBlock_sticky _ _ (fdctBlock_sticky _ _ h))

theorem walsh_sticky (s : State) (h : s.status.wrap = true) : s.walsh.status.wrap = true := by
  unfold State.walsh
  rw [storeCoeff_wrap]
  exact calc_sticky s (sticky_wht _) h

theorem optimize_sticky (s : State) (b : Nat) (t : BitVec 2) (h : s.status.wrap = true) :
    (s.optimize b t).status.wrap = true := by
  unfold State.optimize
  simp only [State.writeContext_status, State.withWrap]
  exact calc_sticky s (sticky_replay s b t) h

theorem optimizeAll_sticky (s : State) (list : List (Nat × BitVec 2)) (h : s.status.wrap = true) :
    (s.optimizeAll list).status.wrap = true := by
  induction list generalizing s with
  | nil => exact h
  | cons bt list ih =>
    rw [optimizeAll_cons]
    exact ih _ (optimize_sticky s _ _ h)

/-! ### Bodies -/

theorem residuals_bodyFrame (i : Instr) (hi : isResidual i = true) (s : State) (js : List Nat) :
    s.BodyFrame i (s.residuals js) := by
  have h := residuals_frame s js
  generalize s.residuals js = u at h
  rw [h]
  exact
    { eq := rfl
      sticky := id
      noWrap := fun _ => rfl
      diff := .inr (.inl hi)
      coeff := .inl rfl
      qcoeff := .inl rfl
      dqcoeff := .inl rfl
      eob := .inl rfl
      wctx := .inl ⟨rfl, rfl⟩
      ctx := .inl ⟨rfl, rfl⟩ }

theorem coeffFrame_bodyFrame (i : Instr) (hi : writesCoeff i = true) (s u : State) (h : s.CoeffFrame u)
    (hw : s.status.wrap = true → u.status.wrap = true) : s.BodyFrame i u := by
  unfold State.CoeffFrame at h
  have hd : u.diff = s.diff := by rw [h]
  have hq : u.qcoeff = s.qcoeff := by rw [h]
  have hdq : u.dqcoeff = s.dqcoeff := by rw [h]
  have he : u.eob = s.eob := by rw [h]
  have hwa : u.wctxAbove = s.wctxAbove := by rw [h]
  have hwl : u.wctxLeft = s.wctxLeft := by rw [h]
  have hca : u.ctxAbove = s.ctxAbove := by rw [h]
  have hcl : u.ctxLeft = s.ctxLeft := by rw [h]
  refine ⟨?_, hw, ?_, .inl hd, .inr hi, .inl hq, .inl hdq, .inl he, .inl ⟨hwa, hwl⟩, .inl ⟨hca, hcl⟩⟩
  · conv => lhs; rw [h]
    rw [hd, hq, hdq, he, hwa, hwl, hca, hcl]
  · cases i <;> simp [writesCoeff] at hi <;> simp [isResidual]

theorem lumaXform_bodyFrame (i : Instr) (hi : isLumaXform i = true) (s u : State)
    (h : u = { s with diff := u.diff, coeff := u.coeff, status := { s.status with wrap := u.status.wrap } })
    (hd : u.diff = s.diff ∨ s.hasY2 = true) (hw : s.status.wrap = true → u.status.wrap = true) :
    s.BodyFrame i u := by
  have hq : u.qcoeff = s.qcoeff := by rw [h]
  have hdq : u.dqcoeff = s.dqcoeff := by rw [h]
  have he : u.eob = s.eob := by rw [h]
  have hwa : u.wctxAbove = s.wctxAbove := by rw [h]
  have hwl : u.wctxLeft = s.wctxLeft := by rw [h]
  have hca : u.ctxAbove = s.ctxAbove := by rw [h]
  have hcl : u.ctxLeft = s.ctxLeft := by rw [h]
  refine ⟨?_, hw, ?_, ?_, .inr ?_, .inl hq, .inl hdq, .inl he, .inl ⟨hwa, hwl⟩, .inl ⟨hca, hcl⟩⟩
  · conv => lhs; rw [h]
    rw [hq, hdq, he, hwa, hwl, hca, hcl]
  · cases i <;> simp [isLumaXform] at hi <;> simp [isResidual]
  · exact hd.imp id fun h => .inr (.inr ⟨hi, h⟩)
  · cases i <;> simp [isLumaXform] at hi <;> rfl

/-- What XFORM_MBY and XFORM_MB leave besides DIFF, COEFF and WRAP. -/
def State.LumaFrame (s u : State) : Prop :=
  u = { s with diff := u.diff, coeff := u.coeff, status := { s.status with wrap := u.status.wrap } }

theorem lumaFrame_refl (s : State) : s.LumaFrame s := rfl

theorem lumaFrame_trans {s t u : State} (h1 : s.LumaFrame t) (h2 : t.LumaFrame u) : s.LumaFrame u := by
  unfold State.LumaFrame at *
  rw [h2, h1]

theorem coeffFrame_lumaFrame {s u : State} (h : s.CoeffFrame u) : s.LumaFrame u := by
  unfold State.CoeffFrame at h
  unfold State.LumaFrame
  have hd : u.diff = s.diff := by rw [h]
  rw [hd]
  exact h

theorem buildDc_lumaFrame (s : State) : s.LumaFrame s.buildDc := by
  unfold State.LumaFrame
  conv => lhs; rw [buildDc_frame]
  rfl

theorem buildDc_wrap (s : State) : s.buildDc.status.wrap = s.status.wrap := by rw [buildDc_frame]

theorem coeffFrame_diff {s u : State} (h : s.CoeffFrame u) : u.diff = s.diff := by
  unfold State.CoeffFrame at h
  rw [h]

/-- The body of XFORM_MBY. -/
theorem xformMby_bodyFrame (s : State) :
    s.BodyFrame .xformMby (if s.hasY2 then (s.fdctPairs lumaPairs).buildDc.walsh else s.fdctPairs lumaPairs) := by
  have h1 := coeffFrame_lumaFrame (fdctPairs_frame s lumaPairs)
  by_cases hy : s.hasY2 = true
  · rw [if_pos hy]
    refine lumaXform_bodyFrame _ rfl s _ ?_ (.inr hy) fun h => ?_
    · exact lumaFrame_trans (lumaFrame_trans h1 (buildDc_lumaFrame _)) (coeffFrame_lumaFrame (walsh_frame _))
    · exact walsh_sticky _ ((buildDc_wrap _).trans (fdctPairs_sticky s _ h))
  · rw [if_neg hy]
    exact lumaXform_bodyFrame _ rfl s _ h1 (.inl (coeffFrame_diff (fdctPairs_frame s lumaPairs)))
      (fdctPairs_sticky s _)

/-- The body of XFORM_MB. -/
theorem xformMb_bodyFrame (s : State) :
    s.BodyFrame .xformMb
      (if s.hasY2 then ((s.fdctPairs lumaPairs).buildDc.fdctPairs chromaPairs).walsh
        else (s.fdctPairs lumaPairs).fdctPairs chromaPairs) := by
  have h1 := coeffFrame_lumaFrame (fdctPairs_frame s lumaPairs)
  by_cases hy : s.hasY2 = true
  · rw [if_pos hy]
    refine lumaXform_bodyFrame _ rfl s _ ?_ (.inr hy) fun h => ?_
    · exact lumaFrame_trans (lumaFrame_trans (lumaFrame_trans h1 (buildDc_lumaFrame _))
        (coeffFrame_lumaFrame (fdctPairs_frame _ _))) (coeffFrame_lumaFrame (walsh_frame _))
    · exact walsh_sticky _ (fdctPairs_sticky _ _ ((buildDc_wrap _).trans (fdctPairs_sticky s _ h)))
  · rw [if_neg hy]
    refine lumaXform_bodyFrame _ rfl s _ (lumaFrame_trans h1 (coeffFrame_lumaFrame (fdctPairs_frame _ _))) (.inl ?_)
      fun h => fdctPairs_sticky _ _ (fdctPairs_sticky s _ h)
    exact (coeffFrame_diff (fdctPairs_frame _ _)).trans (coeffFrame_diff (fdctPairs_frame _ _))

theorem dequantBlock_bodyFrame (blk : BitVec 5) (pt : BitVec 2) (s : State) (b : Nat) (t : BitVec 2) :
    s.BodyFrame (.dqB blk pt) (s.dequantBlock b t) := by
  have h := dequantBlock_frame s b t
  have hw : s.status.wrap = true → (s.dequantBlock b t).status.wrap = true := by
    intro hs
    simp only [State.dequantBlock, State.withWrap]
    exact calc_sticky s (sticky_collect (sticky_dequantized s b t) _) hs
  generalize s.dequantBlock b t = u at h hw
  rw [h]
  exact
    { eq := rfl
      sticky := hw
      noWrap := fun hn => by simp [isResidual] at hn
      diff := .inl rfl
      coeff := .inl rfl
      qcoeff := .inl rfl
      dqcoeff := .inr (.inr ⟨blk, pt, rfl⟩)
      eob := .inl rfl
      wctx := .inl ⟨rfl, rfl⟩
      ctx := .inl ⟨rfl, rfl⟩ }

theorem optimize_bodyFrame (i : Instr) (hi : isOptimization i = true) (s : State) (b : Nat) (t : BitVec 2) :
    s.BodyFrame i (s.optimize b t) := by
  have h := optimize_frame s b t
  have hw := optimize_sticky s b t
  generalize s.optimize b t = u at h hw
  rw [h]
  exact
    { eq := rfl
      sticky := hw
      noWrap := fun hn => by cases i <;> simp [isOptimization] at hi <;> simp [isResidual] at hn
      diff := .inl rfl
      coeff := .inl rfl
      qcoeff := .inr hi
      dqcoeff := .inr (.inl hi)
      eob := .inr hi
      wctx := .inr (.inl hi)
      ctx := .inl ⟨rfl, rfl⟩ }

/-- A pass: SNAP, the optimizations, COMMIT if set. -/
theorem pass_frame (s : State) (list : List (Nat × BitVec 2)) :
    s.pass list = { s with
      qcoeff := (s.pass list).qcoeff
      dqcoeff := (s.pass list).dqcoeff
      eob := (s.pass list).eob
      wctxAbove := (s.pass list).wctxAbove
      wctxLeft := (s.pass list).wctxLeft
      ctxAbove := (s.pass list).ctxAbove
      ctxLeft := (s.pass list).ctxLeft
      status := { s.status with wrap := (s.pass list).status.wrap } } ∧
    (s.ctrl.ctxCommit = false → (s.pass list).ctxAbove = s.ctxAbove ∧ (s.pass list).ctxLeft = s.ctxLeft) ∧
    (s.status.wrap = true → (s.pass list).status.wrap = true) := by
  unfold State.pass
  have hf := optimizeAll_frame s.snap list
  have hw := optimizeAll_sticky s.snap list
  generalize s.snap.optimizeAll list = u at hf hw
  have hc : u.ctrl.ctxCommit = s.ctrl.ctxCommit := by rw [hf]; rfl
  unfold State.commitIfSet
  rw [hc]
  cases s.ctrl.ctxCommit
  · simp only [Bool.false_eq_true, if_false, forall_const]
    refine ⟨?_, ⟨?_, ?_⟩, hw⟩ <;> rw [hf] <;> rfl
  · simp only [if_true, reduceCtorEq, false_imp_iff, true_and]
    refine ⟨?_, hw⟩
    unfold State.commit
    rw [hf]
    rfl

theorem pass_bodyFrame (i : Instr) (hi : isPass i = true) (s : State) (list : List (Nat × BitVec 2)) :
    s.BodyFrame i (s.pass list) := by
  obtain ⟨h, hc, hw⟩ := pass_frame s list
  have ho : isOptimization i = true := by cases i <;> simp [isPass] at hi <;> rfl
  refine ⟨?_, hw, ?_, .inl ?_, .inl ?_, .inr ho, .inr (.inl ho), .inr ho, .inr (.inl ho), ?_⟩
  · conv => lhs; rw [h]
    have h1 : (s.pass list).diff = s.diff := by rw [h]
    have h2 : (s.pass list).coeff = s.coeff := by rw [h]
    rw [h1, h2]
  · cases i <;> simp [isPass] at hi <;> simp [isResidual]
  · rw [h]
  · rw [h]
  · cases hx : s.ctrl.ctxCommit
    · exact .inl (hc hx)
    · exact .inr (.inr ⟨hi, rfl⟩)

/-! ### The commands -/

/-- A result of a command: an error, or a completed body. -/
def State.Ends (i : Instr) (s t : State) : Prop := (∃ f, t = s.raise f) ∨ ∃ u, t = u.complete ∧ s.BodyFrame i u

theorem ends_complete {i : Instr} {s u : State} (h : s.BodyFrame i u) : s.Ends i u.complete := .inr ⟨u, rfl, h⟩

theorem checkBlk_ends {i : Instr} {s : State} (legal : BitVec 5 → Bool) (blk : BitVec 5) {body : State → State}
    (h : s.Ends i (body s)) : s.Ends i (s.checkBlk legal blk body) := by
  unfold State.checkBlk
  split
  · exact h
  · exact .inl ⟨_, rfl⟩

theorem checkGate_ends {i : Instr} {s : State} (g : Bool) {body : State → State} (h : s.Ends i (body s)) :
    s.Ends i (s.checkGate g body) := by
  unfold State.checkGate
  split
  · exact ends_complete (bodyFrame_refl i s)
  · exact h

theorem checkGuard_ends {i : Instr} {s : State} {body : State → State} (h : s.Ends i (body s)) :
    s.Ends i (s.checkGuard body) := by
  unfold State.checkGuard
  split
  · exact h
  · exact ends_complete (bodyFrame_refl i s)

theorem checkMode_ends {i : Instr} {s : State} {body : State → State} (h : s.Ends i (body s)) :
    s.Ends i (s.checkMode body) := by
  unfold State.checkMode
  split
  · exact .inl ⟨_, rfl⟩
  · exact h

theorem checkBlocks_ends {i : Instr} {s : State} (list : List (Nat × BitVec 2)) {body : State → State}
    (h : s.Ends i (body s)) : s.Ends i (s.checkBlocks list body) := by
  unfold State.checkBlocks
  split
  · exact .inl ⟨_, rfl⟩
  · exact h

/-- WHAT A COMMAND CAN DO: it answers a next state, which is the error end or the completion of its body. -/
theorem exec_ends (i : Instr) (s : State) : ∃ t, exec i s = .next t ∧ s.Ends i t := by
  cases i with
  | nop => exact ⟨_, rfl, ends_complete (bodyFrame_refl _ s)⟩
  | subB blk => exact ⟨_, rfl, checkBlk_ends _ _ (ends_complete (residuals_bodyFrame _ rfl s _))⟩
  | subMby => exact ⟨_, rfl, ends_complete (residuals_bodyFrame _ rfl s _)⟩
  | subMbuv => exact ⟨_, rfl, ends_complete (residuals_bodyFrame _ rfl s _)⟩
  | subMb => exact ⟨_, rfl, ends_complete (residuals_bodyFrame _ rfl s _)⟩
  | fdct4x4 blk =>
    exact ⟨_, rfl, checkBlk_ends _ _ (ends_complete
      (coeffFrame_bodyFrame _ rfl s _ (fdctBlock_frame s _) (fdctBlock_sticky s _)))⟩
  | fdct8x4 blk =>
    exact ⟨_, rfl, checkBlk_ends _ _ (ends_complete
      (coeffFrame_bodyFrame _ rfl s _ (fdctPair_frame s _)
        fun h => fdctBlock_sticky _ _ (fdctBlock_sticky s _ h)))⟩
  | buildDc =>
    refine ⟨_, rfl, ends_complete ?_⟩
    have h := buildDc_frame s
    generalize s.buildDc = u at h
    rw [h]
    exact ⟨rfl, id, fun _ => rfl, .inr (.inr (.inl rfl)), .inl rfl, .inl rfl, .inl rfl, .inl rfl,
      .inl ⟨rfl, rfl⟩, .inl ⟨rfl, rfl⟩⟩
  | walsh4x4 =>
    exact ⟨_, rfl, ends_complete (coeffFrame_bodyFrame _ rfl s _ (walsh_frame s) (walsh_sticky s))⟩
  | xformMby => exact ⟨_, rfl, checkMode_ends (ends_complete (xformMby_bodyFrame s))⟩
  | xformMbuv =>
    exact ⟨_, rfl, ends_complete
      (coeffFrame_bodyFrame _ rfl s _ (fdctPairs_frame s _) (fdctPairs_sticky s _))⟩
  | xformMb =>
    refine ⟨_, rfl, checkMode_ends ?_⟩
    have h := xformMb_bodyFrame s
    by_cases hy : s.hasY2 = true
    · simp only [hy, if_true] at h ⊢
      exact ends_complete h
    · simp only [hy, Bool.false_eq_true, if_false] at h ⊢
      exact ends_complete h
  | dqB blk pt => exact ⟨_, rfl, checkBlk_ends _ _ (ends_complete (dequantBlock_bodyFrame blk pt s _ _))⟩
  | optB blk pt g =>
    exact ⟨_, rfl, checkBlk_ends _ _ (checkGate_ends _ (checkBlocks_ends _ (ends_complete
      (optimize_bodyFrame _ rfl s _ _))))⟩
  | optMb g =>
    exact ⟨_, rfl, checkGate_ends _ (checkMode_ends (checkBlocks_ends _ (ends_complete
      (pass_bodyFrame _ rfl s _))))⟩
  | optMby g =>
    exact ⟨_, rfl, checkGate_ends _ (checkGuard_ends (checkMode_ends (checkBlocks_ends _ (ends_complete
      (pass_bodyFrame _ rfl s _)))))⟩
  | optMbuv g =>
    exact ⟨_, rfl, checkGate_ends _ (checkGuard_ends (checkBlocks_ends _ (ends_complete
      (pass_bodyFrame _ rfl s _))))⟩
  | ctxSnap =>
    exact ⟨_, rfl, ends_complete ⟨rfl, id, fun _ => rfl, .inl rfl, .inl rfl, .inl rfl, .inl rfl, .inl rfl,
      .inr (.inr rfl), .inl ⟨rfl, rfl⟩⟩⟩
  | ctxCommit =>
    exact ⟨_, rfl, ends_complete ⟨rfl, id, fun _ => rfl, .inl rfl, .inl rfl, .inl rfl, .inl rfl, .inl rfl,
      .inl ⟨rfl, rfl⟩, .inr (.inl rfl)⟩⟩

theorem exec_next_ends {i : Instr} {s t : State} (h : exec i s = .next t) : s.Ends i t := by
  obtain ⟨u, hu, he⟩ := exec_ends i s
  rw [h] at hu
  cases hu
  exact he

end Sys2Proof.Machine
end

