-- ==== Sys2Proof/Laws/Transform.lean ====
section
/-! SUPPORT. The transforms' passes as values: when a narrowing changes its argument, what one row or column pass
computes, and when it sets STATUS.WRAP (41_transform R150..R156). -/

namespace Sys2Proof.Machine

/-! ### Narrowing -/

theorem fits16_iff (v : Int) : Fits 16 v ↔ -32768 ≤ v ∧ v ≤ 32767 := by
  unfold Fits
  norm_num
  omega

theorem fits32_iff (v : Int) : Fits 32 v ↔ -2147483648 ≤ v ∧ v ≤ 2147483647 := by
  unfold Fits
  norm_num
  omega

theorem narrow_fits (n : Nat) (v : Int) : Fits (n + 1) (narrow (n + 1) v) := by
  unfold narrow Fits
  have h1 := @Int.le_bmod v (2 ^ (n + 1)) (by positivity)
  have h2 := @Int.bmod_lt v (2 ^ (n + 1)) (by positivity)
  simp only [Nat.add_sub_cancel]
  push_cast [pow_succ] at h1 h2 ⊢
  constructor <;> omega

theorem narrow_eq_iff_fits (n : Nat) (v : Int) : narrow (n + 1) v = v ↔ Fits (n + 1) v := by
  constructor
  · intro h
    rw [← h]
    exact narrow_fits n v
  · intro h
    exact narrow_of_range v (by omega) h.1 h.2

theorem narrow16_eq_iff (v : Int) : narrow 16 v = v ↔ -32768 ≤ v ∧ v ≤ 32767 :=
  (narrow_eq_iff_fits 15 v).trans (fits16_iff v)

theorem narrow32_eq_iff (v : Int) : narrow 32 v = v ↔ -2147483648 ≤ v ∧ v ≤ 2147483647 :=
  (narrow_eq_iff_fits 31 v).trans (fits32_iff v)

theorem narrow16_bounds (v : Int) : -32768 ≤ narrow 16 v ∧ narrow 16 v ≤ 32767 := (fits16_iff _).mp (narrow_fits 15 v)

theorem narrow_add_left (n : Nat) (a b : Int) : narrow n (narrow n a + b) = narrow n (a + b) := by
  simp [narrow]

theorem narrow_add_right (n : Nat) (a b : Int) : narrow n (a + narrow n b) = narrow n (a + b) := by
  simp [narrow]

theorem narrow_sub_right (n : Nat) (a b : Int) : narrow n (a - narrow n b) = narrow n (a - b) := by
  simp [narrow]

theorem asr_bounds (v : Int) (n : Nat) (lo hi : Int) :
    (lo ≤ asr v n ∧ asr v n ≤ hi) ↔ lo * 2 ^ n ≤ v ∧ v < (hi + 1) * 2 ^ n := by
  unfold asr
  rw [Int.le_ediv_iff_mul_le (by positivity)]
  have h := @Int.ediv_lt_iff_lt_mul v (hi + 1) (2 ^ n) (by positivity)
  rw [← h]
  constructor <;> rintro ⟨h1, h2⟩ <;> exact ⟨h1, by omega⟩

theorem ind_decide (p : Prop) [Decidable p] : ind (decide p) = if p then 1 else 0 := by
  unfold ind
  by_cases h : p <;> simp [h]

theorem wrap32_run (v : Int) (w : Bool) (h : -2147483648 ≤ v ∧ v ≤ 2147483647) : (wrap32 v).run w = (v, w) :=
  wrap32_run_of_range w h.1 h.2

theorem trunc16_run (v : Int) (w : Bool) (h : -32768 ≤ v ∧ v ≤ 32767) : (trunc16 v).run w = (v, w) :=
  trunc16_run_of_range w h.1 h.2

/-- The value of an s16 element. -/
abbrev S16 (v : Int) : Prop := -32768 ≤ v ∧ v ≤ 32767

/-- Four values of s16 elements. -/
abbrev Quad.S16 (q : Quad) : Prop :=
  Machine.S16 q.x0 ∧ Machine.S16 q.x1 ∧ Machine.S16 q.x2 ∧ Machine.S16 q.x3

theorem s16_toInt (v : Half) : S16 v.toInt := by
  have h1 := v.le_toInt
  have h2 := v.toInt_lt
  norm_num at h1 h2
  exact ⟨by omega, by omega⟩

theorem toInt_ofInt_s16 (v : Int) (h : S16 v) : (BitVec.ofInt 16 v).toInt = v := by
  rw [toInt_ofInt_narrow, narrow16_of_range h.1 h.2]

theorem exists_lt_four (P : Nat → Prop) : (∃ k, k < 4 ∧ P k) ↔ P 0 ∨ P 1 ∨ P 2 ∨ P 3 := by
  constructor
  · rintro ⟨k, hk, h⟩
    interval_cases k
    · exact .inl h
    · exact .inr (.inl h)
    · exact .inr (.inr (.inl h))
    · exact .inr (.inr (.inr h))
  · rintro (h | h | h | h)
    · exact ⟨0, by omega, h⟩
    · exact ⟨1, by omega, h⟩
    · exact ⟨2, by omega, h⟩
    · exact ⟨3, by omega, h⟩

/-- The rounded sum of a row of the forward transform: some narrowing on the way to the stored value changes its
argument exactly when the exact value does not fit 16 bits. -/
theorem rowSum_wraps_iff (X Y k : Int) (hX : -1162328760 ≤ X ∧ X ≤ 1162328760) (hk : 0 ≤ k ∧ k ≤ 60000) :
    (((narrow 32 Y ≠ Y ∨ narrow 32 (X + Y) ≠ X + narrow 32 Y) ∨ narrow 32 (X + Y + k) ≠ narrow 32 (X + Y) + k) ∨
      narrow 16 (asr (narrow 32 (X + Y + k)) 12) ≠ asr (narrow 32 (X + Y + k)) 12) ↔
    ¬ (-32768 ≤ asr (X + Y + k) 12 ∧ asr (X + Y + k) 12 ≤ 32767) := by
  have hb := asr_bounds (X + Y + k) 12 (-32768) 32767
  norm_num at hb
  by_cases h : -32768 ≤ asr (X + Y + k) 12 ∧ asr (X + Y + k) 12 ≤ 32767
  · have h' := hb.mp h
    have e1 : narrow 32 Y = Y := (narrow32_eq_iff _).mpr (by omega)
    have e2 : narrow 32 (X + Y) = X + Y := (narrow32_eq_iff _).mpr (by omega)
    have e3 : narrow 32 (X + Y + k) = X + Y + k := (narrow32_eq_iff _).mpr (by omega)
    have e4 : narrow 16 (asr (X + Y + k) 12) = asr (X + Y + k) 12 := (narrow16_eq_iff _).mpr h
    simp [e1, e2, e3, e4, h]
  · simp only [h, not_false_eq_true, iff_true]
    by_contra hc
    push Not at hc
    obtain ⟨⟨⟨c1, c2⟩, c3⟩, c4⟩ := hc
    rw [c3, c2, c1] at c4
    exact h ((narrow16_eq_iff _).mp c4)

/-- The same for the rounded difference. -/
theorem rowDifference_wraps_iff (X Y k : Int) (hX : -1162328760 ≤ X ∧ X ≤ 1162328760) (hk : 0 ≤ k ∧ k ≤ 60000) :
    (((narrow 32 Y ≠ Y ∨ narrow 32 (X - Y) ≠ X - narrow 32 Y) ∨ narrow 32 (X - Y + k) ≠ narrow 32 (X - Y) + k) ∨
      narrow 16 (asr (narrow 32 (X - Y + k)) 12) ≠ asr (narrow 32 (X - Y + k)) 12) ↔
    ¬ (-32768 ≤ asr (X - Y + k) 12 ∧ asr (X - Y + k) 12 ≤ 32767) := by
  have hb := asr_bounds (X - Y + k) 12 (-32768) 32767
  norm_num at hb
  by_cases h : -32768 ≤ asr (X - Y + k) 12 ∧ asr (X - Y + k) 12 ≤ 32767
  · have h' := hb.mp h
    have e1 : narrow 32 Y = Y := (narrow32_eq_iff _).mpr (by omega)
    have e2 : narrow 32 (X - Y) = X - Y := (narrow32_eq_iff _).mpr (by omega)
    have e3 : narrow 32 (X - Y + k) = X - Y + k := (narrow32_eq_iff _).mpr (by omega)
    have e4 : narrow 16 (asr (X - Y + k) 12) = asr (X - Y + k) 12 := (narrow16_eq_iff _).mpr h
    simp [e1, e2, e3, e4, h]
  · simp only [h, not_false_eq_true, iff_true]
    by_contra hc
    push Not at hc
    obtain ⟨⟨⟨c1, c2⟩, c3⟩, c4⟩ := hc
    rw [c3, c2, c1] at c4
    exact h ((narrow16_eq_iff _).mp c4)

theorem fdctRowStored_zero (a b c d : Int) : fdctRowStored a b c d 0 = narrow 16 ((a + d) * 8 + (b + c) * 8) := rfl
theorem fdctRowStored_one (a b c d : Int) : fdctRowStored a b c d 1 = narrow 16 (asr (narrow 32 ((b - c) * 8 * 2217 + (a - d) * 8 * 5352 + 14500)) 12) := rfl
theorem fdctRowStored_two (a b c d : Int) : fdctRowStored a b c d 2 = narrow 16 ((a + d) * 8 - (b + c) * 8) := rfl
theorem fdctRowStored_three (a b c d : Int) : fdctRowStored a b c d 3 = narrow 16 (asr (narrow 32 ((a - d) * 8 * 2217 - (b - c) * 8 * 5352 + 7500)) 12) := rfl
theorem fdctRowExact_zero (a b c d : Int) : fdctRowExact a b c d 0 = ((a + d) * 8 + (b + c) * 8) := rfl
theorem fdctRowExact_one (a b c d : Int) : fdctRowExact a b c d 1 = (asr (((b - c) * 8 * 2217 + (a - d) * 8 * 5352 + 14500)) 12) := rfl
theorem fdctRowExact_two (a b c d : Int) : fdctRowExact a b c d 2 = ((a + d) * 8 - (b + c) * 8) := rfl
theorem fdctRowExact_three (a b c d : Int) : fdctRowExact a b c d 3 = (asr (((a - d) * 8 * 2217 - (b - c) * 8 * 5352 + 7500)) 12) := rfl

theorem or_shuffle (w a b c d e f g h i j : Prop) : ((((((((((w ∨ a) ∨ b) ∨ c) ∨ d) ∨ e) ∨ f) ∨ g) ∨ h) ∨ i) ∨ j) ↔
    (w ∨ a ∨ (((c ∨ d) ∨ e) ∨ f) ∨ b ∨ ((g ∨ h) ∨ i) ∨ j) := by tauto

/-- One row of 41_transform R151. -/
theorem fdctRow_run (q : Quad) (h : q.S16) (w : Bool) :
    ((fdctRow q).run w).1 = ⟨fdctRowStored q.x0 q.x1 q.x2 q.x3 0, fdctRowStored q.x0 q.x1 q.x2 q.x3 1,
      fdctRowStored q.x0 q.x1 q.x2 q.x3 2, fdctRowStored q.x0 q.x1 q.x2 q.x3 3⟩ ∧
    (((fdctRow q).run w).2 = true ↔ w = true ∨ ∃ k, k < 4 ∧ ¬ Fits 16 (fdctRowExact q.x0 q.x1 q.x2 q.x3 k)) := by
  obtain ⟨i0, i1, i2, i3⟩ := q
  obtain ⟨⟨a0, b0⟩, ⟨a1, b1⟩, ⟨a2, b2⟩, ⟨a3, b3⟩⟩ := h
  simp only at a0 b0 a1 b1 a2 b2 a3 b3
  have e1 : ∀ w, (add32 i0 i3).run w = (i0 + i3, w) := fun w => wrap32_run_of_range w (by omega) (by omega)
  have e2 : ∀ w, (mul32 (i0 + i3) 8).run w = ((i0 + i3) * 8, w) :=
    fun w => wrap32_run_of_range w (by omega) (by omega)
  have e3 : ∀ w, (add32 i1 i2).run w = (i1 + i2, w) := fun w => wrap32_run_of_range w (by omega) (by omega)
  have e4 : ∀ w, (mul32 (i1 + i2) 8).run w = ((i1 + i2) * 8, w) :=
    fun w => wrap32_run_of_range w (by omega) (by omega)
  have e5 : ∀ w, (sub32 i1 i2).run w = (i1 - i2, w) := fun w => wrap32_run_of_range w (by omega) (by omega)
  have e6 : ∀ w, (mul32 (i1 - i2) 8).run w = ((i1 - i2) * 8, w) :=
    fun w => wrap32_run_of_range w (by omega) (by omega)
  have e7 : ∀ w, (sub32 i0 i3).run w = (i0 - i3, w) := fun w => wrap32_run_of_range w (by omega) (by omega)
  have e8 : ∀ w, (mul32 (i0 - i3) 8).run w = ((i0 - i3) * 8, w) :=
    fun w => wrap32_run_of_range w (by omega) (by omega)
  have e9 : ∀ w, (add32 ((i0 + i3) * 8) ((i1 + i2) * 8)).run w = ((i0 + i3) * 8 + (i1 + i2) * 8, w) :=
    fun w => wrap32_run_of_range w (by omega) (by omega)
  have e10 : ∀ w, (sub32 ((i0 + i3) * 8) ((i1 + i2) * 8)).run w = ((i0 + i3) * 8 - (i1 + i2) * 8, w) :=
    fun w => wrap32_run_of_range w (by omega) (by omega)
  have e11 : ∀ w, (mul32 ((i1 - i2) * 8) 2217).run w = ((i1 - i2) * 8 * 2217, w) :=
    fun w => wrap32_run_of_range w (by omega) (by omega)
  have e12 : ∀ w, (mul32 ((i0 - i3) * 8) 2217).run w = ((i0 - i3) * 8 * 2217, w) :=
    fun w => wrap32_run_of_range w (by omega) (by omega)
  unfold fdctRow
  simp only [Arith.run_bind, Arith.run_pure, e1, e2, e3, e4, e5, e6, e7, e8, e9, e10, e11, e12]
  simp only [add32, sub32, mul32, wrap32, trunc16, narrowing_run]
  simp only [narrow_add_left, narrow_add_right, narrow_sub_right]
  rw [fdctRowStored_zero, fdctRowStored_one, fdctRowStored_two, fdctRowStored_three, exists_lt_four, fdctRowExact_zero, fdctRowExact_one, fdctRowExact_two, fdctRowExact_three]
  refine ⟨by with_reducible rfl, ?_⟩
  simp only [fits16_iff, Bool.or_eq_true, decide_eq_true_eq]
  rw [← rowSum_wraps_iff _ _ _ (by omega) (by omega), ← rowDifference_wraps_iff _ _ _ (by omega) (by omega), ← narrow16_eq_iff, ← narrow16_eq_iff]
  exact or_shuffle _ _ _ _ _ _ _ _ _ _ _

theorem fdctColumnExact_zero (a b c d : Int) : fdctColumnExact a b c d 0 = asr (a + d + (b + c) + 7) 4 := rfl
theorem fdctColumnExact_one (a b c d : Int) : fdctColumnExact a b c d 1 = asr ((b - c) * 2217 + (a - d) * 5352 + 12000) 16 + (if a - d ≠ 0 then 1 else 0) := rfl
theorem fdctColumnExact_two (a b c d : Int) : fdctColumnExact a b c d 2 = asr (a + d - (b + c) + 7) 4 := rfl
theorem fdctColumnExact_three (a b c d : Int) : fdctColumnExact a b c d 3 = asr ((a - d) * 2217 - (b - c) * 5352 + 51000) 16 := rfl

/-- One column of 41_transform R152: nothing wraps. -/
theorem fdctColumn_run (q : Quad) (h : q.S16) (w : Bool) :
    (fdctColumn q).run w = (⟨fdctColumnExact q.x0 q.x1 q.x2 q.x3 0, fdctColumnExact q.x0 q.x1 q.x2 q.x3 1,
      fdctColumnExact q.x0 q.x1 q.x2 q.x3 2, fdctColumnExact q.x0 q.x1 q.x2 q.x3 3⟩, w) := by
  obtain ⟨i0, i1, i2, i3⟩ := q
  obtain ⟨⟨a0, b0⟩, ⟨a1, b1⟩, ⟨a2, b2⟩, ⟨a3, b3⟩⟩ := h
  simp only at a0 b0 a1 b1 a2 b2 a3 b3
  have hi : (0:Int) ≤ (if i0 - i3 ≠ 0 then 1 else 0) ∧ (if i0 - i3 ≠ 0 then (1:Int) else 0) ≤ 1 := by split <;> omega
  have k0 := (asr_bounds (i0 + i3 + (i1 + i2) + 7) 4 (-32768) 32767).mpr (by omega)
  have k2 := (asr_bounds (i0 + i3 - (i1 + i2) + 7) 4 (-32768) 32767).mpr (by omega)
  have k1 := (asr_bounds ((i1 - i2) * 2217 + (i0 - i3) * 5352 + 12000) 16 (-32768) 32000).mpr (by omega)
  have k3 := (asr_bounds ((i0 - i3) * 2217 - (i1 - i2) * 5352 + 51000) 16 (-32768) 32767).mpr (by omega)
  have e1 : ∀ w, (add32 i0 i3).run w = (i0 + i3, w) := fun w => wrap32_run _ w (by omega)
  have e3 : ∀ w, (add32 i1 i2).run w = (i1 + i2, w) := fun w => wrap32_run _ w (by omega)
  have e5 : ∀ w, (sub32 i1 i2).run w = (i1 - i2, w) := fun w => wrap32_run _ w (by omega)
  have e7 : ∀ w, (sub32 i0 i3).run w = (i0 - i3, w) := fun w => wrap32_run _ w (by omega)
  have e9 : ∀ w, (add32 (i0 + i3) (i1 + i2)).run w = (i0 + i3 + (i1 + i2), w) := fun w => wrap32_run _ w (by omega)
  have e9' : ∀ w, (add32 (i0 + i3 + (i1 + i2)) 7).run w = (i0 + i3 + (i1 + i2) + 7, w) :=
    fun w => wrap32_run _ w (by omega)
  have e9'' : ∀ w, (trunc16 (asr (i0 + i3 + (i1 + i2) + 7) 4)).run w = _ := fun w => trunc16_run _ w k0
  have e10 : ∀ w, (sub32 (i0 + i3) (i1 + i2)).run w = (i0 + i3 - (i1 + i2), w) := fun w => wrap32_run _ w (by omega)
  have e10' : ∀ w, (add32 (i0 + i3 - (i1 + i2)) 7).run w = (i0 + i3 - (i1 + i2) + 7, w) :=
    fun w => wrap32_run _ w (by omega)
  have e10'' : ∀ w, (trunc16 (asr (i0 + i3 - (i1 + i2) + 7) 4)).run w = _ := fun w => trunc16_run _ w k2
  have e11 : ∀ w, (mul32 (i1 - i2) 2217).run w = ((i1 - i2) * 2217, w) := fun w => wrap32_run _ w (by omega)
  have e12 : ∀ w, (mul32 (i0 - i3) 5352).run w = ((i0 - i3) * 5352, w) := fun w => wrap32_run _ w (by omega)
  have e13 : ∀ w, (add32 ((i1 - i2) * 2217) ((i0 - i3) * 5352)).run w = ((i1 - i2) * 2217 + (i0 - i3) * 5352, w) :=
    fun w => wrap32_run _ w (by omega)
  have e14 : ∀ w, (add32 ((i1 - i2) * 2217 + (i0 - i3) * 5352) 12000).run w = ((i1 - i2) * 2217 + (i0 - i3) * 5352 + 12000, w) :=
    fun w => wrap32_run _ w (by omega)
  have e15 : ∀ w, (add32 (asr ((i1 - i2) * 2217 + (i0 - i3) * 5352 + 12000) 16) (if i0 - i3 ≠ 0 then 1 else 0)).run w = (asr ((i1 - i2) * 2217 + (i0 - i3) * 5352 + 12000) 16 + (if i0 - i3 ≠ 0 then 1 else 0), w) :=
    fun w => wrap32_run _ w (by omega)
  have e16 : ∀ w, (trunc16 (asr ((i1 - i2) * 2217 + (i0 - i3) * 5352 + 12000) 16 + (if i0 - i3 ≠ 0 then 1 else 0))).run w = _ :=
    fun w => trunc16_run _ w (by omega)
  have e21 : ∀ w, (mul32 (i0 - i3) 2217).run w = ((i0 - i3) * 2217, w) := fun w => wrap32_run _ w (by omega)
  have e22 : ∀ w, (mul32 (i1 - i2) 5352).run w = ((i1 - i2) * 5352, w) := fun w => wrap32_run _ w (by omega)
  have e23 : ∀ w, (sub32 ((i0 - i3) * 2217) ((i1 - i2) * 5352)).run w = ((i0 - i3) * 2217 - (i1 - i2) * 5352, w) :=
    fun w => wrap32_run _ w (by omega)
  have e24 : ∀ w, (add32 ((i0 - i3) * 2217 - (i1 - i2) * 5352) 51000).run w = ((i0 - i3) * 2217 - (i1 - i2) * 5352 + 51000, w) :=
    fun w => wrap32_run _ w (by omega)
  have e25 : ∀ w, (trunc16 (asr ((i0 - i3) * 2217 - (i1 - i2) * 5352 + 51000) 16)).run w = _ :=
    fun w => trunc16_run _ w k3
  unfold fdctColumn
  simp only [Arith.run_bind, Arith.run_pure, e1, e3, e5, e7, e9, e9', e9'', e10, e10', e10'', e11, e12, e13, e14, ind_decide, e15, e16, e21, e22, e23, e24, e25, fdctColumnExact_zero, fdctColumnExact_one, fdctColumnExact_two, fdctColumnExact_three]

theorem whtRowExact_zero (a b c d : Int) : whtRowExact a b c d 0 = (a + c) * 4 + (b + d) * 4 + (if (a + c) * 4 ≠ 0 then 1 else 0) := rfl
theorem whtRowExact_one (a b c d : Int) : whtRowExact a b c d 1 = (a - c) * 4 + (b - d) * 4 := rfl
theorem whtRowExact_two (a b c d : Int) : whtRowExact a b c d 2 = (a - c) * 4 - (b - d) * 4 := rfl
theorem whtRowExact_three (a b c d : Int) : whtRowExact a b c d 3 = (a + c) * 4 - (b + d) * 4 := rfl

/-- One row of 41_transform R155. -/
theorem whtRow_run (q : Quad) (h : q.S16) (w : Bool) :
    ((whtRow q).run w).1 = ⟨narrow 16 (whtRowExact q.x0 q.x1 q.x2 q.x3 0), narrow 16 (whtRowExact q.x0 q.x1 q.x2 q.x3 1),
      narrow 16 (whtRowExact q.x0 q.x1 q.x2 q.x3 2), narrow 16 (whtRowExact q.x0 q.x1 q.x2 q.x3 3)⟩ ∧
    (((whtRow q).run w).2 = true ↔ w = true ∨ ∃ k, k < 4 ∧ ¬ Fits 16 (whtRowExact q.x0 q.x1 q.x2 q.x3 k)) := by
  obtain ⟨i0, i1, i2, i3⟩ := q
  obtain ⟨⟨a0, b0⟩, ⟨a1, b1⟩, ⟨a2, b2⟩, ⟨a3, b3⟩⟩ := h
  simp only at a0 b0 a1 b1 a2 b2 a3 b3
  have hi : (0:Int) ≤ (if (i0 + i2) * 4 ≠ 0 then 1 else 0) ∧ (if (i0 + i2) * 4 ≠ 0 then (1:Int) else 0) ≤ 1 := by split <;> omega
  have e1 : ∀ w, (add32 i0 i2).run w = (i0 + i2, w) := fun w => wrap32_run _ w (by omega)
  have e2 : ∀ w, (mul32 (i0 + i2) 4).run w = ((i0 + i2) * 4, w) := fun w => wrap32_run _ w (by omega)
  have e3 : ∀ w, (add32 i1 i3).run w = (i1 + i3, w) := fun w => wrap32_run _ w (by omega)
  have e4 : ∀ w, (mul32 (i1 + i3) 4).run w = ((i1 + i3) * 4, w) := fun w => wrap32_run _ w (by omega)
  have e5 : ∀ w, (sub32 i1 i3).run w = (i1 - i3, w) := fun w => wrap32_run _ w (by omega)
  have e6 : ∀ w, (mul32 (i1 - i3) 4).run w = ((i1 - i3) * 4, w) := fun w => wrap32_run _ w (by omega)
  have e7 : ∀ w, (sub32 i0 i2).run w = (i0 - i2, w) := fun w => wrap32_run _ w (by omega)
  have e8 : ∀ w, (mul32 (i0 - i2) 4).run w = ((i0 - i2) * 4, w) := fun w => wrap32_run _ w (by omega)
  have e9 : ∀ w, (add32 ((i0 + i2) * 4) ((i1 + i3) * 4)).run w = ((i0 + i2) * 4 + (i1 + i3) * 4, w) :=
    fun w => wrap32_run _ w (by omega)
  have e9' : ∀ w, (add32 ((i0 + i2) * 4 + (i1 + i3) * 4) (if (i0 + i2) * 4 ≠ 0 then 1 else 0)).run w = ((i0 + i2) * 4 + (i1 + i3) * 4 + (if (i0 + i2) * 4 ≠ 0 then 1 else 0), w) :=
    fun w => wrap32_run _ w (by omega)
  have e10 : ∀ w, (add32 ((i0 - i2) * 4) ((i1 - i3) * 4)).run w = ((i0 - i2) * 4 + (i1 - i3) * 4, w) :=
    fun w => wrap32_run _ w (by omega)
  have e11 : ∀ w, (sub32 ((i0 - i2) * 4) ((i1 - i3) * 4)).run w = ((i0 - i2) * 4 - (i1 - i3) * 4, w) :=
    fun w => wrap32_run _ w (by omega)
  have e12 : ∀ w, (sub32 ((i0 + i2) * 4) ((i1 + i3) * 4)).run w = ((i0 + i2) * 4 - (i1 + i3) * 4, w) :=
    fun w => wrap32_run _ w (by omega)
  unfold whtRow
  simp only [Arith.run_bind, Arith.run_pure, e1, e2, e3, e4, e5, e6, e7, e8, e9, ind_decide, e9', e10, e11, e12]
  simp only [trunc16, narrowing_run]
  rw [whtRowExact_zero, whtRowExact_one, whtRowExact_two, whtRowExact_three, exists_lt_four, whtRowExact_zero, whtRowExact_one, whtRowExact_two, whtRowExact_three]
  refine ⟨by with_reducible rfl, ?_⟩
  simp only [fits16_iff, ← narrow16_eq_iff, Bool.or_eq_true, decide_eq_true_eq, or_assoc, ne_eq]

theorem whtColumnExact_zero (a b c d : Int) : whtColumnExact a b c d 0 = whtRounded (a + c + (b + d)) := rfl
theorem whtColumnExact_one (a b c d : Int) : whtColumnExact a b c d 1 = whtRounded (a - c + (b - d)) := rfl
theorem whtColumnExact_two (a b c d : Int) : whtColumnExact a b c d 2 = whtRounded (a - c - (b - d)) := rfl
theorem whtColumnExact_three (a b c d : Int) : whtColumnExact a b c d 3 = whtRounded (a + c - (b + d)) := rfl

theorem whtRound_run (x : Int) (h : -131072 ≤ x ∧ x ≤ 131072) (w : Bool) : (whtRound x).run w = (whtRounded x, w) := by
  have hi : (0:Int) ≤ (if x < 0 then 1 else 0) ∧ (if x < 0 then (1:Int) else 0) ≤ 1 := by split <;> omega
  have k := (asr_bounds (x + (if x < 0 then 1 else 0) + 3) 3 (-32768) 32767).mpr (by omega)
  have e1 : ∀ w, (add32 x (if x < 0 then 1 else 0)).run w = (x + (if x < 0 then 1 else 0), w) :=
    fun w => wrap32_run _ w (by omega)
  have e2 : ∀ w, (add32 (x + (if x < 0 then 1 else 0)) 3).run w = (x + (if x < 0 then 1 else 0) + 3, w) :=
    fun w => wrap32_run _ w (by omega)
  have e3 : ∀ w, (trunc16 (asr (x + (if x < 0 then 1 else 0) + 3) 3)).run w = _ := fun w => trunc16_run _ w k
  unfold whtRound whtRounded
  simp only [Arith.run_bind, ind_decide, e1, e2, e3]

/-- One column of 41_transform R156: nothing wraps. -/
theorem whtColumn_run (q : Quad) (h : q.S16) (w : Bool) :
    (whtColumn q).run w = (⟨whtColumnExact q.x0 q.x1 q.x2 q.x3 0, whtColumnExact q.x0 q.x1 q.x2 q.x3 1,
      whtColumnExact q.x0 q.x1 q.x2 q.x3 2, whtColumnExact q.x0 q.x1 q.x2 q.x3 3⟩, w) := by
  obtain ⟨i0, i1, i2, i3⟩ := q
  obtain ⟨⟨a0, b0⟩, ⟨a1, b1⟩, ⟨a2, b2⟩, ⟨a3, b3⟩⟩ := h
  simp only at a0 b0 a1 b1 a2 b2 a3 b3
  have e1 : ∀ w, (add32 i0 i2).run w = (i0 + i2, w) := fun w => wrap32_run _ w (by omega)
  have e3 : ∀ w, (add32 i1 i3).run w = (i1 + i3, w) := fun w => wrap32_run _ w (by omega)
  have e5 : ∀ w, (sub32 i1 i3).run w = (i1 - i3, w) := fun w => wrap32_run _ w (by omega)
  have e7 : ∀ w, (sub32 i0 i2).run w = (i0 - i2, w) := fun w => wrap32_run _ w (by omega)
  have e9 : ∀ w, (add32 (i0 + i2) (i1 + i3)).run w = (i0 + i2 + (i1 + i3), w) := fun w => wrap32_run _ w (by omega)
  have e10 : ∀ w, (add32 (i0 - i2) (i1 - i3)).run w = (i0 - i2 + (i1 - i3), w) := fun w => wrap32_run _ w (by omega)
  have e11 : ∀ w, (sub32 (i0 - i2) (i1 - i3)).run w = (i0 - i2 - (i1 - i3), w) := fun w => wrap32_run _ w (by omega)
  have e12 : ∀ w, (sub32 (i0 + i2) (i1 + i3)).run w = (i0 + i2 - (i1 + i3), w) := fun w => wrap32_run _ w (by omega)
  have r1 : ∀ w, (whtRound (i0 + i2 + (i1 + i3))).run w = _ := fun w => whtRound_run _ (by omega) w
  have r2 : ∀ w, (whtRound (i0 - i2 + (i1 - i3))).run w = _ := fun w => whtRound_run _ (by omega) w
  have r3 : ∀ w, (whtRound (i0 - i2 - (i1 - i3))).run w = _ := fun w => whtRound_run _ (by omega) w
  have r4 : ∀ w, (whtRound (i0 + i2 - (i1 + i3))).run w = _ := fun w => whtRound_run _ (by omega) w
  unfold whtColumn
  simp only [Arith.run_bind, Arith.run_pure, e1, e3, e5, e7, e9, e10, e11, e12, r1, r2, r3, r4, whtColumnExact_zero, whtColumnExact_one, whtColumnExact_two, whtColumnExact_three]

/-- A row pass, from what one row does. -/
theorem rowPass_run (f : Quad → Arith Quad) (g : Int → Int → Int → Int → Nat → Int) (P : Int → Int → Int → Int → Prop)
    (hf : ∀ q, q.S16 → ∀ w, ((f q).run w).1 = ⟨g q.x0 q.x1 q.x2 q.x3 0, g q.x0 q.x1 q.x2 q.x3 1, g q.x0 q.x1 q.x2 q.x3 2, g q.x0 q.x1 q.x2 q.x3 3⟩ ∧
      (((f q).run w).2 = true ↔ w = true ∨ P q.x0 q.x1 q.x2 q.x3))
    (x : Nat → Nat → Int) (hx : ∀ r c, r < 4 → c < 4 → S16 (x r c)) (w : Bool) :
    (((Block.ofFn x).rowPass f).run w).1 = Block.ofFn (rowsOf g x) ∧
    ((((Block.ofFn x).rowPass f).run w).2 = true ↔ w = true ∨ ∃ r, r < 4 ∧ P (x r 0) (x r 1) (x r 2) (x r 3)) := by
  have hq : ∀ r, r < 4 → Quad.S16 ⟨x r 0, x r 1, x r 2, x r 3⟩ := fun r hr =>
    ⟨hx r 0 hr (by omega), hx r 1 hr (by omega), hx r 2 hr (by omega), hx r 3 hr (by omega)⟩
  unfold Block.rowPass
  simp only [Arith.run_bind, Arith.run_pure, Block.ofFn]
  rw [(hf _ (hq 0 (by omega)) w).1, (hf _ (hq 1 (by omega)) _).1, (hf _ (hq 2 (by omega)) _).1, (hf _ (hq 3 (by omega)) _).1]
  refine ⟨rfl, ?_⟩
  rw [(hf _ (hq 3 (by omega)) _).2, (hf _ (hq 2 (by omega)) _).2, (hf _ (hq 1 (by omega)) _).2, (hf _ (hq 0 (by omega)) _).2, exists_lt_four]
  simp only [or_assoc]

/-- A column pass, from what one column does. -/
theorem columnPass_run (f : Quad → Arith Quad) (g : Int → Int → Int → Int → Nat → Int)
    (hf : ∀ q, q.S16 → ∀ w, (f q).run w = (⟨g q.x0 q.x1 q.x2 q.x3 0, g q.x0 q.x1 q.x2 q.x3 1, g q.x0 q.x1 q.x2 q.x3 2, g q.x0 q.x1 q.x2 q.x3 3⟩, w))
    (x : Nat → Nat → Int) (hx : ∀ r c, r < 4 → c < 4 → S16 (x r c)) (w : Bool) :
    ((Block.ofFn x).columnPass f).run w = (Block.ofFn (columnsOf g x), w) := by
  have h := rowPass_run f g (fun _ _ _ _ => False) (fun q hq w => by rw [hf q hq w]; simp) (fun r c => x c r)
    (fun r c hr hc => hx c r hc hr) w
  have ht : (Block.ofFn x).transpose = Block.ofFn (fun r c => x c r) := rfl
  unfold Block.columnPass
  simp only [Arith.run_bind, Arith.run_pure, ht]
  rw [h.1]
  have h2 : ((((Block.ofFn fun r c => x c r).rowPass f).run w).2) = w := by
    have := h.2
    simp at this
    rcases w with _ | _ <;> simp_all
  rw [h2]
  rfl

theorem fdctRowStored_s16 (a b c d : Int) (k : Nat) : S16 (fdctRowStored a b c d k) := by
  have h : ∀ v, S16 (narrow 16 v) := fun v => narrow16_bounds v
  rcases k with _ | _ | _ | k <;> exact h _

/-- The forward transform of a block of s16 values. -/
theorem fdct_run (x : Nat → Nat → Int) (hx : ∀ r c, r < 4 → c < 4 → S16 (x r c)) (w : Bool) :
    ((fdct (Block.ofFn x)).run w).1 = Block.ofFn (columnsOf fdctColumnExact (rowsOf fdctRowStored x)) ∧
    (((fdct (Block.ofFn x)).run w).2 = true ↔ w = true ∨ ∃ r c, r < 4 ∧ c < 4 ∧ ¬ Fits 16 (rowsOf fdctRowExact x r c)) := by
  have h1 := rowPass_run fdctRow fdctRowStored (fun a b c d => ∃ k, k < 4 ∧ ¬ Fits 16 (fdctRowExact a b c d k))
    (fun q hq w => fdctRow_run q hq w) x hx w
  have h2 :=
    fun w => columnPass_run fdctColumn fdctColumnExact fdctColumn_run (rowsOf fdctRowStored x) (fun r c _ _ => fdctRowStored_s16 _ _ _ _ _) w
  unfold fdct
  simp only [Arith.run_bind]
  rw [h1.1, h2]
  refine ⟨rfl, ?_⟩
  simp only []
  rw [h1.2]
  constructor
  · rintro (h | ⟨r, hr, k, hk, h⟩)
    · exact .inl h
    · exact .inr ⟨r, k, hr, hk, h⟩
  · rintro (h | ⟨r, k, hr, hk, h⟩)
    · exact .inl h
    · exact .inr ⟨r, hr, k, hk, h⟩

/-- The second-order transform of a block of s16 values. -/
theorem wht_run (x : Nat → Nat → Int) (hx : ∀ r c, r < 4 → c < 4 → S16 (x r c)) (w : Bool) :
    ((wht (Block.ofFn x)).run w).1 = Block.ofFn (columnsOf whtColumnExact (rowsOf (fun a b c d k => narrow 16 (whtRowExact a b c d k)) x)) ∧
    (((wht (Block.ofFn x)).run w).2 = true ↔ w = true ∨ ∃ r c, r < 4 ∧ c < 4 ∧ ¬ Fits 16 (rowsOf whtRowExact x r c)) := by
  have h1 := rowPass_run whtRow (fun a b c d k => narrow 16 (whtRowExact a b c d k)) (fun a b c d => ∃ k, k < 4 ∧ ¬ Fits 16 (whtRowExact a b c d k))
    (fun q hq w => whtRow_run q hq w) x hx w
  have h2 :=
    fun w => columnPass_run whtColumn whtColumnExact whtColumn_run (rowsOf (fun a b c d k => narrow 16 (whtRowExact a b c d k)) x) (fun r c _ _ => narrow16_bounds _) w
  unfold wht
  simp only [Arith.run_bind]
  rw [h1.1, h2]
  refine ⟨rfl, ?_⟩
  simp only []
  rw [h1.2]
  constructor
  · rintro (h | ⟨r, hr, k, hk, h⟩)
    · exact .inl h
    · exact .inr ⟨r, k, hr, hk, h⟩
  · rintro (h | ⟨r, k, hr, hk, h⟩)
    · exact .inl h
    · exact .inr ⟨r, hr, k, hk, h⟩

theorem block_toList_getD (g : Nat → Nat → Int) (r c : Nat) (hr : r < 4) (hc : c < 4) : (Block.ofFn g).toList.getD (4 * r + c) 0 = g r c := by
  interval_cases r <;> interval_cases c <;> rfl

theorem fdctColumnExact_s16 (t0 t1 t2 t3 : Int) (h0 : S16 t0) (h1 : S16 t1) (h2 : S16 t2) (h3 : S16 t3) (k : Nat) : S16 (fdctColumnExact t0 t1 t2 t3 k) := by
  have hi : (0:Int) ≤ (if t0 - t3 ≠ 0 then 1 else 0) ∧ (if t0 - t3 ≠ 0 then (1:Int) else 0) ≤ 1 := by split <;> omega
  rcases k with _ | _ | _ | k
  · exact (asr_bounds _ 4 (-32768) 32767).mpr (by omega)
  · have := (asr_bounds ((t1 - t2) * 2217 + (t0 - t3) * 5352 + 12000) 16 (-32768) 32000).mpr (by omega)
    simp only [Nat.zero_add, fdctColumnExact_one]
    exact ⟨by omega, by omega⟩
  · exact (asr_bounds _ 4 (-32768) 32767).mpr (by omega)
  · exact (asr_bounds _ 16 (-32768) 32767).mpr (by omega)

theorem whtColumnExact_s16 (t0 t1 t2 t3 : Int) (h0 : S16 t0) (h1 : S16 t1) (h2 : S16 t2) (h3 : S16 t3) (k : Nat) : S16 (whtColumnExact t0 t1 t2 t3 k) := by
  have h : ∀ x : Int, -131072 ≤ x ∧ x ≤ 131072 → S16 (whtRounded x) := by
    intro x hx
    have hi : (0:Int) ≤ (if x < 0 then 1 else 0) ∧ (if x < 0 then (1:Int) else 0) ≤ 1 := by split <;> omega
    exact (asr_bounds _ 3 (-32768) 32767).mpr (by omega)
  rcases k with _ | _ | _ | k <;> exact h _ (by omega)

end Sys2Proof.Machine
end

