-- ==== Sys2Proof/Laws/Optimize.lean ====
section
/-! SUPPORT. What one optimization of a block does to its elements (43_trellis R215..R217): levels, dequantized values,
EOB and context flags. -/

namespace Sys2Proof.Machine

theorem path_keys_nodup (s : State) (b : Nat) (t : BitVec 2) (he : (s.eobAt b).toNat ≤ 16) :
    ((s.path b t).map fun jx => b * 16 + zz jx.1).Nodup := by
  have h := (path_ok s b t).1
  have h1 : (s.path b t).map (fun jx => b * 16 + zz jx.1) =
      (s.nonzeroPositions b (firstPos t) (s.eobAt b).toNat).map fun i => b * 16 + zz i := by
    rw [← h, List.map_map]
    rfl
  rw [h1]
  refine scan_keys_nodup b (nonzeroPositions_nodup _ _ _ _) fun i hi => ?_
  have := nonzeroPositions_below s b _ _ hi
  omega

/-- A path element is a nonzero position of the range, with a level it may have there. -/
theorem path_mem (s : State) (b : Nat) (t : BitVec 2) {jx : Nat × Int} (h : jx ∈ s.path b t) :
    firstPos t ≤ jx.1 ∧ jx.1 < (s.eobAt b).toNat ∧ s.levelScan b jx.1 ≠ 0 ∧ s.NodeLevel b t jx.1 jx.2 := by
  have h1 := nonzeroPositions_below s b _ _ ((path_ok s b t).1 ▸ List.mem_map.mpr ⟨jx, h, rfl⟩)
  exact ⟨h1.1, h1.2.1, h1.2.2, (path_ok s b t).2 jx h⟩

/-- Every nonzero position of the range is on the path. -/
theorem path_covers (s : State) (b : Nat) (t : BitVec 2) {i : Nat} (h1 : firstPos t ≤ i)
    (h2 : i < (s.eobAt b).toNat) (h3 : s.levelScan b i ≠ 0) : ∃ x, (i, x) ∈ s.path b t := by
  have h := (mem_nonzeroPositions s b (firstPos t) (s.eobAt b).toNat).mpr ⟨h1, h2, h3⟩
  rw [← (path_ok s b t).1] at h
  obtain ⟨⟨j, x⟩, hjx, rfl⟩ := List.mem_map.mp h
  exact ⟨x, hjx⟩

theorem towardZero_s16 {x : Int} (h : S16 x) : S16 (towardZero x) := by
  unfold towardZero
  split <;> exact ⟨by omega, by omega⟩

theorem nodeLevel_s16 {s : State} {b : Nat} {t : BitVec 2} {i : Nat} {x : Int} (h : s.NodeLevel b t i x) :
    S16 x := by
  rcases h with rfl | ⟨-, rfl⟩
  · exact s16_toInt _
  · exact towardZero_s16 (s16_toInt _)

/-- An element on the path gets the path's level and that level's product. -/
theorem optimize_scan_mem (s : State) (b : Nat) (t : BitVec 2) (he : (s.eobAt b).toNat ≤ 16) {i : Nat} {x : Int}
    (h : (i, x) ∈ s.path b t) :
    (s.optimize b t).levelScan b i = x ∧ (s.optimize b t).dqScan b i = narrow 16 (x * s.deqAt t i) := by
  have hd := path_keys_nodup s b t he
  have hp := path_mem s b t h
  constructor
  · unfold State.levelScan State.qcoeffAt
    rw [State.elem_congr s (s.optimize b t) _ _ _ (by rw [optimize_frame]), optimize_qcoeff,
      State.elem_putAll_mem s s.qcoeff _ _ (by simpa [List.map_map, Function.comp_def] using hd)
        (List.mem_map.mpr ⟨(i, x), h, rfl⟩), toInt_ofInt_s16 _ (nodeLevel_s16 hp.2.2.2)]
  · unfold State.dqScan State.dqcoeffAt
    rw [State.elem_congr s (s.optimize b t) _ _ _ (by rw [optimize_frame]), optimize_dqcoeff,
      State.elem_putAll_mem s s.dqcoeff _ _ (by simpa [List.map_map, Function.comp_def] using hd)
        (List.mem_map.mpr ⟨(i, x), h, rfl⟩), toInt_ofInt_s16 _ (narrow16_bounds _)]

/-- An element whose index is of no position of the path is as before. -/
theorem optimize_index_other (s : State) (b : Nat) (t : BitVec 2) {j : Nat}
    (h : ∀ jx ∈ s.path b t, b * 16 + zz jx.1 ≠ j) :
    (s.optimize b t).qcoeffAt j = s.qcoeffAt j ∧ (s.optimize b t).dqcoeffAt j = s.dqcoeffAt j := by
  constructor
  · unfold State.qcoeffAt
    rw [State.elem_congr s (s.optimize b t) _ _ _ (by rw [optimize_frame]), optimize_qcoeff,
      State.elem_putAll_other]
    intro u hu
    obtain ⟨jx, hjx, rfl⟩ := List.mem_map.mp hu
    exact h jx hjx
  · unfold State.dqcoeffAt
    rw [State.elem_congr s (s.optimize b t) _ _ _ (by rw [optimize_frame]), optimize_dqcoeff,
      State.elem_putAll_other]
    intro u hu
    obtain ⟨jx, hjx, rfl⟩ := List.mem_map.mp hu
    exact h jx hjx

/-- A position outside the range, or that held level 0, is as before. -/
theorem optimize_scan_other (s : State) (b : Nat) (t : BitVec 2) (he : (s.eobAt b).toNat ≤ 16) {i : Nat} (hi : i < 16)
    (h : i < firstPos t ∨ (s.eobAt b).toNat ≤ i ∨ s.levelScan b i = 0) :
    (s.optimize b t).levelScan b i = s.levelScan b i ∧ (s.optimize b t).dqScan b i = s.dqScan b i := by
  have hne : ∀ jx ∈ s.path b t, b * 16 + zz jx.1 ≠ b * 16 + zz i := by
    intro jx hjx hz
    have hp := path_mem s b t hjx
    have := zz_injective (by omega) hi (by omega : zz jx.1 = zz i)
    subst this
    omega
  obtain ⟨h1, h2⟩ := optimize_index_other s b t hne
  exact ⟨congrArg BitVec.toInt h1, congrArg BitVec.toInt h2⟩

/-- An element of another block is as before. -/
theorem optimize_block_other (s : State) (b : Nat) (t : BitVec 2) {j : Nat} (h : j / 16 ≠ b) :
    (s.optimize b t).qcoeffAt j = s.qcoeffAt j ∧ (s.optimize b t).dqcoeffAt j = s.dqcoeffAt j := by
  refine optimize_index_other s b t fun jx _ hz => h ?_
  have := zz_lt jx.1
  omega

theorem optimize_eobAt_other (s : State) (b : Nat) (t : BitVec 2) {k : Nat} (h : k ≠ b) :
    (s.optimize b t).eobAt k = s.eobAt k := by
  unfold State.eobAt
  rw [State.elem_congr s (s.optimize b t) _ _ _ (by rw [optimize_frame]), optimize_eob]
  split
  · rfl
  · rw [State.elem_put, if_neg h]

/-- The final EOB (43_trellis R215, R216). -/
theorem optimize_eobAt (s : State) (b : Nat) (t : BitVec 2) (he : (s.eobAt b).toNat ≤ 16) :
    ((s.optimize b t).eobAt b).toNat =
      finalEob s.ctrl.eobClamp t (s.eobAt b).toNat (s.path b t) := by
  have hb := finalEob_le s b t s.ctrl.eobClamp
  have hf : firstPos t ≤ 1 := by unfold firstPos; split <;> omega
  have hk : (s.optimize b t).eobAt b =
      if keepsEob s.ctrl.eobClamp t (s.eobAt b).toNat then s.eobAt b
      else BitVec.ofNat 8 (finalEob s.ctrl.eobClamp t (s.eobAt b).toNat (s.path b t)) := by
    have h1 : (s.optimize b t).eobAt b = s.elem (s.optimize b t).eob eobBase b :=
      State.elem_congr s (s.optimize b t) _ _ _ (by rw [optimize_frame])
    rw [h1, optimize_eob]
    split
    · rfl
    · rw [State.elem_put, if_pos rfl]
  rw [hk]
  by_cases hc : keepsEob s.ctrl.eobClamp t (s.eobAt b).toNat = true
  · rw [if_pos hc, finalEob, if_pos hc]
  · rw [if_neg hc, BitVec.toNat_ofNat, Nat.mod_eq_of_lt]
    have : max (firstPos t) (s.eobAt b).toNat ≤ 16 := by omega
    omega

/-! ### After a completed command

An optimization reads neither the latch nor DONE. Each function it calls is taken by itself: unfolding all of them at
once is slow. -/

theorem complete_succRate (s : State) : s.complete.succRate = s.succRate := rfl

theorem complete_keepNode (s : State) : s.complete.keepNode = s.keepNode := rfl

theorem complete_roundNode (s : State) : s.complete.roundNode = s.roundNode := rfl

theorem complete_zeroNode (s : State) : s.complete.zeroNode = s.zeroNode := rfl

theorem complete_visit (s : State) : s.complete.visit = s.visit := rfl

theorem complete_sweep (s : State) (p : RdParams) (b : Nat) (is : List Nat) :
    s.complete.sweep p b is = s.sweep p b is := by
  induction is with
  | nil => rfl
  | cons i is ih => funext tr; simp only [State.sweep, complete_visit, ih]

theorem complete_headPick (s : State) : s.complete.headPick = s.headPick := rfl

theorem complete_effectiveRdm (s : State) : s.complete.effectiveRdm = s.effectiveRdm := rfl

theorem complete_winningPath (s : State) (b : Nat) (t : BitVec 2) :
    s.complete.winningPath b t = s.winningPath b t := by
  unfold State.winningPath
  simp only [complete_sweep, complete_headPick, complete_effectiveRdm]
  rfl

theorem complete_replay (s : State) (b : Nat) (t : BitVec 2) : s.complete.replay b t = s.replay b t := by
  unfold State.replay
  rw [complete_winningPath]
  rfl

/-- Whether DONE is set and a command latched makes no difference to an optimization. -/
theorem optimize_complete (s : State) (b : Nat) (t : BitVec 2) :
    (s.complete.optimize b t).complete = (s.optimize b t).complete := by
  unfold State.optimize
  rw [complete_replay]
  rfl

end Sys2Proof.Machine
end

