-- ==== Sys2Proof/Laws/PerInstr.lean ====
section
/-! SUPPORT. Facts about each command as syntax, one lemma per constructor. Family `MatchMask`: the command's word,
under its row's mask, is its opcode (30_encoding R107). -/

namespace Sys2Proof.Laws.MatchMask

/-- `w & mask == match` with `match = OP` (30_encoding R107), for the word the assembler writes. -/
def Statement (i : Instr) : Prop := encode i &&& i.mask = i.opcode.setWidth 32

theorem nop : Statement .nop := by unfold Statement; decide
theorem subB (blk : BitVec 5) : Statement (.subB blk) := by revert blk; unfold Statement; decide
theorem subMby : Statement .subMby := by unfold Statement; decide
theorem subMbuv : Statement .subMbuv := by unfold Statement; decide
theorem subMb : Statement .subMb := by unfold Statement; decide
theorem fdct4x4 (blk : BitVec 5) : Statement (.fdct4x4 blk) := by revert blk; unfold Statement; decide
theorem fdct8x4 (blk : BitVec 5) : Statement (.fdct8x4 blk) := by revert blk; unfold Statement; decide
theorem buildDc : Statement .buildDc := by unfold Statement; decide
theorem walsh4x4 : Statement .walsh4x4 := by unfold Statement; decide
theorem xformMby : Statement .xformMby := by unfold Statement; decide
theorem xformMbuv : Statement .xformMbuv := by unfold Statement; decide
theorem xformMb : Statement .xformMb := by unfold Statement; decide
theorem dqB (blk : BitVec 5) (pt : BitVec 2) : Statement (.dqB blk pt) := by
  revert blk pt; unfold Statement; decide
theorem optB (blk : BitVec 5) (pt : BitVec 2) (g : Bool) : Statement (.optB blk pt g) := by
  revert blk pt g; unfold Statement; decide
theorem optMb (g : Bool) : Statement (.optMb g) := by revert g; unfold Statement; decide
theorem optMby (g : Bool) : Statement (.optMby g) := by revert g; unfold Statement; decide
theorem optMbuv (g : Bool) : Statement (.optMbuv g) := by revert g; unfold Statement; decide
theorem ctxSnap : Statement .ctxSnap := by unfold Statement; decide
theorem ctxCommit : Statement .ctxCommit := by unfold Statement; decide

end Sys2Proof.Laws.MatchMask
end

