-- ==== Sys2Proof/Tests/Slice0.lean ====
section
/-! SUPPORT. Tests: ill-formed commands, words written out from the encoding, one step per family on the spec's
vectors (95_test_vectors), and for every obligation with hypotheses a state and operands that meet them. -/

namespace Sys2Proof.Tests

-- One theorem at a time: the kernel evaluations, elaborated side by side, need a thread (and its stack) each.
set_option Elab.async false

open Sys2Proof.Machine

/-! ### Well-formed and ill-formed commands (30_encoding R102, R105) -/

theorem test_subB_blk24_illformed : ¬(Instr.subB 24).WellFormed := by decide
theorem test_fdct4x4_blk24_illformed : ¬(Instr.fdct4x4 24).WellFormed := by decide
theorem test_fdct8x4_odd_illformed : ¬(Instr.fdct8x4 1).WellFormed := by decide
theorem test_fdct8x4_blk24_illformed : ¬(Instr.fdct8x4 24).WellFormed := by decide
theorem test_dqB_blk25_illformed : ¬(Instr.dqB 25 0).WellFormed := by decide
theorem test_optB_blk25_illformed : ¬(Instr.optB 25 3 true).WellFormed := by decide

/-! ### Words, written out as RSV(18) G(1) PT(2) BLK(5) OP(6) from 30_encoding R100 and R102 -/

theorem test_decode_nop : decode 0b000000000000000000_0_00_00000_000000#32 = .ok .nop := by decide
theorem test_decode_subB : decode 0b000000000000000000_0_00_10111_000001#32 = .ok (.subB 23) := by decide
theorem test_decode_subMby : decode 0b000000000000000000_0_00_00000_000010#32 = .ok .subMby := by decide
theorem test_decode_subMbuv : decode 0b000000000000000000_0_00_00000_000011#32 = .ok .subMbuv := by decide
theorem test_decode_subMb : decode 0b000000000000000000_0_00_00000_000100#32 = .ok .subMb := by decide
theorem test_decode_fdct4x4 : decode 0b000000000000000000_0_00_00101_001000#32 = .ok (.fdct4x4 5) := by decide
theorem test_decode_fdct8x4 : decode 0b000000000000000000_0_00_10110_001001#32 = .ok (.fdct8x4 22) := by decide
theorem test_decode_buildDc : decode 0b000000000000000000_0_00_00000_001010#32 = .ok .buildDc := by decide
theorem test_decode_walsh4x4 : decode 0b000000000000000000_0_00_00000_001011#32 = .ok .walsh4x4 := by decide
theorem test_decode_xformMby : decode 0b000000000000000000_0_00_00000_001100#32 = .ok .xformMby := by decide
theorem test_decode_xformMbuv : decode 0b000000000000000000_0_00_00000_001101#32 = .ok .xformMbuv := by decide
theorem test_decode_xformMb : decode 0b000000000000000000_0_00_00000_001110#32 = .ok .xformMb := by decide
theorem test_decode_dqB : decode 0b000000000000000000_0_10_00011_010000#32 = .ok (.dqB 3 2) := by decide
theorem test_decode_optB : decode 0b000000000000000000_1_01_11000_010100#32 = .ok (.optB 24 1 true) := by decide
theorem test_decode_optMb : decode 0b000000000000000000_1_00_00000_010101#32 = .ok (.optMb true) := by decide
theorem test_decode_optMby : decode 0b000000000000000000_0_00_00000_010110#32 = .ok (.optMby false) := by decide
theorem test_decode_optMbuv : decode 0b000000000000000000_1_00_00000_010111#32 = .ok (.optMbuv true) := by decide
theorem test_decode_ctxSnap : decode 0b000000000000000000_0_00_00000_011000#32 = .ok .ctxSnap := by decide
theorem test_decode_ctxCommit : decode 0b000000000000000000_0_00_00000_011001#32 = .ok .ctxCommit := by decide

/-- E1, E2, E9 of 95_test_vectors: illegal opcodes. -/
theorem test_decode_illegalOp : decode 0x00000005#32 = .error .illegalOp ∧
    decode 0x0000003F#32 = .error .illegalOp ∧ decode 0x00004605#32 = .error .illegalOp := by decide
/-- E3, E4, E5, E10: reserved bits and unused fields. -/
theorem test_decode_rsvdField : decode 0x00004000#32 = .error .rsvdField ∧
    decode 0x00000044#32 = .error .rsvdField ∧ decode 0x00002010#32 = .error .rsvdField ∧
    decode 0x00004601#32 = .error .rsvdField := by decide
/-- E6, E7, E8: illegal blocks. -/
theorem test_decode_badBlk : decode 0x00000601#32 = .error (.badBlk 24) ∧
    decode 0x00000049#32 = .error (.badBlk 1) ∧ decode 0x00000654#32 = .error (.badBlk 25) := by decide

/-! ### Small states -/

/-- Entries 0..n−1 of an array, all `v`. -/
def filled (w n : Nat) (v : Int) : Elems w := (List.range n).map fun j => (j, BitVec.ofInt w v)

/-- The 16 entries of block `b`, given in scan order. -/
def scan (b : Nat) (xs : List Int) : Elems 16 :=
  Elems.putAll [] ((List.range 16).map fun i => (b * 16 + zz i, xs.getD i 0))

/-- The token costs `cost band context token` of plane type `t`; the other planes' are left open. -/
def planeTc (t : Nat) (cost : Nat → Nat → Nat → Nat) : Elems 32 :=
  (List.range' (288 * t) 288).map fun k => (k, BitVec.ofNat 32 (cost (k / 36 % 8) (k / 12 % 3) (k % 12)))

/-- The graded and the uniform token costs of 95_test_vectors section 0, and the value costs of −4..4 under each. -/
def gradedCost (bd ctx tok : Nat) : Nat :=
  [100, 300, 500, 600, 700, 800, 900, 1000, 1100, 1200, 1300, 200].getD tok 0 + 20 * ctx + 5 * bd
def uniformCost (_ _ tok : Nat) : Nat := if tok = 0 ∨ tok = 11 then 0 else 1
def gradedVc : Elems 32 := (List.range 9).map fun k => (2044 + k, if k = 4 then 0 else 256)
def uniformVc : Elems 32 := (List.range 9).map fun k => (2044 + k, 0)

/-- Block `b` alone, with levels, coefficients and dequantized values in scan order, on the graded tables of plane
type `t`. -/
def optState (t b : Nat) (lv c d : List Int) (e rdmult rddiv : Nat) : State :=
  { State.reset with
    qcoeff := scan b lv, coeff := scan b c, dqcoeff := scan b d, eob := [(b, BitVec.ofNat 8 e)]
    deq := filled 16 64 8, tc := planeTc t gradedCost, vc := gradedVc
    rdmult := BitVec.ofNat 32 rdmult, rddiv := BitVec.ofNat 32 rddiv }

/-- The 25 blocks empty, with the neighbours present. -/
def emptyMb (e : Nat) : State :=
  { State.reset with
    eob := (List.range 25).map fun b => (b, BitVec.ofNat 8 e)
    qcoeff := filled 16 400 0, dqcoeff := filled 16 400 0, coeff := filled 16 400 0
    mbcfg := { mode := 0, intra := false, aboveValid := true, leftValid := true } }

/-- The state a command leaves. -/
def after (i : Instr) (s : State) : State :=
  match exec i s with
  | .next t => t
  | _ => s

/-- The state one step leaves. -/
def stepped (s : State) : State :=
  match step s with
  | .next t => t
  | _ => s

/-- The blocks of V2, V9 and V7. -/
def v2 : State := optState 0 0 [0, 0, 3, 0, -1] [0, 0, 25, 0, -6] [0, 0, 24, 0, -8] 5 5 1
def v9 : State := optState 2 16 [-3] [-20] [-24] 1 20 1
def v7 : State := optState 3 0 [1] [5] [8] 1 5 1

/-- `s` with CTRL written, and with one EOB written, after reset. -/
def withCtrl (w : Word) (s : State) : State := { s with ctrl := Ctrl.ofWord w }
def eobState (b e : Nat) : State := { State.reset with eob := [(b, BitVec.ofNat 8 e)] }

/-- A block with an illegal level at scan 2 and a legal one above it; one with an illegal level at scan 15; one with
levels at both limits. -/
def badAt2 : State := optState 3 3 [9999, 0, 2048, 2047] [] [] 4 5 1
def badAt15 : State := optState 3 3 [0, 0, 0, 0, 0, 0, 0, 0, 0, 0, 0, 0, 0, 0, 0, -2049] [] [] 16 5 1
def atLimits : State := optState 1 24 [2047, 0, 0, 0, 0, 0, 0, 0, 0, 0, 0, 0, 0, 0, 0, -2048] [] [] 16 5 1

/-- The empty macroblock with EOB 17 in block 20. -/
def badBlock20 : State := { emptyMb 0 with eob := (emptyMb 0).eob.put 20 17 }

/-- `s` on the uniform tables of plane type `t`. -/
def onUniform (t : Nat) (s : State) : State := { s with tc := planeTc t uniformCost, vc := uniformVc }

/-- Blocks of 95_test_vectors L2-5. -/
def v1 : State := onUniform 0 (optState 0 0 [0, 0, 3, 0, -1] [0, 0, 25, 0, -6] [0, 0, 24, 0, -8] 5 64 1)
def v8 : State := { v7 with rddiv := 4 }
def v10 : State := optState 3 0 (List.replicate 16 1) (List.replicate 16 9) (List.replicate 16 8) 16 5 1
def v11 : State := { v2 with mbcfg := { v2.mbcfg with intra := true } }
def v12 : State := { optState 3 5 [2, 1] [15, 7] [16, 8] 2 5 1 with wctxAbove := 2, wctxLeft := 2 }
def v13 : State := optState 1 24 [1] [7] [8] 1 (2 ^ 28) 1
def v14 : State := optState 3 0 [4, 0, 0, 1] [30, 0, 0, 6] [32, 0, 0, 8] 4 5 1
def v15 : State := onUniform 2 (optState 2 16 [2, 1] [12, 5] [16, 8] 2 64 0)

/-- Four nonzero levels in block 0, each 1 or 2 by a bit of `m` and each eligible for rounding (steps 8). -/
def fourLevels (m : Nat) : List Int := (List.range 4).map fun i => if m.testBit i then 2 else 1
def four (m : Nat) : State :=
  optState 3 0 (fourLevels m) ((fourLevels m).map (8 * · - 3)) ((fourLevels m).map (8 * ·)) 4 5 1

/-- The block of `four m` with the levels at the bits of `k` rounded. -/
def fourRounded (m k : Nat) : State :=
  let lv := (fourLevels m).mapIdx fun i x => if k.testBit i then x - 1 else x
  optState 3 0 lv ((fourLevels m).map (8 * · - 3)) (lv.map (8 * ·)) 4 5 1

/-- Levels [1, 1] in block 0 on token costs in which an end of block is cheap and ZERO is not (every other cost 0). -/
def cheapEob : State :=
  { optState 3 0 [1, 1] [1, 5] [8, 8] 2 1 1 with
    tc := planeTc 3 fun _ _ tok => [300, 600, 0, 0, 0, 0, 0, 0, 0, 0, 0, 50].getD tok 0 }

/-- A plane-type-0 block with one nonzero level, at scan 2 below E = 5; one with it at scan 15 of a full block. -/
def single2 : State := optState 0 0 [0, 0, 3] [0, 0, 20] [0, 0, 24] 5 5 1
def single15 : State :=
  optState 1 24 (List.replicate 15 0 ++ [-1]) (List.replicate 15 0 ++ [-6]) (List.replicate 15 0 ++ [-8]) 16 5 1

/-- `s` with a word latched and `n` BUSY steps left. -/
def latched (s : State) (w : Word) (n : Nat) : State := { s with latch := some { word := w, left := n } }

/-! ### One command each (95_test_vectors L2) -/

/-- O15: NOP. -/
theorem test_nop : (after .nop State.reset).statusWord = 2#32 := by decide

/-- S3 and S4: −255 and 255. -/
theorem test_subB : (after (.subB 0) { State.reset with
    src := [(0, 0), (1, 255)], pred := [(0, 255), (1, 0)] }).diff.find 0 = some (-255#16) ∧
    (after (.subB 0) { State.reset with
      src := [(0, 0), (1, 255)], pred := [(0, 255), (1, 0)] }).diff.find 1 = some 255#16 := by decide +kernel

/-- S7: block 23 has its origin at 356. -/
theorem test_subB_last : (after (.subB 23) { State.reset with
    src := [(356, 7)], pred := [(356, 3)] }).diff.find 356 = some 4#16 := by decide +kernel

/-- S5: the luma plane alone. -/
theorem test_subMby : let t := after .subMby { State.reset with
      src := filled 8 384 128, pred := filled 8 384 120 }
    t.diff.find 255 = some 8#16 ∧ t.diff.find 256 = none := by decide +kernel

/-- S6: the chroma planes alone. -/
theorem test_subMbuv : let t := after .subMbuv { State.reset with
      src := [(256, 10), (383, 1)], pred := [(256, 20), (383, 0)] }
    t.diff.find 256 = some (-10#16) ∧ t.diff.find 383 = some 1#16 ∧ t.diff.find 255 = none := by decide +kernel

/-- T4: all 32767 wraps. -/
theorem test_fdct4x4_wraps : let t := after (.fdct4x4 0) { State.reset with diff := filled 16 64 32767 }
    t.coeff.find 0 = some (-8#16) ∧ t.coeff.find 1 = some 1#16 ∧ t.status.wrap = true := by decide +kernel

/-- T6: DIFF(r, c) = 4c + r in block 5. -/
theorem test_fdct4x4 : let t := after (.fdct4x4 5) { State.reset with
      diff := Elems.putAll [] ((List.range 16).map fun k =>
        (68 + 16 * (k / 4) + k % 4, ((4 * (k % 4) + k / 4 : Nat) : Int))) }
    (t.coeff.map Prod.snd) = [60, -35, 0, -2, -8, 0, 0, 0, 0, 0, 0, 0, 0, 0, 0, 0] ∧ t.status.wrap = false := by
  decide +kernel

/-- T7: two blocks of tens. -/
theorem test_fdct8x4 : let t := after (.fdct8x4 2) { State.reset with diff := filled 16 64 10 }
    t.coeff.find 32 = some 80#16 ∧ t.coeff.find 33 = some 1#16 ∧ t.coeff.find 48 = some 80#16 ∧
      t.coeff.find 49 = some 1#16 ∧ t.coeff.find 63 = some 0#16 ∧ t.coeff.find 64 = none := by decide +kernel

/-- T8: the luma DCs. -/
theorem test_buildDc : let t := after .buildDc { State.reset with
      coeff := (List.range 16).map fun i => (16 * i, BitVec.ofNat 16 i) }
    t.diff = (List.range 16).map fun i => (384 + i, BitVec.ofNat 16 i) := by decide +kernel

/-- T10 and T11: the bias of the second-order transform. -/
theorem test_walsh4x4 : (after .walsh4x4 { State.reset with
    diff := (filled 16 400 0).put 384 1 }).coeff.map Prod.snd =
    [1, 0, 0, 0, 1, 0, 0, 0, 1, 0, 0, 0, 1, 0, 0, 0] := by decide +kernel
theorem test_walsh4x4_negative : (after .walsh4x4 { State.reset with
    diff := (filled 16 400 0).put 384 (-1) }).coeff.map Prod.snd = List.replicate 16 0 := by decide +kernel

/-- T15: the luma plane and the second-order block. -/
theorem test_xformMby : let t := after .xformMby { State.reset with diff := filled 16 256 10 }
    t.coeff.find 240 = some 80#16 ∧ t.diff.find 399 = some 80#16 ∧ t.coeff.find 384 = some 640#16 ∧
      t.coeff.find 399 = some 0#16 := by decide +kernel
/-- T17: chroma blocks of zeros. -/
theorem test_xformMbuv : let t := after .xformMbuv { State.reset with diff := filled 16 384 0 }
    t.coeff.find 256 = some 0#16 ∧ t.coeff.find 257 = some 1#16 ∧ t.coeff.find 383 = some 0#16 ∧
      t.coeff.find 255 = none := by decide +kernel

/-- T19: MODE 3. -/
theorem test_xformMb_badMode : let t := after .xformMb { State.reset with
      mbcfg := { MbCfg.atReset with mode := 3 } }
    t.statusWord = 0x704#32 ∧ t.coeff = [] := by decide +kernel

/-- Q1: dequantization in scan order. -/
theorem test_dqB : let t := after (.dqB 3 0) { State.reset with
      qcoeff := scan 3 [5, -1, 2], deq := (filled 16 16 8).put 0 10 }
    t.dqcoeff.find 48 = some 50#16 ∧ t.dqcoeff.find 49 = some (-8#16) ∧ t.dqcoeff.find 52 = some 16#16 ∧
      t.dqcoeff.find 50 = some 0#16 ∧ t.status.wrap = false := by decide +kernel

/-- Q2: a product that does not fit. -/
theorem test_dqB_wraps : let t := after (.dqB 0 3) { State.reset with
      qcoeff := scan 0 [2047], deq := filled 16 64 17 }
    t.dqcoeff.find 0 = some (-30737#16) ∧ t.status.wrap = true := by decide +kernel

/-- V2: the −1 at scan 4 is removed and the EOB retracts to 3. -/
theorem test_optB : let t := after (.optB 0 0 false) v2
    t.eob = [(0, 3#8)] ∧ t.qcoeff.find 4 = some 3#16 ∧ t.qcoeff.find 5 = some 0#16 ∧
      t.dqcoeff.find 4 = some 24#16 ∧ t.dqcoeff.find 5 = some 0#16 ∧ t.wctxAbove = 1 ∧ t.wctxLeft = 1 := by
  decide +kernel

/-- V9: a negative level rounds toward zero. -/
theorem test_optB_negative : let t := after (.optB 16 2 false) v9
    t.eob = [(16, 1#8)] ∧ t.qcoeff.find 256 = some (-2#16) ∧ t.dqcoeff.find 256 = some (-16#16) ∧
      t.wctxAbove = 0x10 := by decide +kernel

/-- K2: the level at scan 2 of block 3 is checked before anything is written. -/
theorem test_optB_badLevel : let s := optState 3 3 [0, 0, 3000] [] [] 4 5 1
    after (.optB 3 3 false) s = s.failsWith .badLevel 3 2 ∧ (after (.optB 3 3 false) s).errinfo.word = 0x203#32 := by
  decide +kernel

/-- O10: a failing block ends the pass before any block is optimized. -/
theorem test_optMb_badEob : let s := { badBlock20 with ctxAbove := 1 }
    after (.optMb false) s = s.failsWith .badEob 20 0 := by decide +kernel

/-- O5: the guard comes before the mode check. -/
theorem test_optMby_guard : let s := { State.reset with mbcfg := { MbCfg.atReset with mode := 3 } }
    after (.optMby false) s = s.ends := by decide +kernel

/-- O7: OPT_MBUV does not read MODE. -/
theorem test_optMbuv_reads_no_mode : (after (.optMbuv false) { emptyMb 0 with
    mbcfg := { mode := 3, intra := false, aboveValid := true, leftValid := true }
    tc := planeTc 2 gradedCost, ctxAbove := 0x0F0 }).ctxAbove = 0 := by decide +kernel

/-- O1: the closed gate. -/
theorem test_optMb_gate : after (.optMb true) State.reset = State.reset.ends := by decide

/-- O11 and O12. -/
theorem test_ctxSnap : (after .ctxSnap { State.reset with ctxAbove := 0x1FF, wctxLeft := 3 }).wctxAbove = 0x1FF ∧
    (after .ctxSnap { State.reset with ctxAbove := 0x1FF, wctxLeft := 3 }).wctxLeft = 0 := by decide
theorem test_ctxCommit : (after .ctxCommit { State.reset with wctxLeft := 0x00F }).ctxLeft = 0x00F := by decide

/-! ### The window, errors, the interrupt and resets (95_test_vectors L2-7, L2-8) -/

/-- E1, then X1: an illegal word, and the refused NOP. -/
theorem test_step_illegal_then_refused : let t := stepped (latched State.reset 5#32 1)
    t.statusWord = 0x104#32 ∧ (t.writeWindow 0x00C 0).statusWord = 0x10C#32 := by decide

/-- X2: a STATUS write clears, and ERRINFO keeps its value (E6). -/
theorem test_status_clear : let t := (stepped (latched State.reset 0x601#32 1)).writeWindow 0x008 0x3E
    t.statusWord = 0 ∧ t.errinfo.word = 0x18#32 := by decide

/-- X4: the interrupt, and its end. -/
theorem test_irq : let t := after .nop { State.reset with ctrl := Ctrl.ofWord 0xA }
    t.irq = true ∧ (t.writeWindow 0x008 2).irq = false := by decide

/-- X6: a write while BUSY is dropped. -/
theorem test_write_while_busy : let t := (latched State.reset 0 5).writeWindow 0x4900 7
    t.deq = [] ∧ t.statusWord = 0x21#32 := by decide

/-- X7: a 16-bit access. -/
theorem test_bus_error :
    State.reset.hostWrite 0x4900 16 7 = .next { State.reset with reply := some .busError } := rfl

/-- L2-8: reset values, and the soft reset after CTRL = 0x0F. -/
theorem test_reset : [0x000, 0x004, 0x008, 0x01C, 0x020, 0x024, 0x028, 0x02C].map State.reset.wordAt =
    [0x56503854, 2, 0, 1, 4, 16, 2, 4] := by decide +kernel
theorem test_soft_reset : let s := { State.reset with ctrl := Ctrl.ofWord 0xF, eob := [(0, 5)] }
    let t := s.writeWindow 0x004 0x80000000
    t.wordAt 0x004 = 2#32 ∧ t.eob = [(0, 5#8)] := by decide +kernel

/-- A word placed at reset runs in the next step: SUB_B blk=5. -/
theorem test_withFetchWord : decodeTableWord 32 0x141 = some (.subB 5) ∧
    (stepped (State.reset.withFetchWord 32 0x141)).status.done = true := by decide +kernel

/-- P1's host part: a CMD write, one BUSY step of latency, and the poll that ends the command. -/
theorem test_host_runs_nop : (stepped { State.reset with host := issue 0 .nop }).latch =
    some { word := 0, left := 1 } := by decide

/-! ### Witnesses: for every obligation with hypotheses, a state and operands that meet them (boundary values of each
clause). `meets_<Name>` is about `Obligations.<Name>`. -/

/-- Boundary blocks of every command with a BLK. -/
theorem meets_DecodeInvertsEncode : (Instr.subB 0).WellFormed ∧ (Instr.subB 23).WellFormed ∧
    (Instr.fdct4x4 23).WellFormed ∧ (Instr.fdct8x4 0).WellFormed ∧ (Instr.fdct8x4 22).WellFormed ∧
    (Instr.dqB 24 3).WellFormed ∧ (Instr.optB 24 3 true).WellFormed ∧ Instr.nop.WellFormed ∧
    Instr.xformMb.WellFormed ∧ (Instr.optMb true).WellFormed ∧ Instr.ctxCommit.WellFormed := by decide

theorem meets_EncodeInvertsDecode : decode 0x00003E14#32 = .ok (.optB 24 3 true) ∧ decode 0#32 = .ok .nop := by decide

theorem meets_MatchAndMaskSelectTheCommand : decode 0x00002E14#32 = .ok (.optB 24 1 true) ∧
    opField 0x00004000#32 = Instr.nop.opcode ∧
    0x00004000#32 &&& Instr.nop.mask ≠ Instr.nop.opcode.setWidth 32 := by decide

/-- Opcodes 05, 07, 0F, 11, 13, 1A and 3F. -/
theorem meets_IllegalOpcodeEndsInError : (latched State.reset 5 1).latch = some { word := 5, left := 1 } ∧ 1 ≤ 1 ∧
    (opField 0x05#32).toNat = 5 ∧ (opField 0x07#32).toNat = 7 ∧ (opField 0x4FF8F#32).toNat = 0xF ∧
    (opField 0x11#32).toNat = 0x11 ∧ (opField 0x13#32).toNat = 0x13 ∧ (opField 0x1A#32).toNat = 0x1A ∧
    (opField 0xFFFFFFFF#32).toNat = 0x3F := by decide

/-- E3, E4, a PT of FDCT4X4, E5. -/
theorem meets_ReservedFieldEndsInError : (latched State.reset 0x4000 0).latch = some { word := 0x4000, left := 0 } ∧
    opField 0x4000#32 = Instr.nop.opcode ∧ rsvField 0x4000#32 ≠ 0 ∧
    opField 0x44#32 = Instr.subMb.opcode ∧ usesBlk .subMb = false ∧ blkField 0x44#32 ≠ 0 ∧
    opField 0x808#32 = (Instr.fdct4x4 0).opcode ∧ usesPt (.fdct4x4 0) = false ∧ ptField 0x808#32 ≠ 0 ∧
    opField 0x2010#32 = (Instr.dqB 0 0).opcode ∧ usesG (.dqB 0 0) = false ∧ gField 0x2010#32 = true := by decide

/-- Blocks 24 and 31 of SUB_B and FDCT4X4, 1, 23 and 24 of FDCT8X4, 25 of DQ_B and OPT_B. -/
theorem meets_IllegalBlockEndsInError : (latched State.reset 0x601 1).latch = some { word := 0x601, left := 1 } ∧
    ((opField 0x601#32).toNat = 1 ∧ (blkField 0x601#32).toNat = 24 ∧ 0x601#32 >>> 11 = 0) ∧
    ((opField 0x7C8#32).toNat = 8 ∧ (blkField 0x7C8#32).toNat = 31 ∧ 0x7C8#32 >>> 11 = 0) ∧
    ((opField 0x049#32).toNat = 9 ∧ (blkField 0x049#32).toNat = 1 ∧ 0x049#32 >>> 11 = 0) ∧
    ((opField 0x5C9#32).toNat = 9 ∧ (blkField 0x5C9#32).toNat = 23 ∧ 0x5C9#32 >>> 11 = 0) ∧
    ((opField 0x609#32).toNat = 9 ∧ (blkField 0x609#32).toNat = 24 ∧ 0x609#32 >>> 11 = 0) ∧
    ((opField 0x1E50#32).toNat = 0x10 ∧ (blkField 0x1E50#32).toNat = 25 ∧ 0x1E50#32 >>> 13 = 0) ∧
    ((opField 0x3E54#32).toNat = 0x14 ∧ (blkField 0x3E54#32).toNat = 25 ∧ 0x3E54#32 >>> 14 = 0) := by decide

theorem meets_StepRunsTheLatchedCommand :
    (latched State.reset 0x141 1).latch = some { word := 0x141, left := 1 } ∧ decode 0x141#32 = .ok (.subB 5) ∧
    (latched State.reset 0x601 0).latch = some { word := 0x601, left := 0 } ∧
    decode 0x601#32 = .error (.badBlk 24) := by decide

/-- The host moves while idle, and while a command has BUSY steps left; one action of each kind. -/
theorem meets_HostMovesWhenNoCommandIsDue : State.reset.HostTurn State.reset ∧
    (latched State.reset 0 2).HostTurn (latched State.reset 0 1) ∧ State.reset.host = [] ∧
    ({ State.reset with host := [.poll] } : State).HostTurn { State.reset with host := [.poll] } :=
  ⟨.inl ⟨rfl, rfl⟩, .inr ⟨0, 0, rfl, rfl⟩, rfl, .inl ⟨rfl, rfl⟩⟩

theorem meets_AcceptedCommandRunsAfterItsLatency :
    let s : State := { State.reset with host := [.write 0x00C 32 0x141] }
    s.latch = none ∧ s.status.error = none ∧ s.host = [.write (s.params.base + 0x00C) 32 0x141] ∧
      decode 0x141#32 = .ok (.subB 5) := by decide

theorem meets_BusyEngineKeepsTheCommandsInputs :
    let s : State := { latched State.reset 0x141 2 with host := [.write 0x400 32 7] }
    s.latch = some { word := 0x141, left := 0 + 2 } ∧ s.host.head? ≠ some .hardReset ∧ step s = .next (stepped s) :=
  ⟨rfl, by decide, rfl⟩

/-- Idle without an error; BUSY; idle in an error. -/
theorem meets_CmdWriteIsAcceptedOrSetsOvr : (State.reset.latch = none ∧ State.reset.status.error = none) ∧
    ¬((latched State.reset 0 1).latch = none ∧ (latched State.reset 0 1).status.error = none) ∧
    ¬((State.reset.failsWith .badMode 0 0).latch = none ∧
      (State.reset.failsWith .badMode 0 0).status.error = none) := by decide

theorem meets_StatusWriteClearsTheNamedFlags : State.reset.status.error = none ∧
    (∀ e ∈ ([.illegalOp, .rsvdField, .badBlk, .badEob, .badLevel, .badMode] : List ErrorCode),
      (State.reset.failsWith e 0 0).status.error = some e) ∧
    (State.reset.failsWith .badMode 0 0).statusWord = 0x704#32 := by decide

/-- STATUS, CMD, the first and the last word. -/
theorem meets_WritesWhileBusyAreDropped : (latched State.reset 0 3).latch.isSome = true ∧
    (latched State.reset 0 3).WordAt 0x008 0x008 ∧ (latched State.reset 0 3).WordAt 0x00C 0x00C ∧
    (latched State.reset 0 3).WordAt 0 0 ∧ (latched State.reset 0 3).WordAt 0xFFFC 0xFFFC := by decide

/-- Idle; BUSY with SUB_B, which may write DIFF[0] (a half element) and not COEFF[0]; BUSY with OPT_B, which may write
EOB[0] (a byte element), WCTX_ABOVE and ERRINFO. -/
theorem meets_ReadsHaveNoSideEffect : State.reset.WordAt 0x1000 0x1000 ∧ State.reset.latch = none ∧
    (latched State.reset 0x141 3).latch = some { word := 0x141, left := 3 } ∧
    ((latched State.reset 0x141 3).wordMayWrite 0x141 (locate 0x1500) = true ∧ HalfElement 0x1500) ∧
    (latched State.reset 0x141 3).wordMayWrite 0x141 (locate 0x2000) = false ∧
    ((latched State.reset 0x14 3).wordMayWrite 0x14 (locate 0x4800) = true ∧ ByteElement 0x4800) ∧
    (latched State.reset 0x14 3).wordMayWrite 0x14 (locate 0x038) = true ∧
    (latched State.reset 0x14 3).wordMayWrite 0x14 (locate 0x040) = true := by decide

theorem meets_ReadableWhileBusyIsUnchanged : State.reset.wordMayWrite 0x141 (.coeff 399) = false ∧
    Loc.coeff 399 ≠ .reg .status ∧ State.reset.runWord 0x141 = .next (after (.subB 5) State.reset) :=
  ⟨by decide, by decide, rfl⟩

/-- Wrong width; wrong alignment; the first and the last byte of the window. -/
theorem meets_BusErrorChangesNothing : State.reset.params.base ≤ 0 ∧ 0 < State.reset.params.base + 0x10000 ∧
    (16 ≠ 32 ∨ (0 - State.reset.params.base) % 4 ≠ 0) ∧ 0xFFFF < State.reset.params.base + 0x10000 ∧
    (32 ≠ 32 ∨ (0xFFFF - State.reset.params.base) % 4 ≠ 0) := by decide

/-- The first and the last element of each width. -/
theorem meets_ElementsReadBackAsConverted : State.reset.latch = none ∧
    (State.reset.WordAt 0x400 0x400 ∧ ByteElement 0x400) ∧ (State.reset.WordAt 0x4860 0x4860 ∧ ByteElement 0x4860) ∧
    (State.reset.WordAt 0x1000 0x1000 ∧ HalfElement 0x1000) ∧
    (State.reset.WordAt 0x49FC 0x49FC ∧ HalfElement 0x49FC) ∧
    (State.reset.WordAt 0x5000 0x5000 ∧ WordElement 0x5000) ∧
    (State.reset.WordAt 0xBFFC 0xBFFC ∧ WordElement 0xBFFC) := by decide

theorem meets_RegistersStoreTheirFields : State.reset.latch = none ∧ (0x7FFFFFFF#32).getLsbD 31 = false := by decide

/-- The ends of the reserved ranges, and the read-only registers. -/
theorem meets_ReadOnlyAndReservedWords : State.reset.latch = none ∧ ReservedOffset 0x44 ∧ ReservedOffset 0x3FC ∧
    ReservedOffset 0x1640 ∧ ReservedOffset 0x4864 ∧ ReservedOffset 0xFFFC ∧ 0x1C % 4 = 0 := by
  simp [State.reset, State.powerOn, ReservedOffset]

theorem meets_CommandsWriteOnlyTheirState : exec .nop State.reset = .next State.reset.ends := rfl

/-- A byte that SUB_B blk=5 stores to none of, and one of COEFF. -/
theorem meets_OtherBytesAreUnchanged : (Instr.subMbuv).WellFormed ∧
    exec .subMbuv State.reset = .next (after .subMbuv State.reset) ∧ 0x400 ≤ 0x13FF ∧
    ¬State.reset.storesAt 0x13FF .subMbuv ∧ ¬State.reset.storesAt 0x1600 .subMbuv :=
  ⟨rfl, rfl, by decide, by simp [State.storesAt, InRange, diffBase], by simp [State.storesAt, InRange, diffBase]⟩

/-- Idle and BUSY. -/
theorem meets_SoftResetSetsEveryRegister : (0x80000000#32).getLsbD 31 = true ∧ State.reset.latch = none ∧
    (latched State.reset 0 1).latch.isSome = true := by decide

/-- While a command is BUSY. -/
theorem meets_HardwareResetSetsEveryRegister :
    ({ latched State.reset 0x141 2 with host := [.hardReset] } : State).HostTurn
      { latched State.reset 0x141 1 with host := [.hardReset] } := .inr ⟨0x141, 0, rfl, rfl⟩

theorem meets_StepKeepsTheHandshake : State.reset.Handshake ∧ step State.reset = .next State.reset :=
  ⟨⟨nofun, nofun⟩, rfl⟩

theorem meets_StepKeepsTheArraysCanonical : State.reset.ArraysWf ∧ step State.reset = .next State.reset :=
  ⟨by decide, rfl⟩

/-- OPT_B of a block with EOB 17 ends in error. -/
theorem meets_ErrorsArePrecise : let s : State := { State.reset with eob := [(3, 17)] }
    s.status.error = none ∧ (after (.optB 3 3 false) s).status.error = some .badEob := by decide +kernel

theorem meets_WrapIsSticky : exec .buildDc State.reset = .next (after .buildDc State.reset) ∧
    isResidual .subMb = true ∧ ({ State.reset with status := { Status.atReset with wrap := true } } : State).status.wrap = true :=
  ⟨rfl, rfl, rfl⟩

theorem meets_InterruptIsALevel : exec .nop State.reset = .next (after .nop State.reset) ∧
    State.reset.latch = none ∧ State.reset.status.error = none ∧ (6#32).getLsbD 1 = true ∧
    (6#32).getLsbD 2 = true ∧ (0#32).getLsbD 3 = false ∧ (0#32).getLsbD 31 = false :=
  ⟨rfl, rfl, rfl, rfl, rfl, rfl, rfl⟩

/-- OPT_EN 0; RDDIV equal to RDDIV_TRIVIAL; RDDIV one above it. -/
theorem meets_GateDecidesGatedCommands :
    ¬(State.reset.ctrl.optEn = true ∧ State.reset.params.rddivTrivial.toInt < State.reset.rddiv.toInt) ∧
    ¬((withCtrl 3 State.reset).ctrl.optEn = true ∧
      (withCtrl 3 State.reset).params.rddivTrivial.toInt < (withCtrl 3 State.reset).rddiv.toInt) ∧
    (withCtrl 3 v2).ctrl.optEn = true ∧ (withCtrl 3 v2).params.rddivTrivial.toInt < (withCtrl 3 v2).rddiv.toInt := by
  decide

theorem meets_MissingNeighbourSkipsPartialPasses : State.reset.mbcfg.aboveValid = false := rfl

theorem meets_ReservedModeEndsInError : let s : State := { State.reset with mbcfg := MbCfg.ofWord 0x1B }
    s.mbcfg.mode = 3 ∧ s.GateAllows false ∧ s.NeighboursValid := by decide

/-- EOB 17; a level of 2048 at scan 2 below EOB 4 with a legal level above it; a level of −2049 at scan 15. -/
theorem meets_OptBlockCheckEndsInError :
    ((24#5).toNat ≤ 24 ∧ (eobState 24 17).GateAllows false ∧ 16 < ((eobState 24 17).eobAt 24).toNat) ∧
    ((badAt2.eobAt 3).toNat ≤ 16 ∧ firstPos 3 ≤ 2 ∧ 2 < (badAt2.eobAt 3).toNat ∧ 2047 < badAt2.levelScan 3 2 ∧
      (badAt2.eobAt 3).toNat = 4 ∧ -2048 ≤ badAt2.levelScan 3 3 ∧ badAt2.levelScan 3 3 ≤ 2047) ∧
    (badAt15.eobAt 3).toNat ≤ 16 ∧ firstPos 0 ≤ 15 ∧ 15 < (badAt15.eobAt 3).toNat ∧
      badAt15.levelScan 3 15 < -2048 := by decide +kernel

/-- An empty macroblock whose block 20 has EOB 17: blocks 0..19 pass their checks. -/
theorem meets_FirstFailingBlockEndsThePass : badBlock20.GateAllows false ∧
    (∀ q ∈ badBlock20.listMb.take 20, badBlock20.BlockReady q.1 q.2) ∧ badBlock20.BlockFails 20 2 .badEob 0 ∧
    badBlock20.mbcfg.mode ≠ 3 ∧ badBlock20.NeighboursValid ∧
    badBlock20.listMb = badBlock20.listMb.take 20 ++ (20, 2) :: badBlock20.listMb.drop 21 := by
  have h0 : ∀ q ∈ badBlock20.listMb.take 20, (badBlock20.eobAt q.1).toNat = 0 := by decide +kernel
  refine ⟨by decide, fun q hq => ?_, .inl ⟨by decide +kernel, rfl, rfl⟩, by decide, by decide, by decide⟩
  have := h0 q hq
  exact ⟨by omega, fun i _ hi => by omega⟩

/-- Blocks 0 and 23 (23 is the last legal one). -/
theorem meets_SubBlockWritesItsResidual : (0#5).toNat ≤ 23 ∧ (23#5).toNat ≤ 23 := by decide

theorem meets_SubPlanesWriteTheirResiduals : (Instr.subMby = .subMby ∧ 0 = 0 ∧ 256 = 256) ∧
    (Instr.subMbuv = .subMbuv ∧ 256 = 256 ∧ 384 = 384) ∧ (Instr.subMb = .subMb ∧ 0 = 0 ∧ 384 = 384) := by decide

/-- The planes' blocks in descending order. -/
theorem meets_PlaneResidualEqualsItsBlocks :
    ((List.range 16).map (BitVec.ofNat 5)).reverse.Perm ((List.range 16).map (BitVec.ofNat 5)) ∧
    ((List.range' 16 8).map (BitVec.ofNat 5)).reverse.Perm ((List.range' 16 8).map (BitVec.ofNat 5)) :=
  ⟨List.reverse_perm _, List.reverse_perm _⟩

theorem meets_Fdct4x4WritesTheTransform : (0#5).toNat ≤ 23 ∧ (23#5).toNat ≤ 23 := by decide

/-- All −255 in block 0. -/
theorem meets_FdctOfResidualsNeverWraps : let s : State := { State.reset with diff := filled 16 64 (-255) }
    ∀ r, r < 4 → ∀ c, c < 4 → -255 ≤ s.residualAt 0 r c ∧ s.residualAt 0 r c ≤ 255 ∧ s.residualAt 0 r c = -255 := by
  decide +kernel

theorem meets_Fdct8x4EqualsTwoFdct4x4 : (0#5).toNat % 2 = 0 ∧ (22#5).toNat ≤ 22 ∧ (22#5).toNat % 2 = 0 := by decide

/-- WHOLE and SPLIT. -/
theorem meets_MacroblockTransformsAreTheirSteps : State.reset.mbcfg.mode ≠ 3 ∧ State.reset.mbcfg.mode = 0 ∧
    ({ State.reset with mbcfg := MbCfg.ofWord 1 } : State).mbcfg.mode ≠ 3 ∧
    ({ State.reset with mbcfg := MbCfg.ofWord 1 } : State).mbcfg.mode ≠ 0 := by decide

theorem meets_XformMbEqualsLumaThenChroma : ({ State.reset with mbcfg := MbCfg.ofWord 2 } : State).mbcfg.mode ≠ 3 := by
  decide

theorem meets_DequantizeWritesTheProducts : (0#5).toNat ≤ 24 ∧ (24#5).toNat ≤ 24 := by decide

/-- V2's block, gated with an open gate, and a block with EOB 16 and levels at both limits. -/
theorem meets_OptBlockFrame :
    ((0#5).toNat ≤ 24 ∧ (withCtrl 3 v2).GateAllows true ∧ (withCtrl 3 v2).BlockReady 0 0) ∧
    (24#5).toNat ≤ 24 ∧ atLimits.GateAllows false ∧ atLimits.BlockReady 24 1 := by
  have h : ∀ i, i < ((withCtrl 3 v2).eobAt 0).toNat →
      -2048 ≤ (withCtrl 3 v2).levelScan 0 i ∧ (withCtrl 3 v2).levelScan 0 i ≤ 2047 := by decide +kernel
  have h' : ∀ i, i < (atLimits.eobAt 24).toNat →
      -2048 ≤ atLimits.levelScan 24 i ∧ atLimits.levelScan 24 i ≤ 2047 := by decide +kernel
  exact ⟨⟨by decide, by decide, by decide +kernel, fun i _ hi => h i hi⟩, by decide, by decide, by decide +kernel,
    fun i _ hi => h' i hi⟩

theorem meets_OptBlockMovesLevelsTowardZero : (0#5).toNat ≤ 24 ∧ v2.GateAllows false ∧ v2.BlockReady 0 0 ∧
    firstPos 0 ≤ (v2.eobAt 0).toNat ∧ 1 ≤ (4 : Nat) ∧ 4 < (v2.eobAt 0).toNat ∧ v2.levelScan 0 4 ≠ 0 := by
  have h : ∀ i, i < (v2.eobAt 0).toNat → -2048 ≤ v2.levelScan 0 i ∧ v2.levelScan 0 i ≤ 2047 := by decide +kernel
  exact ⟨by decide, by decide, ⟨by decide +kernel, fun i _ hi => h i hi⟩, by decide +kernel⟩

/-- E = 0 with plane type 0 and EOB_CLAMP 1 (V6), and a block with E = 1 and EOB_CLAMP 0. -/
theorem meets_EobNeverGrows :
    ((withCtrl 4 (eobState 0 0)).GateAllows false ∧ (withCtrl 4 (eobState 0 0)).BlockReady 0 0 ∧
      (withCtrl 4 (eobState 0 0)).ctrl.eobClamp = true ∧ ((withCtrl 4 (eobState 0 0)).eobAt 0).toNat = 0) ∧
    v9.GateAllows false ∧ v9.BlockReady 16 2 ∧ v9.ctrl.eobClamp = false := by
  have h0 : ((withCtrl 4 (eobState 0 0)).eobAt 0).toNat = 0 := by decide +kernel
  have h : ∀ i, i < (v9.eobAt 16).toNat → -2048 ≤ v9.levelScan 16 i ∧ v9.levelScan 16 i ≤ 2047 := by decide +kernel
  exact ⟨⟨by decide, ⟨by omega, fun i _ hi => by omega⟩, by decide, h0⟩, by decide,
    ⟨by decide +kernel, fun i _ hi => h i hi⟩, by decide⟩

/-- V9's block: Q1 holds on it. -/
theorem meets_OptimizationKeepsTheDequantizationInvariant : v9.GateAllows false ∧ v9.BlockReady 16 2 ∧
    ∀ i, i < (v9.eobAt 16).toNat → v9.dqScan 16 i = narrow 16 (v9.levelScan 16 i * v9.deqAt 2 i) := by
  have h : ∀ i, i < (v9.eobAt 16).toNat → -2048 ≤ v9.levelScan 16 i ∧ v9.levelScan 16 i ≤ 2047 := by decide +kernel
  exact ⟨by decide, ⟨by decide +kernel, fun i _ hi => h i hi⟩, by decide +kernel⟩

/-- E = i0 = 1; E = i0 = 0; E = 0 below i0 = 1, with EOB_CLAMP 0 and 1. -/
theorem meets_EmptyBlockIsATrivialPass : (eobState 0 1).GateAllows false ∧
    ((eobState 0 1).eobAt 0).toNat = firstPos 0 ∧ ((eobState 0 0).eobAt 0).toNat = firstPos 3 ∧
    ((eobState 0 0).eobAt 0).toNat < firstPos 0 ∧ (eobState 0 0).ctrl.eobClamp = false ∧
    ((withCtrl 4 (eobState 0 0)).eobAt 0).toNat < firstPos 0 ∧
    (withCtrl 4 (eobState 0 0)).ctrl.eobClamp = true := by decide +kernel

/-- V7's and V9's blocks, E = 1 and n = i0; a plane-type-0 block with zero positions above and below its level; a full
block, E = 16, with its level at scan 15. Each level is eligible. The other premises name values. -/
theorem meets_SingleLevelDecision :
    (v7.GateAllows false ∧ v7.BlockReady 0 3 ∧ (v7.eobAt 0).toNat = 1 ∧ v7.levelScan 0 0 = 1 ∧
      roundable 1 (v7.coefScan 0 0) (v7.deqAt 3 0) = true) ∧
    (v9.GateAllows false ∧ v9.BlockReady 16 2 ∧ (v9.eobAt 16).toNat = 1 ∧ v9.levelScan 16 0 = -3 ∧
      roundable (-3) (v9.coefScan 16 0) (v9.deqAt 2 0) = true) ∧
    (single2.GateAllows false ∧ single2.BlockReady 0 0 ∧ firstPos 0 ≤ 2 ∧ 2 < (single2.eobAt 0).toNat ∧
      single2.levelScan 0 2 = 3 ∧ (∀ i, i < 5 → i ≠ 2 → single2.levelScan 0 i = 0) ∧
      roundable 3 (single2.coefScan 0 2) (single2.deqAt 0 2) = true) ∧
    (single15.GateAllows false ∧ single15.BlockReady 24 1 ∧ (single15.eobAt 24).toNat = 16 ∧
      single15.levelScan 24 15 = -1 ∧ (∀ i, i < 16 → i ≠ 15 → single15.levelScan 24 i = 0) ∧
      roundable (-1) (single15.coefScan 24 15) (single15.deqAt 1 15) = true) := by
  have h : ∀ i, i < (v7.eobAt 0).toNat → -2048 ≤ v7.levelScan 0 i ∧ v7.levelScan 0 i ≤ 2047 := by decide +kernel
  have h2 : ∀ i, i < (single2.eobAt 0).toNat → -2048 ≤ single2.levelScan 0 i ∧ single2.levelScan 0 i ≤ 2047 := by
    decide +kernel
  have h15 : ∀ i, i < (single15.eobAt 24).toNat →
      -2048 ≤ single15.levelScan 24 i ∧ single15.levelScan 24 i ≤ 2047 := by decide +kernel
  exact ⟨⟨by decide, ⟨by decide +kernel, fun i _ hi => h i hi⟩, by decide +kernel⟩,
    ⟨by decide, meets_OptimizationKeepsTheDequantizationInvariant.2.1, by decide +kernel⟩,
    ⟨by decide, ⟨by decide +kernel, fun i _ hi => h2 i hi⟩, by decide +kernel⟩,
    by decide, ⟨by decide +kernel, fun i _ hi => h15 i hi⟩, by decide +kernel⟩

/-- V2's block and an empty one, E = i0. V2 and V14: the paths of the rules' trellis are those of the vectors. -/
theorem meets_OptBlockReplaysTheRulesTrellis :
    (v2.GateAllows false ∧ v2.BlockReady 0 0 ∧ firstPos 0 ≤ (v2.eobAt 0).toNat ∧ v2.rulePath 0 0 = [(2, 3), (4, 0)]) ∧
    ((eobState 0 1).GateAllows false ∧ (eobState 0 1).BlockReady 0 0 ∧ firstPos 0 ≤ ((eobState 0 1).eobAt 0).toNat ∧
      (eobState 0 1).rulePath 0 0 = []) ∧
    v14.rulePath 0 3 = [(0, 4), (3, 0)] := by
  have h : ((eobState 0 1).eobAt 0).toNat = 1 := by decide +kernel
  exact ⟨⟨by decide, meets_OptBlockMovesLevelsTowardZero.2.2.1, by decide +kernel⟩,
    ⟨by decide, ⟨by omega, fun i hi hi' => by simp [firstPos] at hi; omega⟩, by decide +kernel⟩, by decide +kernel⟩

/-- A macroblock of empty blocks. -/
theorem meets_PassesEqualTheirBlocksInOrder : (emptyMb 0).GateAllows false ∧ (emptyMb 0).NeighboursValid ∧ (emptyMb 0).mbcfg.mode ≠ 3 ∧
    ∀ b, b < 25 → ∀ pt, (emptyMb 0).BlockReady b pt := by
  have h : ∀ b, b < 25 → ((emptyMb 0).eobAt b).toNat = 0 := by decide +kernel
  refine ⟨by decide, by decide, by decide, fun b hb pt => ?_⟩
  have := h b hb
  exact ⟨by omega, fun i _ hi => by omega⟩

theorem meets_PassesKeepTheOtherPlanesContext : (emptyMb 0).ctrl.ctxCommit = true ∧
    exec (.optMby false) (emptyMb 0) = .next (after (.optMby false) (emptyMb 0)) ∧
    exec (.optMbuv false) (emptyMb 0) = .next (after (.optMbuv false) (emptyMb 0)) := ⟨rfl, rfl, rfl⟩

/-! ### The source's claims about the optimizer (43_trellis R222, 93 U22): tested, and nowhere assumed -/

/-- 95_test_vectors L1-3: V1, V2, V7 to V9 and V11 to V15, optimized a second time on their own output, do not change. -/
theorem test_idempotence_on_the_vectors : v1.Idempotent 0 0 ∧ v2.Idempotent 0 0 ∧
    v7.Idempotent 0 3 ∧ v8.Idempotent 0 3 ∧
    v9.Idempotent 16 2 ∧ v11.Idempotent 0 0 ∧ v12.Idempotent 5 3 ∧ v13.Idempotent 24 1 ∧
    v14.Idempotent 0 3 ∧ v15.Idempotent 16 2 := by decide +kernel

/-- The same of V10, a full block. -/
theorem test_idempotence_on_a_full_block : v10.Idempotent 0 3 := by decide +kernel

/-- R222: the cost of the block does not grow, on the same vectors (the source: "for all tested inputs"). -/
theorem test_cost_non_regression_on_the_vectors : v1.CostNonRegression 0 0 ∧ v2.CostNonRegression 0 0 ∧
    v7.CostNonRegression 0 3 ∧ v8.CostNonRegression 0 3 ∧
    v9.CostNonRegression 16 2 ∧ v10.CostNonRegression 0 3 ∧ v11.CostNonRegression 0 0 ∧
    v12.CostNonRegression 5 3 ∧ v13.CostNonRegression 24 1 ∧ v14.CostNonRegression 0 3 ∧
    v15.CostNonRegression 16 2 := by decide +kernel

/-- R222, "brute-force enumeration on small synthetic blocks" of 4 nonzero levels: the result costs no more than any of
the 16 choices of levels to round, the unmodified block (k = 0) among them. -/
theorem test_cost_against_every_choice : ∀ k, k < 16 →
    ((four 9).optimize 0 3).blockCost 0 3 0 ≤ (fourRounded 9 k).blockCost 0 3 0 := by decide +kernel

/-- R222 on four further blocks of 4 nonzero levels. -/
theorem test_claims_on_four_levels : ∀ m, m < 4 → (four m).CostNonRegression 0 3 ∧ (four m).Idempotent 0 3 := by
  decide +kernel

/-- Idempotence is no theorem of the rules, as R222 says: here the second optimization also removes the level at scan 1,
which the first one kept. By hand (rdm 4, VC 256): in the first run node 0's rounded state takes node 1's kept level
(rate 906, error 9, cost 23) over its removed one (0, 25, cost 25), and its head (1206, 10, cost 29) wins over
(1762, 58, cost 86); in the second the head compares (1206, 9, cost 28) with the removed level's (50, 25, cost 26). -/
theorem test_idempotence_is_not_a_rule : cheapEob.CostNonRegression 0 3 ∧
    (cheapEob.optimizedOnce 0 3).levelScan 0 1 = 1 ∧ ¬cheapEob.Idempotent 0 3 := by decide +kernel

end Sys2Proof.Tests
end

section
/-! The scope of a step (00_scope R8, 60_exceptions R280, R287): no step writes the OPEN parameters, and none stops
but for a host access outside the window. -/

namespace Sys2Proof.Machine

/-! ### The OPEN parameters are kept -/

/-- Every end of a command keeps the parameters. -/
theorem ends_params {i : Instr} {s t : State} (h : s.Ends i t) : t.params = s.params := by
  obtain ⟨f, rfl⟩ | ⟨u, rfl, hu⟩ := h
  · exact State.raise_params s f
  · rw [State.complete_params, hu.eq]

@[simp] theorem writeCtrl_params (s : State) (w : Word) : (s.writeCtrl w).params = s.params :=
  ite_elim (fun t : State => t.params = s.params) (fun _ => State.softReset_params s) (fun _ => rfl)

@[simp] theorem writeCmd_params (s : State) (w : Word) : (s.writeCmd w).params = s.params :=
  ite_elim (fun t : State => t.params = s.params) (fun _ => rfl) (fun _ => rfl)

@[simp] theorem writeReg_params (s : State) (r : Reg) (w : Word) : (s.writeReg r w).params = s.params := by
  cases r with
  | ctrl => exact writeCtrl_params s w
  | cmd => exact writeCmd_params s w
  | _ => rfl

@[simp] theorem writeLoc_params (s : State) (loc : Loc) (w : Word) : (s.writeLoc loc w).params = s.params := by
  cases loc with
  | reg r => exact writeReg_params s r w
  | _ => rfl

@[simp] theorem writeBusy_params (s : State) (loc : Loc) (w : Word) : (s.writeBusy loc w).params = s.params := by
  unfold State.writeBusy
  split
  · rfl
  · exact writeCmd_params s w
  · rfl

@[simp] theorem writeWindow_params (s : State) (off : Nat) (w : Word) : (s.writeWindow off w).params = s.params :=
  ite_elim (fun t : State => t.params = s.params) (fun _ => writeBusy_params s _ w) (fun _ => writeLoc_params s _ w)

@[simp] theorem readWindow_params (s : State) (off : Nat) : (s.readWindow off).params = s.params := by
  unfold State.readWindow
  split
  · split <;> rfl
  · rfl

theorem hostTurn_params {s t : State} (h : s.HostTurn t) : t.params = s.params := by
  obtain ⟨-, rfl⟩ | ⟨w, n, -, rfl⟩ := h <;> rfl

/-! ### How a step can end -/

/-- An outcome of a step or a move from a state with parameters `p`: a next state with the same parameters, or the
fault of a host access outside the window (log entry 8). -/
def GoesOnOrOutside (p : Params) (o : Host.Outcome State Fault Refusal) : Prop :=
  (∃ t, o = .next t ∧ t.params = p) ∨
    ∃ addr, o = .fault (.outsideWindow addr) ∧ (addr < p.base ∨ p.base + 0x10000 ≤ addr)

theorem goesOnOrOutside_next {p : Params} {t : State} (h : t.params = p) : GoesOnOrOutside p (.next t) :=
  .inl ⟨t, rfl, h⟩

theorem not_inWindow {s : State} {addr : Nat} (h : ¬s.inWindow addr = true) :
    addr < s.params.base ∨ s.params.base + 0x10000 ≤ addr := by
  simp only [State.inWindow, Bool.and_eq_true, decide_eq_true_eq] at h
  omega

/-- A host access whose performing keeps the parameters goes on, or its address is outside. -/
theorem access_goesOnOrOutside (s : State) (addr width : Nat) {f : Nat → State}
    (hf : ∀ off, (f off).params = s.params) : GoesOnOrOutside s.params (s.access addr width f) := by
  unfold State.access
  split
  · split
    · exact goesOnOrOutside_next (hf _)
    · exact goesOnOrOutside_next rfl
  · next h => exact .inr ⟨addr, rfl, not_inWindow h⟩

/-- Only the two accesses of the host can stop. -/
theorem hostMove_goesOnOrOutside (s : State) : GoesOnOrOutside s.params s.hostMove := by
  rcases hhost : s.host with _ | ⟨action, rest⟩ <;> simp only [State.hostMove, hhost]
  · exact goesOnOrOutside_next rfl
  · cases action with
    | read addr width => exact access_goesOnOrOutside { s with host := rest } addr width (readWindow_params _)
    | write addr width w =>
      exact access_goesOnOrOutside { s with host := rest } addr width fun off => writeWindow_params _ off w
    | hardReset => exact goesOnOrOutside_next (State.hardReset_params _)
    | _ => exact goesOnOrOutside_next rfl

/-- A latched word never stops: a command ends, and a word that is none is an error end. -/
theorem runWord_goesOnOrOutside (s : State) (w : Word) : GoesOnOrOutside s.params (s.runWord w) := by
  unfold State.runWord
  split
  · next i _ =>
    obtain ⟨t, ht, hends⟩ := exec_ends i s
    rw [ht]
    exact goesOnOrOutside_next (ends_params hends)
  · exact goesOnOrOutside_next (State.raise_params s _)

/-- Settles O29: a step runs the due word or is the host's turn, and each keeps the parameters or is an access
outside. -/
theorem stepStopsOnlyOutsideTheWindow : Obligations.StepStopsOnlyOutsideTheWindow := by
  intro s
  obtain ⟨w, n, -, -, hstep⟩ | ⟨t, hturn, hstep⟩ := step_cases s
  · rw [hstep]
    exact runWord_goesOnOrOutside s w
  · rw [hstep, ← hostTurn_params hturn]
    exact hostMove_goesOnOrOutside t

end Sys2Proof.Machine
end

section
/-! What every step keeps (10_state R32, R35, R45): the cases of a step, said once, and the two invariants of the
machine proved through them. -/

namespace Sys2Proof.Machine

/-! ### Checks by cases

What holds of the ends a check can give, and of its body once the check has passed, holds of the check. -/

theorem checkBlk_elim (P : State → Prop) {s : State} {legal : BitVec 5 → Bool} {blk : BitVec 5}
    {body : State → State} (hraise : ∀ f, P (s.raise f)) (hbody : legal blk = true → P (body s)) :
    P (s.checkBlk legal blk body) :=
  ite_elim P hbody fun _ => hraise _

theorem checkGate_elim (P : State → Prop) {s : State} {g : Bool} {body : State → State} (hskip : P s.complete)
    (hbody : P (body s)) : P (s.checkGate g body) :=
  ite_elim P (fun _ => hskip) fun _ => hbody

theorem checkGuard_elim (P : State → Prop) {s : State} {body : State → State} (hskip : P s.complete)
    (hbody : P (body s)) : P (s.checkGuard body) :=
  ite_elim P (fun _ => hbody) fun _ => hskip

theorem checkMode_elim (P : State → Prop) {s : State} {body : State → State} (hraise : ∀ f, P (s.raise f))
    (hbody : P (body s)) : P (s.checkMode body) :=
  ite_elim P (fun _ => hraise _) fun _ => hbody

theorem checkBlocks_elim (P : State → Prop) {s : State} {list : List (Nat × BitVec 2)} {body : State → State}
    (hraise : ∀ f, P (s.raise f)) (hbody : P (body s)) : P (s.checkBlocks list body) := by
  unfold State.checkBlocks
  split
  · exact hraise _
  · exact hbody

/-! ### A command is its checks around its body -/

/-- What a command does to the state once all its checks have passed, before it completes. -/
def State.bodyOf (s : State) : Instr → State
  | .nop => s
  | .subB blk => s.residuals (blockIndices blk.toNat)
  | .subMby => s.residuals (List.range 256)
  | .subMbuv => s.residuals (List.range' 256 128)
  | .subMb => s.residuals (List.range 384)
  | .fdct4x4 blk => s.fdctBlock blk.toNat
  | .fdct8x4 blk => s.fdctPair blk.toNat
  | .buildDc => s.buildDc
  | .walsh4x4 => s.walsh
  | .xformMby => if s.hasY2 then (s.fdctPairs lumaPairs).buildDc.walsh else s.fdctPairs lumaPairs
  | .xformMbuv => s.fdctPairs chromaPairs
  | .xformMb =>
    if s.hasY2 then ((s.fdctPairs lumaPairs).buildDc.fdctPairs chromaPairs).walsh
    else (s.fdctPairs lumaPairs).fdctPairs chromaPairs
  | .dqB blk pt => s.dequantBlock blk.toNat pt
  | .optB blk pt _ => s.optimize blk.toNat pt
  | .optMb _ => s.pass s.listMb
  | .optMby _ => s.pass s.listY
  | .optMbuv _ => s.pass listUv
  | .ctxSnap => s.snap
  | .ctxCommit => s.commit

/-- A command fails a check, is skipped by one, or completes its body with a legal BLK. -/
def State.EndsOrRuns (s : State) (i : Instr) (t : State) : Prop :=
  (∃ f, t = s.raise f) ∨ t = s.complete ∨ (i.WellFormed ∧ t = (s.bodyOf i).complete)

theorem endsOrRuns_raise (s : State) (i : Instr) (f : Failure) : s.EndsOrRuns i (s.raise f) := .inl ⟨f, rfl⟩

theorem endsOrRuns_skip (s : State) (i : Instr) : s.EndsOrRuns i s.complete := .inr (.inl rfl)

theorem endsOrRuns_body {s : State} {i : Instr} (h : i.WellFormed) : s.EndsOrRuns i (s.bodyOf i).complete :=
  .inr (.inr ⟨h, rfl⟩)

/-- The case analysis of a command (60_exceptions R283): its checks, in order, around its body. -/
theorem exec_cases (i : Instr) (s : State) : ∃ t, exec i s = .next t ∧ s.EndsOrRuns i t := by
  have hraise := endsOrRuns_raise s i
  have hskip := endsOrRuns_skip s i
  have hbody := @endsOrRuns_body s i
  cases i with
  | subB blk => exact ⟨_, rfl, checkBlk_elim _ hraise hbody⟩
  | fdct4x4 blk => exact ⟨_, rfl, checkBlk_elim _ hraise hbody⟩
  | fdct8x4 blk => exact ⟨_, rfl, checkBlk_elim _ hraise hbody⟩
  | dqB blk pt => exact ⟨_, rfl, checkBlk_elim _ hraise hbody⟩
  | xformMby => exact ⟨_, rfl, checkMode_elim _ hraise (hbody rfl)⟩
  | xformMb =>
    refine ⟨_, rfl, checkMode_elim _ hraise ?_⟩
    have h := hbody rfl
    unfold State.bodyOf at h
    by_cases hy : s.hasY2 = true
    · simp only [hy, if_true] at h ⊢
      exact h
    · simp only [hy, Bool.false_eq_true, if_false] at h ⊢
      exact h
  | optB blk pt g =>
    exact ⟨_, rfl, checkBlk_elim _ hraise fun hlegal => checkGate_elim _ hskip
      (checkBlocks_elim _ hraise (hbody hlegal))⟩
  | optMb g =>
    exact ⟨_, rfl, checkGate_elim _ hskip (checkMode_elim _ hraise (checkBlocks_elim _ hraise (hbody rfl)))⟩
  | optMby g =>
    exact ⟨_, rfl, checkGate_elim _ hskip (checkGuard_elim _ hskip (checkMode_elim _ hraise
      (checkBlocks_elim _ hraise (hbody rfl))))⟩
  | optMbuv g =>
    exact ⟨_, rfl, checkGate_elim _ hskip (checkGuard_elim _ hskip (checkBlocks_elim _ hraise (hbody rfl)))⟩
  | _ => exact ⟨_, rfl, hbody rfl⟩

theorem exec_next_cases {i : Instr} {s t : State} (h : exec i s = .next t) : s.EndsOrRuns i t := by
  obtain ⟨u, hu, hcases⟩ := exec_cases i s
  cases h.symm.trans hu
  exact hcases

/-! ### A step by cases -/

/-- What one move of the host leaves when it goes on: only the host's side changed, or a word was written to the
window, or the hardware reset was asserted. -/
inductive State.Moved (s : State) : State → Prop
  | hostSide (host : List HostAction) (reply : Option Reply) (fresh : Nat) :
    s.Moved { s with host := host, reply := reply, fresh := fresh }
  | write (host : List HostAction) (off : Nat) (w : Word) :
    s.Moved (({ s with host := host } : State).writeWindow off w)
  | hardReset (host : List HostAction) : s.Moved ({ s with host := host } : State).hardReset

/-- An access goes on with what it performs or with a bus error. -/
theorem access_next {s t : State} {addr width : Nat} {f : Nat → State} (h : s.access addr width f = .next t) :
    (∃ off, t = f off) ∨ t = { s with reply := some .busError } := by
  unfold State.access at h
  split at h
  · split at h <;> cases h
    · exact .inl ⟨_, rfl⟩
    · exact .inr rfl
  · cases h

/-- A read changes the reply and the count of free values only (20_memory R77). -/
theorem readWindow_hostSide (s : State) (off : Nat) :
    ∃ reply fresh, s.readWindow off = { s with reply := reply, fresh := fresh } := by
  unfold State.readWindow
  split
  · split
    · exact ⟨_, _, rfl⟩
    · exact ⟨_, s.fresh, rfl⟩
  · exact ⟨_, s.fresh, rfl⟩

theorem hostMove_moved {s t : State} (h : s.hostMove = .next t) : s.Moved t := by
  rcases hhost : s.host with _ | ⟨action, rest⟩ <;> simp only [State.hostMove, hhost] at h
  · cases h
    exact .hostSide s.host s.reply s.fresh
  · cases action with
    | read addr width =>
      obtain ⟨off, rfl⟩ | rfl := access_next h
      · obtain ⟨reply, fresh, hread⟩ := readWindow_hostSide { s with host := rest } off
        rw [hread]
        exact .hostSide rest reply fresh
      · exact .hostSide rest _ s.fresh
    | write addr width w =>
      obtain ⟨off, rfl⟩ | rfl := access_next h
      · exact .write rest off w
      · exact .hostSide rest _ s.fresh
    | poll => cases h; exact .hostSide _ _ s.fresh
    | waitIrq => cases h; exact .hostSide _ s.reply s.fresh
    | idle => cases h; exact .hostSide rest s.reply s.fresh
    | hardReset => cases h; exact .hardReset rest

/-- HOW AN INVARIANT OF THE MACHINE IS PROVED: it is kept by the run of a latched word, by the passing of a BUSY step,
and by the host's moves. -/
theorem step_keeps {P : State → Prop}
    (hrun : ∀ (s t : State) w n, s.latch = some { word := w, left := n } → P s → s.runWord w = .next t → P t)
    (hcount : ∀ (s : State) w n, s.latch = some { word := w, left := n + 2 } → P s →
      P { s with latch := some { word := w, left := n + 1 } })
    (hhost : ∀ (s : State) host reply fresh, P s → P { s with host := host, reply := reply, fresh := fresh })
    (hwrite : ∀ (s : State) off w, P s → P (s.writeWindow off w)) (hreset : ∀ s : State, P s → P s.hardReset) :
    ∀ s t : State, P s → step s = .next t → P t := by
  intro s t hs hst
  obtain ⟨w, n, hlatch, -, hstep⟩ | ⟨u, hturn, hstep⟩ := step_cases s
  · exact hrun s t w n hlatch hs (hstep ▸ hst)
  · have hu : P u := by
      obtain ⟨-, rfl⟩ | ⟨w, n, hlatch, rfl⟩ := hturn
      · exact hs
      · exact hcount s w n hlatch hs
    cases hostMove_moved (hstep ▸ hst) with
    | hostSide host reply fresh => exact hhost u host reply fresh hu
    | write host off w => exact hwrite _ off w (hhost u host u.reply u.fresh hu)
    | hardReset host => exact hreset _ (hhost u host u.reply u.fresh hu)

/-! ### The BUSY handshake -/

/-- The handshake is kept while the latch is, as long as DONE and ERR do not rise. -/
theorem handshake_of_flags {s t : State} (hlatch : t.latch = s.latch)
    (hdone : t.status.done = true → s.status.done = true) (herr : s.status.error = none → t.status.error = none)
    (h : s.Handshake) : t.Handshake := by
  obtain ⟨hexcl, hbusy⟩ := h
  refine ⟨fun hd => herr (hexcl (hdone hd)), fun c hc => ?_⟩
  obtain ⟨hd, he, hleft⟩ := hbusy c (hlatch ▸ hc)
  exact ⟨Bool.eq_false_iff.mpr fun h => by simp [hdone h] at hd, herr he, hleft⟩

/-- An engine with nothing latched meets the handshake if DONE and ERR are not both 1. -/
theorem handshake_idle {t : State} (hlatch : t.latch = none)
    (h : t.status.done = true → t.status.error = none) : t.Handshake :=
  ⟨h, fun c hc => by simp [hlatch] at hc⟩

/-- The end of a command: either DONE or ERR, and nothing latched (10_state R32, 60_exceptions R284). -/
theorem ends_flags {i : Instr} {s t : State} (h : s.Ends i t) :
    t.latch = none ∧ ((t.status.done = true ∧ t.status.error = s.status.error) ∨
      (t.status.done = false ∧ t.status.error.isSome = true)) := by
  obtain ⟨f, rfl⟩ | ⟨u, rfl, hu⟩ := h
  · exact ⟨rfl, .inr ⟨rfl, rfl⟩⟩
  · refine ⟨rfl, .inl ⟨rfl, ?_⟩⟩
    rw [State.complete_status, hu.eq]

theorem raise_handshake (s : State) (f : Failure) : (s.raise f).Handshake :=
  handshake_idle rfl fun h => by simp at h

theorem exec_handshake {i : Instr} {s t : State} (herr : s.status.error = none) (h : exec i s = .next t) :
    t.Handshake := by
  obtain ⟨hlatch, ⟨-, hkeep⟩ | ⟨hdone, -⟩⟩ := ends_flags (exec_next_ends h)
  · exact handshake_idle hlatch fun _ => hkeep.trans herr
  · exact handshake_idle hlatch fun hd => by simp [hdone] at hd

theorem runWord_handshake {s t : State} {w : Word} (herr : s.status.error = none) (h : s.runWord w = .next t) :
    t.Handshake := by
  unfold State.runWord at h
  split at h
  · exact exec_handshake herr h
  · cases h
    exact raise_handshake s _

theorem writeStatus_handshake {s : State} (w : Word) (h : s.Handshake) : (s.writeStatus w).Handshake :=
  handshake_of_flags (s := s) rfl (fun hd => (Bool.and_eq_true_iff.mp hd).1)
    (fun he => ite_elim (fun e => e = none) (fun _ => rfl) fun _ => he) h

/-- An accepted CMD write clears DONE and has a BUSY step left; a refused one leaves the latch (60_exceptions R282). -/
theorem writeCmd_handshake {s : State} (w : Word) (h : s.Handshake) : (s.writeCmd w).Handshake := by
  refine ite_elim State.Handshake (fun _ => handshake_of_flags rfl id id h) fun hfree => ?_
  simp only [Bool.or_eq_true, not_or, Bool.not_eq_true, Option.isSome_eq_false_iff, Option.isNone_iff_eq_none] at hfree
  have herr := hfree.2
  refine ⟨fun _ => herr, fun c hc => ?_⟩
  cases hc
  exact ⟨rfl, herr, Nat.succ_le_succ (Nat.zero_le _)⟩

theorem writeCtrl_handshake {s : State} (w : Word) (h : s.Handshake) : (s.writeCtrl w).Handshake :=
  ite_elim State.Handshake (fun _ => handshake_idle rfl fun _ => rfl) fun _ => h

theorem writeReg_handshake {s : State} (r : Reg) (w : Word) (h : s.Handshake) : (s.writeReg r w).Handshake := by
  cases r with
  | ctrl => exact writeCtrl_handshake w h
  | status => exact writeStatus_handshake w h
  | cmd => exact writeCmd_handshake w h
  | _ => exact h

theorem writeLoc_handshake {s : State} (loc : Loc) (w : Word) (h : s.Handshake) : (s.writeLoc loc w).Handshake := by
  cases loc with
  | reg r => exact writeReg_handshake r w h
  | _ => exact h

theorem writeBusy_handshake {s : State} (loc : Loc) (w : Word) (h : s.Handshake) : (s.writeBusy loc w).Handshake := by
  unfold State.writeBusy
  split
  · exact writeStatus_handshake w h
  · exact writeCmd_handshake w h
  · exact handshake_of_flags rfl id id h

theorem writeWindow_handshake {s : State} (off : Nat) (w : Word) (h : s.Handshake) :
    (s.writeWindow off w).Handshake :=
  ite_elim State.Handshake (fun _ => writeBusy_handshake _ w h) fun _ => writeLoc_handshake _ w h

/-- Settles O26: by the cases of a step; a command runs with ERR 0, so its end sets one of DONE and ERR only. -/
theorem stepKeepsTheHandshake : Obligations.StepKeepsTheHandshake := by
  refine step_keeps (P := State.Handshake) ?_ ?_ (fun s _ _ _ h => h) (fun s off w h => writeWindow_handshake off w h)
    fun s _ => handshake_idle rfl fun _ => rfl
  · intro s t w n hlatch hs hrun
    exact runWord_handshake (hs.2 _ hlatch).2.1 hrun
  · intro s w n hlatch hs
    obtain ⟨hexcl, hbusy⟩ := hs
    obtain ⟨hdone, herr, -⟩ := hbusy _ hlatch
    refine ⟨hexcl, fun c hc => ?_⟩
    cases hc
    exact ⟨hdone, herr, Nat.succ_le_succ (Nat.zero_le n)⟩

end Sys2Proof.Machine
end

section
/-! Every step keeps the arrays in canonical form (10_state R45; log entry 5), and reset meets both invariants. -/

namespace Sys2Proof.Machine

/-! ### The commands -/

theorem blkOfPlane_lt {blk : BitVec 5} (h : blkOfPlane blk = true) : blk.toNat < 24 :=
  Nat.lt_succ_of_le (of_decide_eq_true h)

theorem blkOfPair_lt {blk : BitVec 5} (h : blkOfPair blk = true) : blk.toNat + 1 < 24 :=
  Nat.succ_lt_succ (Nat.lt_succ_of_le (of_decide_eq_true (Bool.and_eq_true_iff.mp h).1))

theorem blkOfSlot_lt {blk : BitVec 5} (h : blkOfSlot blk = true) : blk.toNat < 25 :=
  Nat.lt_succ_of_le (of_decide_eq_true h)

/-- The elements of the blocks of the planes are the first 384 of DIFF (40_residual R130). -/
theorem blockIndices_lt {b : Nat} (hb : b < 24) : ∀ j ∈ blockIndices b, j < 384 := by
  revert b
  decide

theorem arraysWf_fdctBlock {s : State} {b : Nat} (hb : b < 25) (h : s.ArraysWf) : (s.fdctBlock b).ArraysWf :=
  arraysWf_storeCoeff s b _ hb h

theorem arraysWf_walsh {s : State} (h : s.ArraysWf) : s.walsh.ArraysWf := arraysWf_storeCoeff s 24 _ (by decide) h

/-- The luma blocks and the chroma blocks have distinct numbers, and so has block 24 (44_orchestration R252). -/
theorem mem_listY {s : State} {bt : Nat × BitVec 2} (h : bt ∈ s.listY) : bt.1 < 16 ∨ bt.1 = 24 := by
  rcases List.mem_append.mp h with h | h
  · obtain ⟨b, hb, rfl⟩ := List.mem_map.mp h
    exact .inl (List.mem_range.mp hb)
  · unfold State.secondOrderBlock at h
    split at h
    · exact .inr (by rw [List.mem_singleton.mp h])
    · simp at h

theorem mem_listUv {bt : Nat × BitVec 2} (h : bt ∈ listUv) : 16 ≤ bt.1 ∧ bt.1 < 24 := by
  obtain ⟨b, hb, rfl⟩ := List.mem_map.mp h
  exact List.mem_range'_1.mp hb

/-- LIST_MB has the blocks of LIST_Y and of LIST_UV. -/
theorem mem_listMb {s : State} {bt : Nat × BitVec 2} : bt ∈ s.listMb ↔ bt ∈ s.listY ∨ bt ∈ listUv := by
  simp only [State.listMb, State.listY, List.mem_append]
  tauto

theorem listY_lt (s : State) : ∀ bt ∈ s.listY, bt.1 < 25 := fun _ h => by
  have := mem_listY h
  omega

theorem listUv_lt : ∀ bt ∈ listUv, bt.1 < 25 := fun _ h => by
  have := mem_listUv h
  omega

theorem listMb_lt (s : State) : ∀ bt ∈ s.listMb, bt.1 < 25 := fun bt h =>
  (mem_listMb.mp h).elim (listY_lt s bt) (listUv_lt bt)

theorem arraysWf_pass {s : State} {list : List (Nat × BitVec 2)} (hb : ∀ bt ∈ list, bt.1 < 25) (h : s.ArraysWf) :
    (s.pass list).ArraysWf :=
  ite_elim State.ArraysWf (fun _ => arraysWf_optimizeAll s.snap list hb h)
    fun _ => arraysWf_optimizeAll s.snap list hb h

/-- Every command with a legal BLK stores inside the arrays (10_state R45). -/
theorem arraysWf_bodyOf {s : State} {i : Instr} (hi : i.WellFormed) (h : s.ArraysWf) : (s.bodyOf i).ArraysWf := by
  have hluma : (s.fdctPairs lumaPairs).ArraysWf := arraysWf_fdctPairs s _ (by decide) h
  have hdc := arraysWf_buildDc _ hluma
  have hchroma (u : State) (hu : u.ArraysWf) : (u.fdctPairs chromaPairs).ArraysWf :=
    arraysWf_fdctPairs u _ (by decide) hu
  cases i with
  | nop => exact h
  | subB blk => exact arraysWf_residuals s _ (blockIndices_lt (blkOfPlane_lt hi)) h
  | subMby => exact arraysWf_residuals s _ (fun j hj => by have := List.mem_range.mp hj; omega) h
  | subMbuv => exact arraysWf_residuals s _ (fun j hj => (List.mem_range'_1.mp hj).2) h
  | subMb => exact arraysWf_residuals s _ (fun j hj => List.mem_range.mp hj) h
  | fdct4x4 blk => exact arraysWf_fdctBlock (Nat.lt_succ_of_lt (blkOfPlane_lt hi)) h
  | fdct8x4 blk =>
    have hlt := blkOfPair_lt hi
    exact arraysWf_fdctBlock (by omega) (arraysWf_fdctBlock (by omega) h)
  | buildDc => exact arraysWf_buildDc s h
  | walsh4x4 => exact arraysWf_walsh h
  | xformMby => exact ite_elim State.ArraysWf (fun _ => arraysWf_walsh hdc) fun _ => hluma
  | xformMbuv => exact hchroma s h
  | xformMb => exact ite_elim State.ArraysWf (fun _ => arraysWf_walsh (hchroma _ hdc)) fun _ => hchroma _ hluma
  | dqB blk pt => exact arraysWf_dequantBlock s _ pt (blkOfSlot_lt hi) h
  | optB blk pt g => exact arraysWf_optimize s _ pt (blkOfSlot_lt hi) h
  | optMb g => exact arraysWf_pass (listMb_lt s) h
  | optMby g => exact arraysWf_pass (listY_lt s) h
  | optMbuv g => exact arraysWf_pass listUv_lt h
  | ctxSnap => exact h
  | ctxCommit => exact h

theorem exec_arraysWf {i : Instr} {s t : State} (h : s.ArraysWf) (hexec : exec i s = .next t) : t.ArraysWf := by
  obtain ⟨f, rfl⟩ | rfl | ⟨hi, rfl⟩ := exec_next_cases hexec
  · exact h
  · exact arraysWf_complete s h
  · exact arraysWf_complete _ (arraysWf_bodyOf hi h)

theorem runWord_arraysWf {s t : State} {w : Word} (h : s.ArraysWf) (hrun : s.runWord w = .next t) : t.ArraysWf := by
  unfold State.runWord at hrun
  split at hrun
  · exact exec_arraysWf h hrun
  · cases hrun
    exact h

/-! ### The host -/

theorem writeReg_arraysWf {s : State} (r : Reg) (w : Word) (h : s.ArraysWf) : (s.writeReg r w).ArraysWf := by
  cases r with
  | ctrl => exact ite_elim State.ArraysWf (fun _ => h) fun _ => h
  | cmd => exact ite_elim State.ArraysWf (fun _ => h) fun _ => h
  | _ => exact h

theorem writeBusy_arraysWf {s : State} (loc : Loc) (w : Word) (h : s.ArraysWf) : (s.writeBusy loc w).ArraysWf := by
  unfold State.writeBusy
  split
  · exact h
  · exact writeReg_arraysWf .cmd w h
  · exact h

/-- The map names no element outside its array, so a host write keeps the form. -/
theorem writeWindow_arraysWf {s : State} (off : Nat) (w : Word) (h : s.ArraysWf) : (s.writeWindow off w).ArraysWf := by
  refine ite_elim State.ArraysWf (fun _ => writeBusy_arraysWf _ w h) fun _ => ?_
  have hin := locate_inArray off
  cases hloc : locate off with
  | reg r => exact writeReg_arraysWf r w h
  | reserved => exact h
  | _ => exact arraysWf_writeLoc s _ w rfl (hloc ▸ hin) h

theorem powerOn_arraysWf (p : Params) (epoch : Nat) : (State.powerOn p epoch).ArraysWf :=
  ⟨rfl, rfl, rfl, rfl, rfl, rfl, rfl, rfl, rfl, rfl⟩

theorem powerOn_handshake (p : Params) (epoch : Nat) : (State.powerOn p epoch).Handshake :=
  handshake_idle rfl fun _ => rfl

/-- Settles O27: by the cases of a step; every command's body and every host write stores inside the arrays. -/
theorem stepKeepsTheArraysCanonical : Obligations.StepKeepsTheArraysCanonical :=
  step_keeps (P := State.ArraysWf) (fun _ _ _ _ _ h hrun => runWord_arraysWf h hrun) (fun _ _ _ _ h => h)
    (fun _ _ _ _ h => h) (fun _ off w h => writeWindow_arraysWf off w h)
    fun s _ => powerOn_arraysWf s.params (s.epoch + 1)

/-- Settles O28: State.reset is State.powerOn with the default parameters. -/
theorem resetSatisfiesTheInvariants : Obligations.ResetSatisfiesTheInvariants := fun p e =>
  ⟨powerOn_handshake p e, powerOn_arraysWf p e, powerOn_handshake _ _, powerOn_arraysWf _ _⟩

end Sys2Proof.Machine
end

section
/-! The commands as the host sees them: when a latched word runs (10_state R32, 70_reset R340), how it ends
(60_exceptions R280..R285), and which state it writes (10_state R46). -/

namespace Sys2Proof.Machine

/-! ### When the latched word runs -/

theorem runWord_ok {s : State} {w : Word} {i : Instr} (h : decode w = .ok i) : s.runWord w = exec i s := by
  simp only [State.runWord, h]

theorem runWord_error {s : State} {w : Word} {e : DecodeError} (h : decode w = .error e) :
    s.runWord w = .next (s.raise (decodeFailure e)) := by
  simp only [State.runWord, h]

/-- Settles O8: the due word runs, by its decoding. -/
theorem stepRunsTheLatchedCommand : Obligations.StepRunsTheLatchedCommand := by
  intro s w n hlatch hn
  rw [step_due s w n hlatch hn]
  exact ⟨fun _ => runWord_ok, fun _ => runWord_error⟩

/-- A step of a BUSY engine before its last one, when the host has nothing to do, counts down. -/
theorem step_countDown {s : State} {w : Word} {n : Nat} (hlatch : s.latch = some { word := w, left := n + 2 })
    (hhost : s.host = []) : step s = .next { s with latch := some { word := w, left := n + 1 } } := by
  rw [hostTurn_step s _ (.inr ⟨w, n, hlatch, rfl⟩)]
  simp only [State.hostMove, hhost]

theorem run_one (M : Host.Core) {s t : M.State} (h : M.step s = .next t) : M.run 1 s = .next t := run_next M 0 s t h

/-- A latched command with `n + 1` steps left, which the host leaves alone, runs in the last of them. -/
theorem run_latched {s : State} {w : Word} {i : Instr} {n : Nat} (hdecode : decode w = .ok i) (hhost : s.host = [])
    (hlatch : s.latch = some { word := w, left := n + 1 }) :
    Sys2Proof.core.run (n + 1) s = exec i { s with latch := some { word := w, left := 1 } } := by
  induction n generalizing s with
  | zero =>
    obtain ⟨t, ht, -⟩ := exec_cases i s
    have hstep : step s = .next t := by rw [step_due s w 1 hlatch le_rfl, runWord_ok hdecode, ht]
    have hs : { s with latch := some { word := w, left := 1 } } = s := by rw [← hlatch]
    rw [hs, ht]
    exact run_one Sys2Proof.core hstep
  | succ n ih =>
    rw [run_next Sys2Proof.core _ s _ (step_countDown hlatch hhost)]
    exact ih hhost rfl

/-- A CMD write to the engine with BUSY and ERR 0 latches the word for LATENCY(op) steps (60_exceptions R282). -/
theorem writeWindow_cmd_accepted {s : State} (w : Word) (hlatch : s.latch = none) (herr : s.status.error = none) :
    s.writeWindow 0x00C w = { s with
      reply := some .taken, latch := some { word := w, left := s.latency w },
      status := { s.status with done := false } } := by
  rw [writeWindow_idle s _ w hlatch]
  show ({ s.writeCmd w with reply := some .taken } : State) = _
  simp [State.writeCmd, State.busy, hlatch, herr]

/-- Settles O10: the write latches the word, and LATENCY(op) more steps count down and run it. -/
theorem acceptedCommandRunsAfterItsLatency : Obligations.AcceptedCommandRunsAfterItsLatency := by
  intro s w i hlatch herr hhost hdecode
  have hstep : step s = .next (({ s with host := [] } : State).writeWindow 0x00C w) := by
    rw [hostTurn_step s s (.inl ⟨hlatch, rfl⟩)]
    simp only [State.hostMove, hhost]
    exact hostWrite_word _ _ _ w (wordAt_base ({ s with host := [] } : State) (by decide) (by decide))
  rw [writeWindow_cmd_accepted (s := { s with host := [] }) w hlatch herr] at hstep
  rw [run_next Sys2Proof.core _ s _ hstep]
  exact run_latched hdecode rfl rfl

/-! ### How a command ends -/

/-- Settles O30: every command answers a next state, which is one of its ends. -/
theorem everyCommandEnds : Obligations.EveryCommandEnds := by
  intro i s
  obtain ⟨t, ht, hends⟩ := exec_ends i s
  exact ⟨t, ht, ends_flags hends⟩

theorem checkMode_reserved {s : State} {body : State → State} (h : s.mbcfg.mode = 3) :
    s.checkMode body = s.failsWith .badMode 0 0 := if_pos h

/-- Settles O36: gate and guard let the command on, and the check of MODE fails. -/
theorem reservedModeEndsInError : Obligations.ReservedModeEndsInError := by
  intro s g hmode
  refine ⟨congrArg _ (checkMode_reserved hmode), congrArg _ (checkMode_reserved hmode), fun hgate => ?_,
    fun hgate hguard => ?_⟩
  · show Host.Outcome.next (s.checkGate g _) = _
    rw [checkGate_allowed s g _ hgate, checkMode_reserved hmode]
  · show Host.Outcome.next (s.checkGate g _) = _
    rw [checkGate_allowed s g _ hgate, checkGuard_valid s _ hguard.1 hguard.2, checkMode_reserved hmode]

/-! ### Which state a command writes -/

theorem hasY2_iff (s : State) : s.hasY2 = true ↔ s.mbcfg.mode = 0 := decide_eq_true_iff

/-- Settles O21: an error end writes STATUS and ERRINFO only, and a completed body what its class of commands may. -/
theorem commandsWriteOnlyTheirState : Obligations.CommandsWriteOnlyTheirState := by
  intro i s t h
  obtain ⟨f, rfl⟩ | ⟨u, rfl, hu⟩ := exec_next_ends h
  · simp
  · obtain ⟨heq, -, -, hdiff, hcoeff, hqcoeff, hdqcoeff, heob, hwctx, hctx⟩ := hu
    rw [hasY2_iff] at hdiff
    simp only [State.complete_diff, State.complete_coeff, State.complete_qcoeff, State.complete_dqcoeff,
      State.complete_eob, State.complete_wctxAbove, State.complete_wctxLeft, State.complete_ctxAbove,
      State.complete_ctxLeft]
    have frame {α : Type} (f : State → α) := congrArg (fun v => f v.complete) heq
    exact ⟨frame State.ctrl, frame State.mbcfg, frame State.rdmult, frame State.rddiv, frame State.prm,
      frame State.src, frame State.pred, frame State.deq, frame State.tc, frame State.vc, frame State.params,
      frame State.host, frame State.reply, frame State.epoch, frame State.fresh, frame fun v => v.status.ovr,
      frame fun v => v.status.busywr, hdiff.resolve_left, hcoeff.resolve_left, hqcoeff.resolve_left,
      hdqcoeff.resolve_left, heob.resolve_left, fun hne => hwctx.resolve_left fun h => by simp [h] at hne,
      fun hne => hctx.resolve_left fun h => by simp [h] at hne, fun hne => absurd (frame State.errinfo) hne⟩

end Sys2Proof.Machine
end

section
/-! The window's words (10_state R33..R44, 20_memory R70..R72): register words bit by bit, what a register write stores,
and which element stands at which offset. -/

namespace Sys2Proof.Machine

/-! ### STATUS -/

theorem bitAt_getLsbD (f : Bool) (n i : Nat) :
    (bitAt f n).getLsbD i = (decide (i < 32) && (decide (i = n) && f)) := by
  cases f
  · simp [bitAt]
  · simp only [bitAt, BitVec.ofBool_true, BitVec.getLsbD_shiftLeft, BitVec.getLsbD_setWidth]
    grind

/-- Above its flags STATUS reads ERRCODE, at bits 11:8 (10_state R35). -/
theorem statusWord_shiftRight (s : State) : s.statusWord >>> 6 = s.status.errcode.setWidth 32 <<< 2 := by
  refine BitVec.eq_of_getLsbD_eq fun i hi => ?_
  have hflag : ∀ n, n < 6 → ¬6 + i = n := by omega
  have hcode : 6 + i - 8 = i - 2 := by omega
  simp only [State.statusWord, BitVec.getLsbD_ushiftRight, BitVec.getLsbD_or, BitVec.getLsbD_shiftLeft,
    BitVec.getLsbD_setWidth, bitAt_getLsbD, hflag, Nat.reduceLT, decide_false, Bool.false_and, Bool.and_false,
    Bool.false_or, hcode]
  by_cases h : i < 26
  · have h2 : 6 + i < 8 ↔ i < 2 := by omega
    have h32 : 6 + i < 32 := by omega
    simp only [hi, h2, h32]
  · simp [BitVec.getLsbD_of_ge s.status.errcode (i - 2) (by omega)]

/-- The flags of STATUS at their bits (10_state R35). -/
theorem statusWord_flags (s : State) :
    s.statusWord.getLsbD 0 = s.latch.isSome ∧ s.statusWord.getLsbD 1 = s.status.done ∧
      s.statusWord.getLsbD 2 = s.status.error.isSome ∧ s.statusWord.getLsbD 3 = s.status.ovr ∧
      s.statusWord.getLsbD 4 = s.status.wrap ∧ s.statusWord.getLsbD 5 = s.status.busywr := by
  simp only [State.statusWord, State.busy, BitVec.getLsbD_or, BitVec.getLsbD_shiftLeft, bitAt_getLsbD]
  simp

theorem errcode_none {st : Status} (h : st.error = none) : st.errcode = 0 := by
  simp only [Status.errcode, h]
  rfl

theorem errcode_some {st : Status} {c : ErrorCode} (h : st.error = some c) : st.errcode = c.number := by
  simp only [Status.errcode, h]

/-- A STATUS write is performed IDLE or BUSY (10_state R35, 20_memory R80). -/
theorem writeWindow_status (s : State) (w : Word) :
    s.writeWindow 0x008 w = { s with reply := some .taken, status := s.status.cleared w } := by
  rw [← clearWith_cleared]
  unfold State.writeWindow
  split <;> rfl

/-- Settles O13: the write goes to STATUS, and STATUS reads its flags and, above them, ERRCODE. -/
theorem statusWriteClearsTheNamedFlags : Obligations.StatusWriteClearsTheNamedFlags := by
  intro s w
  obtain ⟨h0, h1, h2, h3, h4, h5⟩ := statusWord_flags s
  refine ⟨?_, h0, h1, h2, h3, h4, h5, fun h => ?_, fun p hp h => ?_⟩
  · rw [hostWrite_word s _ _ w (wordAt_base s (by decide) (by decide)), writeWindow_status]
  · exact (statusWord_shiftRight s).trans (by rw [errcode_none h]; rfl)
  · have hnumber : ∀ p ∈ ([(.illegalOp, 1), (.rsvdField, 2), (.badBlk, 3), (.badEob, 5), (.badLevel, 6),
        (.badMode, 7)] : List (ErrorCode × Nat)), p.1.number.setWidth 32 <<< 2 = BitVec.ofNat 32 (4 * p.2) := by decide
    exact (statusWord_shiftRight s).trans (by rw [errcode_some h, hnumber p hp])

/-! ### Registers -/

/-- The bits a register stores of a word written to it; 0 for the registers whose writes do something else or
nothing (10_state R33..R43). -/
def Reg.fields : Reg → Word
  | .ctrl => 0xF#32
  | .mbcfg => 0x1F#32
  | .rdmult => 0xFFFFFFFF#32
  | .rddiv => 0xFFFFFFFF#32
  | .prm _ => 0xFFFFFFFF#32
  | .ctxAbove => 0x1FF#32
  | .ctxLeft => 0x1FF#32
  | .wctxAbove => 0x1FF#32
  | .wctxLeft => 0x1FF#32
  | .id => 0
  | .status => 0
  | .cmd => 0
  | .version => 0
  | .errinfo => 0

theorem ctrl_word_ofWord (w : Word) : (Ctrl.ofWord w).word = w &&& 0xF#32 := by
  refine BitVec.eq_of_getLsbD_eq fun i hi => ?_
  simp only [Ctrl.word, Ctrl.ofWord, BitVec.getLsbD_or, bitAt_getLsbD, BitVec.getLsbD_and]
  interval_cases i <;> simp

theorem mbcfg_word_ofWord (w : Word) : (MbCfg.ofWord w).word = w &&& 0x1F#32 := by
  refine BitVec.eq_of_getLsbD_eq fun i hi => ?_
  simp only [MbCfg.word, MbCfg.ofWord, BitVec.getLsbD_or, bitAt_getLsbD, BitVec.getLsbD_and, BitVec.getLsbD_setWidth,
    BitVec.getLsbD_extractLsb']
  interval_cases i <;> simp

theorem setWidth_nine (w : Word) : (w.setWidth 9).setWidth 32 = w &&& 0x1FF#32 := by
  refine BitVec.eq_of_getLsbD_eq fun i hi => ?_
  simp only [BitVec.getLsbD_setWidth, BitVec.getLsbD_and]
  interval_cases i <;> simp

theorem eq_and_ones (w : Word) : w = w &&& 0xFFFFFFFF#32 := (BitVec.and_allOnes (x := w)).symm

theorem writeReg_ctrl (s : State) {w : Word} (h : w.getLsbD 31 = false) :
    s.writeReg .ctrl w = { s with ctrl := Ctrl.ofWord w } :=
  if_neg (ne_true_of_eq_false h)

/-- A register read after a write to it (10_state R34, R37, R38, R40..R42). -/
theorem readReg_writeReg_same (s : State) {r : Reg} {w : Word} (hr : r.fields ≠ 0)
    (hsoft : r = .ctrl → w.getLsbD 31 = false) : (s.writeReg r w).readReg r = w &&& r.fields := by
  cases r with
  | id | status | cmd | version | errinfo => exact absurd rfl hr
  | ctrl =>
    rw [writeReg_ctrl s (hsoft rfl)]
    exact ctrl_word_ofWord w
  | mbcfg => exact mbcfg_word_ofWord w
  | rdmult | rddiv => exact eq_and_ones w
  | prm t => exact (Vector.getElem_set_self t.isLt).trans (eq_and_ones w)
  | ctxAbove | ctxLeft | wctxAbove | wctxLeft => exact setWidth_nine w

/-- Every other word read after a write to a register that stores its fields. -/
theorem readLoc_writeReg_other (s : State) {r : Reg} {w : Word} {loc : Loc} (hr : r.fields ≠ 0)
    (hsoft : r = .ctrl → w.getLsbD 31 = false) (hne : loc ≠ .reg r) :
    (s.writeReg r w).readLoc loc = s.readLoc loc := by
  cases r with
  | id | status | cmd | version | errinfo => exact absurd rfl hr
  | ctrl =>
    rw [writeReg_ctrl s (hsoft rfl)]
    rcases loc with r' | _
    · cases r' <;> first | rfl | exact absurd rfl hne
    all_goals rfl
  | prm t =>
    rcases loc with r' | _
    · cases r' with
      | prm t' => exact Vector.getElem_set_ne t.isLt t'.isLt fun h => hne (by rw [Fin.ext h])
      | _ => rfl
    all_goals rfl
  | mbcfg | rdmult | rddiv | ctxAbove | ctxLeft | wctxAbove | wctxLeft =>
    rcases loc with r' | _
    · cases r' <;> first | rfl | exact absurd rfl hne
    all_goals rfl

/-- A host write to a register of the idle engine that stores its fields. -/
theorem hostWrite_register {s : State} {r : Reg} {off : Nat} {v : Word} (hlatch : s.latch = none)
    (hloc : locate off = .reg r) (haligned : off % 4 = 0) (hin : off < 0x10000) (hr : r.fields ≠ 0)
    (hsoft : r = .ctrl → v.getLsbD 31 = false) :
    ∃ t, s.hostWrite (s.params.base + off) 32 v = .next t ∧ t.wordAt off = v &&& r.fields ∧
      ∀ off', off' % 4 = 0 → off' ≠ off → t.wordAt off' = s.wordAt off' := by
  refine ⟨_, hostWrite_word s _ _ v (wordAt_base s hin haligned), ?_, fun off' haligned' hne => ?_⟩
  · rw [writeWindow_idle s off v hlatch, State.wordAt, readLoc_reply, hloc]
    exact readReg_writeReg_same s hr hsoft
  · rw [writeWindow_idle s off v hlatch, State.wordAt, readLoc_reply, hloc]
    refine readLoc_writeReg_other s hr hsoft fun h => hne ?_
    exact locate_injective haligned haligned' (h.trans hloc.symm) (by simp [hloc])

/-- The registers that store fields, with their offsets and fields in numbers (10_state R34, R37, R38, R40..R42). -/
theorem locate_storing_register : ∀ p ∈ ([(0x004, 0xF#32), (0x010, 0x1F#32), (0x014, 0xFFFFFFFF#32),
    (0x018, 0xFFFFFFFF#32), (0x020, 0xFFFFFFFF#32), (0x024, 0xFFFFFFFF#32), (0x028, 0xFFFFFFFF#32),
    (0x02C, 0xFFFFFFFF#32), (0x030, 0x1FF#32), (0x034, 0x1FF#32), (0x038, 0x1FF#32),
    (0x03C, 0x1FF#32)] : List (Nat × Word)),
    p.1 % 4 = 0 ∧ p.1 < 0x10000 ∧ p.2 ≠ 0 ∧ (locate p.1 = .reg .ctrl → p.1 = 0x004) ∧
      ∃ r, locate p.1 = .reg r ∧ r.fields = p.2 := by
  simp only [List.forall_mem_cons, List.not_mem_nil, false_imp_iff, implies_true, and_true]
  refine ⟨?_, ?_, ?_, ?_, ?_, ?_, ?_, ?_, ?_, ?_, ?_, ?_⟩
  all_goals exact ⟨by decide, by decide, by decide, by decide, _, rfl, rfl⟩

/-- Settles O19: each offset of the list is the one of a register that stores its fields. -/
theorem registersStoreTheirFields : Obligations.RegistersStoreTheirFields := by
  intro s v hlatch p hp hsoft
  obtain ⟨haligned, hin, hne, hctrl, r, hloc, hfields⟩ := locate_storing_register p hp
  rw [← hfields] at hne ⊢
  exact hostWrite_register hlatch hloc haligned hin hne fun hr => hsoft (hctrl (hr ▸ hloc))

/-! ### Read-only and reserved words -/

theorem errInfo_word (e : ErrInfo) : e.word = 0#19 ++ e.pos ++ 0#3 ++ e.blk := by
  refine BitVec.eq_of_getLsbD_eq fun i hi => ?_
  simp only [ErrInfo.word, BitVec.getLsbD_or, BitVec.getLsbD_shiftLeft, BitVec.getLsbD_setWidth, BitVec.getLsbD_append]
  interval_cases i <;> simp

theorem locate_reserved {off : Nat} (h : ReservedOffset off) : locate off = .reserved := by
  refine locate_cases (fun l => l = .reserved) off (fun hlt => ?_) ?_ ?_ ?_ ?_ ?_ ?_ ?_ ?_ ?_ ?_ fun _ => rfl
  · obtain ⟨n, hn⟩ : ∃ n, off / 4 = n + 17 := ⟨off / 4 - 17, by omega⟩
    rw [hn]
    rfl
  all_goals omega

/-- A write to ID, VERSION, ERRINFO or a reserved offset of the idle engine is taken and does nothing (R72). -/
theorem writeWindow_ignored {s : State} {off : Nat} (v : Word) (hlatch : s.latch = none)
    (h : off = 0x000 ∨ off = 0x01C ∨ off = 0x040 ∨ ReservedOffset off) :
    s.writeWindow off v = { s with reply := some .taken } := by
  rw [writeWindow_idle s off v hlatch]
  obtain rfl | rfl | rfl | hres := h
  · rfl
  · rfl
  · rfl
  · rw [locate_reserved hres]
    rfl

/-- Settles O20: the map names those registers and the reserved offsets. -/
theorem readOnlyAndReservedWords : Obligations.ReadOnlyAndReservedWords := by
  intro s off v
  refine ⟨rfl, rfl, rfl, errInfo_word s.errinfo, fun h => ?_, fun hlatch haligned h => ?_⟩
  · rw [State.wordAt, locate_reserved h]
    rfl
  · rw [hostWrite_word s _ off v (wordAt_base s (by omega) haligned), writeWindow_ignored v hlatch h]

/-! ### Elements -/

/-- An element's word at its own offset. -/
theorem wordAt_offset (s : State) {loc : Loc} (he : loc.isElement = true) (hin : loc.InArray) :
    s.wordAt loc.offset = s.readLoc loc := by rw [State.wordAt, locate_of_offset loc he hin]

/-- The location is an element, and its conversion of `v` is the one of the range `off` is in (20_memory R71). -/
def Loc.ConvertsAt (off : Nat) (v : Word) (loc : Loc) : Prop :=
  loc.isElement = true ∧ (ByteElement off → loc.fit v = (v.setWidth 8).setWidth 32) ∧
    (HalfElement off → loc.fit v = (v.setWidth 16).signExtend 32) ∧ (WordElement off → loc.fit v = v)

theorem locate_convertsAt {off : Nat} (h : ByteElement off ∨ HalfElement off ∨ WordElement off) (v : Word) :
    (locate off).ConvertsAt off v := by
  refine locate_cases (Loc.ConvertsAt off v) off (fun _ => by omega) ?_ ?_ ?_ ?_ ?_ ?_ ?_ ?_ ?_ ?_ fun _ => by omega
  all_goals
    intro hlo hhi
    refine ⟨rfl, fun _ => ?_, fun _ => ?_, fun _ => ?_⟩ <;> first | rfl | omega

/-- A host write to an element of the idle engine. -/
theorem hostWrite_element {s : State} {addr off : Nat} (v : Word) (hlatch : s.latch = none) (hword : s.WordAt addr off)
    (h : ByteElement off ∨ HalfElement off ∨ WordElement off) :
    ∃ t, s.hostWrite addr 32 v = .next t ∧ t.status = s.status ∧ t.wordAt off = (locate off).fit v ∧
      ∀ off', off' % 4 = 0 → off' ≠ off → t.wordAt off' = s.wordAt off' := by
  have helem := (locate_convertsAt h v).1
  obtain ⟨hsame, hstatus, hother⟩ := writeLoc_element s (locate off) v helem
  refine ⟨_, hostWrite_word s _ _ v hword, ?_⟩
  rw [writeWindow_idle s off v hlatch]
  refine ⟨hstatus, (readLoc_reply _ _ _).trans hsame, fun off' haligned' hne => (readLoc_reply _ _ _).trans ?_⟩
  refine hother _ fun heq => hne (locate_injective hword.2.2 haligned' heq ?_)
  exact fun hres => by simp [hres, Loc.isElement] at helem

theorem toInt_signExtend_half (x : Half) : (x.signExtend 32).toInt = x.toInt :=
  BitVec.toInt_signExtend_of_le (by decide)

/-- The scan order, listed with its scan indices (43_trellis R201). -/
theorem zz_of_mem_zipIdx : ∀ p ∈ ([0, 1, 4, 8, 5, 2, 3, 6, 9, 12, 13, 10, 7, 11, 14, 15] : List Nat).zipIdx,
    p.1 = zz p.2 := by decide

/-- The tokens, listed with their numbers (43_trellis R203). -/
theorem token_of_mem_zipIdx : ∀ p ∈ ([.zero, .one, .two, .three, .four, .cat1, .cat2, .cat3, .cat4, .cat5, .cat6,
    .eob] : List Token).zipIdx, p.2 = p.1.index ∧ p.2 < 12 := by decide

/-- The words of a block's scan position: coefficient, level and dequantized value (10_state R45, 43_trellis R201). -/
theorem wordAt_scan (s : State) {b : Nat} (i : Nat) (hb : b < 25) :
    (s.wordAt (0x2000 + 4 * (16 * b + zz i))).toInt = s.coefScan b i ∧
      (s.wordAt (0x3000 + 4 * (16 * b + zz i))).toInt = s.levelScan b i ∧
      (s.wordAt (0x4000 + 4 * (16 * b + zz i))).toInt = s.dqScan b i := by
  have hz := zz_lt i
  have hlt : b * 16 + zz i < 400 := by omega
  rw [Nat.mul_comm 16 b]
  exact ⟨(congrArg _ (wordAt_offset s (loc := .coeff _) rfl hlt)).trans (toInt_signExtend_half _),
    (congrArg _ (wordAt_offset s (loc := .qcoeff _) rfl hlt)).trans (toInt_signExtend_half _),
    (congrArg _ (wordAt_offset s (loc := .dqcoeff _) rfl hlt)).trans (toInt_signExtend_half _)⟩

/-- The word of a step (10_state R45). -/
theorem wordAt_deq (s : State) (t : BitVec 2) {i : Nat} (hi : i < 16) :
    (s.wordAt (0x4900 + 4 * (16 * t.toNat + i))).toInt = s.deqAt t i := by
  have ht := t.isLt
  rw [Nat.mul_comm 16 t.toNat]
  exact (congrArg _ (wordAt_offset s (loc := .deq _) rfl (by simp only [Loc.InArray]; omega))).trans
    (toInt_signExtend_half _)

/-- The word of a token cost (10_state R45). -/
theorem wordAt_tc (s : State) (t : BitVec 2) {bd ctx : Nat} (tok : Token) (hbd : bd < 8) (hctx : ctx < 3)
    (htok : tok.index < 12) :
    (s.wordAt (0x5000 + 4 * (((8 * t.toNat + bd) * 3 + ctx) * 12 + tok.index))).toInt = s.tcAt t bd ctx tok := by
  have ht := t.isLt
  rw [Nat.mul_comm 8 t.toNat]
  exact congrArg _ (wordAt_offset s (loc := .tc _) rfl (by simp only [Loc.InArray]; omega))

/-- Settles O18: an element write converts the word, and every element stands at its own offset. -/
theorem elementsReadBackAsConverted : Obligations.ElementsReadBackAsConverted := by
  refine ⟨fun s addr off v hlatch hword h => ?_, fun s => ⟨fun j hj => ?_, fun j hj => ?_, fun b hb => ?_,
    fun t i => wordAt_deq s t, fun t bd ctx hbd hctx p hp => ?_, fun v hlo hhi => ?_⟩⟩
  · obtain ⟨t, ht, hstatus, hsame, hother⟩ := hostWrite_element v hlatch hword h
    obtain ⟨-, hbyte, hhalf, hfull⟩ := locate_convertsAt h v
    exact ⟨t, ht, hstatus, fun h => hsame.trans (hbyte h), fun h => hsame.trans (hhalf h),
      fun h => hsame.trans (hfull h), hother⟩
  · exact ⟨wordAt_offset s (loc := .src j) rfl hj, wordAt_offset s (loc := .pred j) rfl hj⟩
  · exact ⟨wordAt_offset s (loc := .diff j) rfl hj, wordAt_offset s (loc := .coeff j) rfl hj,
      wordAt_offset s (loc := .qcoeff j) rfl hj, wordAt_offset s (loc := .dqcoeff j) rfl hj⟩
  · refine ⟨wordAt_offset s (loc := .eob b) rfl hb, fun p hp => ?_⟩
    rw [zz_of_mem_zipIdx p hp]
    exact wordAt_scan s p.2 hb
  · obtain ⟨htok, hlt⟩ := token_of_mem_zipIdx p hp
    rw [htok] at hlt ⊢
    exact wordAt_tc s t p.1 hbd hctx hlt
  · exact congrArg _ (wordAt_offset s (loc := .vc _) rfl (by simp only [Loc.InArray]; omega))

end Sys2Proof.Machine
end

section
/-! What stays as it was: the array bytes a command does not store to (10_state R46, 20_memory R74, R78), the other
planes' context after a partial pass (10_state R47, 44_orchestration R253..R256), and what reset leaves (R51). -/

namespace Sys2Proof.Machine

/-! ### What each operation of the commands leaves of the elements

An element whose bytes an operation does not store to reads as before. -/

theorem residuals_readLoc (s : State) {js : List Nat} {loc : Loc} (he : loc.isElement = true)
    (h : ∀ j ∈ js, ¬InRange diffBase j (j + 1) loc.offset) : (s.residuals js).readLoc loc = s.readLoc loc := by
  cases loc with
  | reg r => cases he
  | diff j =>
    refine congrArg (BitVec.signExtend 32) (residuals_diffAt_other s fun hj => h j hj ?_)
    simp only [Loc.offset, InRange, diffBase]
    omega
  | _ => rw [residuals_frame]; rfl

theorem buildDc_readLoc (s : State) {loc : Loc} (he : loc.isElement = true)
    (h : ¬InRange diffBase 384 400 loc.offset) : s.buildDc.readLoc loc = s.readLoc loc := by
  cases loc with
  | reg r => cases he
  | diff j =>
    refine congrArg (BitVec.signExtend 32) (buildDc_diffAt_other s ?_)
    simp only [Loc.offset, InRange, diffBase] at h
    omega
  | _ =>
    have hframe := buildDc_frame s
    generalize s.buildDc = u at hframe
    rw [hframe]
    rfl

theorem storeCoeff_readLoc (s : State) {b : Nat} (out : Block × Bool) {loc : Loc} (he : loc.isElement = true)
    (h : ¬InBlock coeffBase b loc.offset) : (s.storeCoeff b out).readLoc loc = s.readLoc loc := by
  cases loc with
  | reg r => cases he
  | coeff j =>
    refine congrArg (BitVec.signExtend 32) (storeCoeff_other s b out ?_)
    simp only [Loc.offset, InBlock, coeffBase] at h
    omega
  | _ => rw [storeCoeff_frame]; rfl

theorem fdctPair_readLoc (s : State) {b : Nat} {loc : Loc} (he : loc.isElement = true)
    (h : ¬(InBlock coeffBase b loc.offset ∨ InBlock coeffBase (b + 1) loc.offset)) :
    (s.fdctPair b).readLoc loc = s.readLoc loc :=
  (storeCoeff_readLoc _ _ he fun hb => h (.inr hb)).trans (storeCoeff_readLoc _ _ he fun hb => h (.inl hb))

theorem fdctPairs_readLoc (s : State) {bs : List Nat} {loc : Loc} (he : loc.isElement = true)
    (h : ∀ b ∈ bs, ¬(InBlock coeffBase b loc.offset ∨ InBlock coeffBase (b + 1) loc.offset)) :
    (s.fdctPairs bs).readLoc loc = s.readLoc loc := by
  induction bs generalizing s with
  | nil => rfl
  | cons b bs ih =>
    rw [fdctPairs_cons, ih _ fun c hc => h c (List.mem_cons_of_mem _ hc)]
    exact fdctPair_readLoc s he (h b List.mem_cons_self)

/-- A dequantized value of another block is as before. -/
theorem dequantBlock_dqcoeffAt_other (s : State) (b : Nat) (t : BitVec 2) {j : Nat} (hj : j / 16 ≠ b) :
    (s.dequantBlock b t).dqcoeffAt j = s.dqcoeffAt j := by
  unfold State.dqcoeffAt
  rw [State.elem_congr s (s.dequantBlock b t) _ _ _ (by rw [dequantBlock_frame]), dequantBlock_dqcoeff, calc_eq,
    collect_dequantized]
  refine State.elem_putAll_other s s.dqcoeff _ _ fun u hu h => hj ?_
  obtain ⟨i, -, rfl⟩ := List.mem_map.mp hu
  have := zz_lt i
  dsimp only at h
  omega

theorem dequantBlock_readLoc (s : State) {b : Nat} (t : BitVec 2) {loc : Loc} (he : loc.isElement = true)
    (h : ¬InBlock dqcoeffBase b loc.offset) : (s.dequantBlock b t).readLoc loc = s.readLoc loc := by
  cases loc with
  | reg r => cases he
  | dqcoeff j =>
    refine congrArg (BitVec.signExtend 32) (dequantBlock_dqcoeffAt_other s b t ?_)
    simp only [Loc.offset, InBlock, dqcoeffBase] at h
    omega
  | _ => rw [dequantBlock_frame]; rfl

theorem optimize_readLoc (s : State) {b : Nat} (t : BitVec 2) {loc : Loc} (he : loc.isElement = true)
    (h : ¬InOptimized b loc.offset) : (s.optimize b t).readLoc loc = s.readLoc loc := by
  simp only [InOptimized, not_or] at h
  obtain ⟨hq, hdq, heob⟩ := h
  cases loc with
  | reg r => cases he
  | qcoeff j =>
    refine congrArg (BitVec.signExtend 32) (optimize_block_other s b t ?_).1
    simp only [Loc.offset, InBlock, qcoeffBase] at hq
    omega
  | dqcoeff j =>
    refine congrArg (BitVec.signExtend 32) (optimize_block_other s b t ?_).2
    simp only [Loc.offset, InBlock, dqcoeffBase] at hdq
    omega
  | eob k =>
    refine congrArg (BitVec.setWidth 32) (optimize_eobAt_other s b t ?_)
    simp only [Loc.offset, InRange, eobBase] at heob
    omega
  | _ => rw [optimize_frame]; rfl

theorem optimizeAll_readLoc (s : State) {list : List (Nat × BitVec 2)} {loc : Loc} (he : loc.isElement = true)
    (h : ∀ bt ∈ list, ¬InOptimized bt.1 loc.offset) : (s.optimizeAll list).readLoc loc = s.readLoc loc := by
  induction list generalizing s with
  | nil => rfl
  | cons bt list ih =>
    rw [optimizeAll_cons, ih _ fun c hc => h c (List.mem_cons_of_mem _ hc)]
    exact optimize_readLoc s bt.2 he (h bt List.mem_cons_self)

/-- Copies of the entropy context touch no array. -/
theorem snap_readLoc (s : State) {loc : Loc} (he : loc.isElement = true) : s.snap.readLoc loc = s.readLoc loc := by
  cases loc with
  | reg r => cases he
  | _ => rfl

theorem commit_readLoc (s : State) {loc : Loc} (he : loc.isElement = true) : s.commit.readLoc loc = s.readLoc loc := by
  cases loc with
  | reg r => cases he
  | _ => rfl

theorem pass_readLoc (s : State) {list : List (Nat × BitVec 2)} {loc : Loc} (he : loc.isElement = true)
    (h : ∀ bt ∈ list, ¬InOptimized bt.1 loc.offset) : (s.pass list).readLoc loc = s.readLoc loc := by
  have hall := (optimizeAll_readLoc s.snap he h).trans (snap_readLoc s he)
  exact ite_elim (fun t : State => t.readLoc loc = s.readLoc loc) (fun _ => (commit_readLoc _ he).trans hall)
    fun _ => hall

theorem raise_readLoc (s : State) (f : Failure) {loc : Loc} (he : loc.isElement = true) :
    (s.raise f).readLoc loc = s.readLoc loc := by
  cases loc with
  | reg r => cases he
  | _ => rfl

theorem complete_readLoc (s : State) {loc : Loc} (he : loc.isElement = true) :
    s.complete.readLoc loc = s.readLoc loc := by
  cases loc with
  | reg r => cases he
  | _ => rfl

/-! ### What each command leaves of the elements -/

/-- The transforms of a plane's pairs store to the plane's blocks (41_transform R159, R160). -/
theorem fdctPairs_readLoc_plane (s : State) {bs : List Nat} {lo hi : Nat} {loc : Loc} (he : loc.isElement = true)
    (hbs : ∀ b ∈ bs, lo ≤ 16 * b ∧ 16 * b + 32 ≤ hi) (h : ¬InRange coeffBase lo hi loc.offset) :
    (s.fdctPairs bs).readLoc loc = s.readLoc loc := by
  refine fdctPairs_readLoc s he fun b hb hpair => h ?_
  have := hbs b hb
  simp only [InBlock, InRange] at hpair ⊢
  omega

theorem inDiffBlock_of_mem {b j off : Nat} (hj : j ∈ blockIndices b) (h : InRange diffBase j (j + 1) off) :
    InDiffBlock b off := by
  obtain ⟨k, hk, rfl⟩ := List.mem_map.mp hj
  have := List.mem_range.mp hk
  exact ⟨k / 4, k % 4, by omega, by omega, h⟩

/-- The bytes of one DIFF element are among those of a range of indices it is in. -/
theorem inRange_of_index {lo hi j off : Nat} (hlo : lo ≤ j) (hhi : j < hi) (h : InRange diffBase j (j + 1) off) :
    InRange diffBase lo hi off := by
  simp only [InRange] at h ⊢
  omega

/-- The luma transforms, with BUILD_DC and the second-order transform if it is active (41_transform R159). -/
theorem xformMby_readLoc (s : State) {loc : Loc} (he : loc.isElement = true)
    (h : ¬s.storesAt loc.offset .xformMby) : (s.bodyOf .xformMby).readLoc loc = s.readLoc loc := by
  obtain ⟨hrange, hdc⟩ := not_or.mp h
  have hluma : (s.fdctPairs lumaPairs).readLoc loc = s.readLoc loc := fdctPairs_readLoc_plane s he (by decide) hrange
  refine ite_elim (fun t : State => t.readLoc loc = s.readLoc loc) (fun hy => ?_) fun _ => hluma
  obtain ⟨hdiff, hsecond⟩ := not_or.mp fun hs => hdc ⟨(hasY2_iff s).mp hy, hs⟩
  exact (storeCoeff_readLoc _ _ he hsecond).trans ((buildDc_readLoc _ he hdiff).trans hluma)

/-- The transforms of all planes (41_transform R161). -/
theorem xformMb_readLoc (s : State) {loc : Loc} (he : loc.isElement = true)
    (h : ¬s.storesAt loc.offset .xformMb) : (s.bodyOf .xformMb).readLoc loc = s.readLoc loc := by
  obtain ⟨hrange, hdc⟩ := not_or.mp h
  have hluma : (s.fdctPairs lumaPairs).readLoc loc = s.readLoc loc := fdctPairs_readLoc_plane s he (by decide) hrange
  have hchroma (t : State) : (t.fdctPairs chromaPairs).readLoc loc = t.readLoc loc :=
    fdctPairs_readLoc_plane t he (by decide) hrange
  refine ite_elim (fun t : State => t.readLoc loc = s.readLoc loc) (fun hy => ?_) fun _ => (hchroma _).trans hluma
  obtain ⟨hdiff, hsecond⟩ := not_or.mp fun hs => hdc ⟨(hasY2_iff s).mp hy, hs⟩
  exact (storeCoeff_readLoc _ _ he hsecond).trans ((hchroma _).trans ((buildDc_readLoc _ he hdiff).trans hluma))

/-- A command's body leaves every element `State.storesAt` does not name. -/
theorem bodyOf_readLoc (s : State) {i : Instr} {loc : Loc} (he : loc.isElement = true)
    (h : ¬s.storesAt loc.offset i) : (s.bodyOf i).readLoc loc = s.readLoc loc := by
  cases i with
  | nop => rfl
  | subB blk => exact residuals_readLoc s he fun j hj hr => h (inDiffBlock_of_mem hj hr)
  | subMby => exact residuals_readLoc s he fun j hj hr => h (inRange_of_index j.zero_le (List.mem_range.mp hj) hr)
  | subMbuv =>
    exact residuals_readLoc s he fun j hj hr =>
      h (inRange_of_index (List.mem_range'_1.mp hj).1 (List.mem_range'_1.mp hj).2 hr)
  | subMb => exact residuals_readLoc s he fun j hj hr => h (inRange_of_index j.zero_le (List.mem_range.mp hj) hr)
  | fdct4x4 blk => exact storeCoeff_readLoc s _ he h
  | fdct8x4 blk => exact fdctPair_readLoc s he h
  | buildDc => exact buildDc_readLoc s he h
  | walsh4x4 => exact storeCoeff_readLoc s _ he h
  | xformMby => exact xformMby_readLoc s he h
  | xformMbuv => exact fdctPairs_readLoc_plane s he (by decide) h
  | xformMb => exact xformMb_readLoc s he h
  | dqB blk pt => exact dequantBlock_readLoc s pt he h
  | optB blk pt g => exact optimize_readLoc s pt he h
  | optMb g => exact pass_readLoc s he fun bt hbt hr => h ⟨bt, hbt, hr⟩
  | optMby g => exact pass_readLoc s he fun bt hbt hr => h ⟨bt, hbt, hr⟩
  | optMbuv g => exact pass_readLoc s he fun bt hbt hr => h ⟨bt, hbt, hr⟩
  | ctxSnap => exact snap_readLoc s he
  | ctxCommit => exact commit_readLoc s he

/-! ### The bytes of the window -/

theorem inRange_word {base lo hi off : Nat} (hbase : base % 4 = 0) (h : InRange base lo hi (off / 4 * 4)) :
    InRange base lo hi off := by
  simp only [InRange] at h ⊢
  omega

theorem inBlock_word {base b off : Nat} (hbase : base % 4 = 0) (h : InBlock base b (off / 4 * 4)) :
    InBlock base b off := by
  simp only [InBlock] at h ⊢
  omega

theorem inOptimized_word {b off : Nat} (h : InOptimized b (off / 4 * 4)) : InOptimized b off :=
  h.imp (inBlock_word (by decide)) (Or.imp (inBlock_word (by decide)) (inRange_word (by decide)))

/-- A command that stores to the first byte of a word stores to all its bytes (20_memory R74). -/
theorem storesAt_word {s : State} {i : Instr} {off : Nat} (h : s.storesAt (off / 4 * 4) i) : s.storesAt off i := by
  have hdc := Or.imp (inRange_word (lo := 384) (hi := 400) (off := off) (base := diffBase) (by decide))
    (inBlock_word (b := 24) (off := off) (base := coeffBase) (by decide))
  cases i with
  | nop | ctxSnap | ctxCommit => exact h
  | subB blk =>
    obtain ⟨r, c, hr, hc, hin⟩ := h
    exact ⟨r, c, hr, hc, inRange_word (by decide) hin⟩
  | subMby | subMbuv | subMb | buildDc | xformMbuv => exact inRange_word (by decide) h
  | fdct4x4 | walsh4x4 | dqB => exact inBlock_word (by decide) h
  | fdct8x4 blk => exact h.imp (inBlock_word (by decide)) (inBlock_word (by decide))
  | xformMby | xformMb => exact h.imp (inRange_word (by decide)) (And.imp_right hdc)
  | optB blk pt g => exact inOptimized_word h
  | optMb | optMby | optMbuv =>
    obtain ⟨bt, hbt, hin⟩ := h
    exact ⟨bt, hbt, inOptimized_word hin⟩

/-- Above the registers the map has elements and reserved offsets only (20_memory R70). -/
theorem locate_above_registers {off : Nat} (h : 0x400 ≤ off) :
    locate off = .reserved ∨ (locate off).isElement = true :=
  locate_cases (fun l => l = .reserved ∨ l.isElement = true) off (fun hlt => absurd h (Nat.not_le.mpr hlt))
    (fun _ _ => .inr rfl) (fun _ _ => .inr rfl) (fun _ _ => .inr rfl) (fun _ _ => .inr rfl) (fun _ _ => .inr rfl)
    (fun _ _ => .inr rfl) (fun _ _ => .inr rfl) (fun _ _ => .inr rfl) (fun _ _ => .inr rfl) (fun _ _ => .inr rfl)
    fun _ => .inl rfl

theorem exec_readLoc {i : Instr} {s t : State} {loc : Loc} (he : loc.isElement = true) (hexec : exec i s = .next t)
    (h : ¬s.storesAt loc.offset i) : t.readLoc loc = s.readLoc loc := by
  obtain ⟨f, rfl⟩ | rfl | ⟨-, rfl⟩ := exec_next_cases hexec
  · exact raise_readLoc s f he
  · exact complete_readLoc s he
  · exact (complete_readLoc _ he).trans (bodyOf_readLoc s he h)

/-- Settles O22: a byte is one of the word of an element, which is as before, or of a reserved word. -/
theorem otherBytesAreUnchanged : Obligations.OtherBytesAreUnchanged := by
  intro i s t off _ hexec hoff hstores
  refine congrArg (fun w : Word => w.extractLsb' (off % 4 * 8) 8) ?_
  have haligned : off / 4 * 4 % 4 = 0 := Nat.mul_mod_left _ _
  obtain hres | he := locate_above_registers (off := off / 4 * 4) (by omega)
  · rw [hres]
    rfl
  · refine exec_readLoc he hexec fun h => hstores (storesAt_word ?_)
    have hne : locate (off / 4 * 4) ≠ .reserved := fun hres => by simp [hres, Loc.isElement] at he
    rwa [(locate_offset _ haligned).resolve_left hne] at h

/-! ### The other planes' context -/

/-- An optimization writes the context flags of its block only (10_state R47, 43_trellis R217). -/
theorem optimizeAll_context_other (s : State) {list : List (Nat × BitVec 2)} {k : Nat} (hk : k < 9)
    (h : ∀ bt ∈ list, bt.1 < 25 ∧ k ≠ aboveIndex bt.1 ∧ k ≠ leftIndex bt.1) :
    (s.optimizeAll list).wctxAbove.getLsbD k = s.wctxAbove.getLsbD k ∧
      (s.optimizeAll list).wctxLeft.getLsbD k = s.wctxLeft.getLsbD k := by
  induction list generalizing s with
  | nil => exact ⟨rfl, rfl⟩
  | cons bt list ih =>
    obtain ⟨hlt, habove, hleft⟩ := h bt List.mem_cons_self
    obtain ⟨hctxAbove, hctxLeft⟩ := optimize_context s bt.1 bt.2
    obtain ⟨ihAbove, ihLeft⟩ := ih (s.optimize bt.1 bt.2) fun c hc => h c (List.mem_cons_of_mem _ hc)
    rw [optimizeAll_cons, ihAbove, ihLeft, hctxAbove, hctxLeft, setFlag_get _ _ _ _ (aboveIndex_lt _) hk,
      setFlag_get _ _ _ _ (leftIndex_lt hlt) hk, if_neg habove, if_neg hleft]
    exact ⟨rfl, rfl⟩

/-- A committed pass leaves the context of its working copy (44_orchestration R253). -/
theorem pass_committed (s : State) (list : List (Nat × BitVec 2)) (h : s.ctrl.ctxCommit = true) :
    (s.pass list).ctxAbove = (s.snap.optimizeAll list).wctxAbove ∧
      (s.pass list).ctxLeft = (s.snap.optimizeAll list).wctxLeft := by
  have hctrl : (s.snap.optimizeAll list).ctrl.ctxCommit = true := by
    rw [optimizeAll_frame]
    exact h
  unfold State.pass State.commitIfSet
  rw [if_pos hctrl]
  exact ⟨rfl, rfl⟩

theorem pass_context_other (s : State) {list : List (Nat × BitVec 2)} {k : Nat} (hk : k < 9)
    (hcommit : s.ctrl.ctxCommit = true)
    (h : ∀ bt ∈ list, bt.1 < 25 ∧ k ≠ aboveIndex bt.1 ∧ k ≠ leftIndex bt.1) :
    (s.pass list).ctxAbove.getLsbD k = s.ctxAbove.getLsbD k ∧
      (s.pass list).ctxLeft.getLsbD k = s.ctxLeft.getLsbD k := by
  obtain ⟨habove, hleft⟩ := pass_committed s list hcommit
  rw [habove, hleft]
  exact optimizeAll_context_other s.snap hk h

/-- The luma blocks and block 24 have the entries 0..3 and 8 of the context (10_state R47). -/
theorem luma_context_index {b : Nat} (h : b < 16 ∨ b = 24) :
    (aboveIndex b < 4 ∨ aboveIndex b = 8) ∧ (leftIndex b < 4 ∨ leftIndex b = 8) := by
  unfold aboveIndex leftIndex
  split_ifs <;> omega

/-- The chroma blocks have the entries 4..7 of the context (10_state R47). -/
theorem chroma_context_index {b : Nat} (hlo : 16 ≤ b) (hhi : b < 24) :
    (4 ≤ aboveIndex b ∧ aboveIndex b < 8) ∧ 4 ≤ leftIndex b ∧ leftIndex b < 8 := by
  unfold aboveIndex leftIndex
  split_ifs <;> omega

/-- Settles O59: the blocks of a partial pass have other context entries than the other planes' blocks. -/
theorem passesKeepTheOtherPlanesContext : Obligations.PassesKeepTheOtherPlanesContext := by
  rintro s t g k hk hcommit (⟨hexec, hlo, hhi⟩ | ⟨hexec, hplane⟩)
  · obtain ⟨f, rfl⟩ | rfl | ⟨-, rfl⟩ := exec_next_cases hexec
    · exact ⟨rfl, rfl⟩
    · exact ⟨rfl, rfl⟩
    · refine pass_context_other s hk hcommit fun bt hbt => ⟨listY_lt s bt hbt, ?_⟩
      have := luma_context_index (mem_listY hbt)
      omega
  · obtain ⟨f, rfl⟩ | rfl | ⟨-, rfl⟩ := exec_next_cases hexec
    · exact ⟨rfl, rfl⟩
    · exact ⟨rfl, rfl⟩
    · refine pass_context_other s hk hcommit fun bt hbt => ⟨listUv_lt bt hbt, ?_⟩
      obtain ⟨hlo, hhi⟩ := mem_listUv hbt
      have := chroma_context_index hlo hhi
      omega

/-! ### Reset -/

/-- With OPT_EN 0, as reset leaves it, the gate is closed and skips a gated command (44_orchestration R250). -/
theorem powerOn_checkGate (p : Params) (epoch : Nat) (body : State → State) :
    (State.powerOn p epoch).checkGate true body = (State.powerOn p epoch).complete := checkGate_closed _ body rfl

theorem ctrl_word_atReset : Ctrl.atReset.word = 2#32 := by decide

theorem mbcfg_word_atReset : MbCfg.atReset.word = 0 := by decide

theorem errInfo_word_zero : ({ blk := 0, pos := 0 } : ErrInfo).word = 0 := by decide

theorem statusWord_atReset {s : State} (hlatch : s.latch = none) (hstatus : s.status = .atReset) :
    s.statusWord = 0 := by
  simp only [State.statusWord, State.busy, hlatch, hstatus]
  decide

/-- Settles O25: every word of R51 is read off State.powerOn, and its closed gate skips the gated commands. -/
theorem resetLeavesTheListedValues : Obligations.ResetLeavesTheListedValues := by
  refine ⟨rfl, ?_⟩
  rintro p e _ rfl
  refine ⟨rfl, ctrl_word_atReset, statusWord_atReset rfl rfl, mbcfg_word_atReset, rfl, rfl, rfl, rfl, rfl, rfl, rfl,
    rfl, rfl, rfl, rfl, errInfo_word_zero, rfl, rfl, fun j => ?_, fun blk pt hblk => ?_,
    congrArg _ (powerOn_checkGate p e _), congrArg _ (powerOn_checkGate p e _), congrArg _ (powerOn_checkGate p e _)⟩
  · exact ⟨rfl, rfl, rfl, rfl, rfl, rfl, rfl, rfl, BitVec.setWidth_eq _, BitVec.setWidth_eq _⟩
  · show Host.Outcome.next (State.checkBlk _ _ _ _) = _
    rw [checkBlk_legal _ _ _ _ (decide_eq_true hblk)]
    exact congrArg _ (powerOn_checkGate p e _)

end Sys2Proof.Machine
end

section
/-! The host at the window (20_memory R72..R83): the accesses the window refuses, reads, writes while BUSY, and the
host's moves between a command's BUSY steps. -/

namespace Sys2Proof.Machine

/-! ### Bus errors -/

theorem access_busError {s : State} {addr width : Nat} {f : Nat → State} (hlo : s.params.base ≤ addr)
    (hhi : addr < s.params.base + 0x10000) (h : width ≠ 32 ∨ (addr - s.params.base) % 4 ≠ 0) :
    s.access addr width f = .next { s with reply := some .busError } := by
  have hin : s.inWindow addr = true := Bool.and_eq_true_iff.mpr ⟨decide_eq_true hlo, decide_eq_true hhi⟩
  have hpart : ¬s.wholeWord addr width = true := by
    simp only [State.wholeWord, Bool.and_eq_true, decide_eq_true_eq]
    omega
  rw [State.access, if_pos hin, if_neg hpart]

/-- Settles O17: both accesses are refused before anything is performed. -/
theorem busErrorChangesNothing : Obligations.BusErrorChangesNothing := fun _ _ _ _ hlo hhi h =>
  ⟨access_busError hlo hhi h, access_busError hlo hhi h⟩

/-! ### Writes while BUSY -/

theorem eq_offset_of_locate {off : Nat} {r : Reg} (haligned : off % 4 = 0) (h : locate off = .reg r) :
    off = r.offset := by
  have hoff := (locate_offset off haligned).resolve_left (by simp [h])
  rw [← hoff, h]
  rfl

/-- A CMD write while BUSY is refused (60_exceptions R282). -/
theorem writeCmd_busy {s : State} (w : Word) (h : s.latch.isSome = true) :
    s.writeCmd w = { s with status := { s.status with ovr := true } } :=
  if_pos (Bool.or_eq_true_iff.mpr (.inl h))

theorem writeBusy_dropped (s : State) {loc : Loc} (w : Word) (hstatus : loc ≠ .reg .status)
    (hcmd : loc ≠ .reg .cmd) : s.writeBusy loc w = { s with status := { s.status with busywr := true } } := by
  unfold State.writeBusy
  split
  · exact absurd rfl hstatus
  · exact absurd rfl hcmd
  · rfl

/-- Settles O14: STATUS and CMD stand at their own offsets only, and a write anywhere else is dropped. -/
theorem writesWhileBusyAreDropped : Obligations.WritesWhileBusyAreDropped := by
  intro s addr off w hbusy hword
  rw [hostWrite_word s addr off w hword]
  refine ⟨?_, ?_, fun hstatus hcmd => ?_⟩
  · rintro rfl
    rw [writeWindow_status]
  · rintro rfl
    rw [writeWindow_busy s _ w hbusy]
    exact congrArg (fun t : State => Host.Outcome.next { t with reply := some .taken }) (writeCmd_busy w hbusy)
  · rw [writeWindow_busy s off w hbusy, writeBusy_dropped s w
      (fun h => hstatus (eq_offset_of_locate hword.2.2 h)) fun h => hcmd (eq_offset_of_locate hword.2.2 h)]

/-- A write while BUSY changes no more than the STATUS flags (20_memory R80). -/
theorem writeWindow_busy_status {s : State} (off : Nat) (w : Word) (h : s.latch.isSome = true) :
    ∃ status, s.writeWindow off w = { s with status := status, reply := some .taken } := by
  rw [writeWindow_busy s off w h]
  by_cases hstatus : locate off = .reg .status
  · exact ⟨_, by rw [hstatus]; rfl⟩
  by_cases hcmd : locate off = .reg .cmd
  · exact ⟨_, by rw [hcmd]; exact congrArg (fun t : State => { t with reply := some .taken }) (writeCmd_busy w h)⟩
  · exact ⟨_, by rw [writeBusy_dropped s w hstatus hcmd]⟩

/-! ### Reads -/

/-- A read answers the word that stands there unless the running command may write it (20_memory R77, R81). -/
theorem readWindow_value {s : State} {off : Nat}
    (h : ∀ c, s.latch = some c → s.wordMayWrite c.word (locate off) = false) :
    s.readWindow off = { s with reply := some (.value (s.wordAt off)) } := by
  unfold State.readWindow
  split
  · next c hlatch => rw [if_neg (Bool.eq_false_iff.mp (h c hlatch))]
  · rfl

theorem readWindow_free {s : State} {off : Nat} {c : Latched} (hlatch : s.latch = some c)
    (h : s.wordMayWrite c.word (locate off) = true) :
    s.readWindow off = { s with
      reply := some (.value ((locate off).fit (Config.busyRead s.fresh))), fresh := s.fresh + 1 } := by
  simp only [State.readWindow, hlatch, h, if_true]

/-- STATUS is not among what a read while BUSY answers freely, whatever word runs. -/
theorem wordMayWrite_status (s : State) (w : Word) : s.wordMayWrite w (.reg .status) = false := by
  unfold State.wordMayWrite
  split <;> rfl

theorem setWidth_signExtend_half (x : Half) : (x.signExtend 32).setWidth 16 = x := by
  refine BitVec.eq_of_getLsbD_eq fun i hi => ?_
  have hi32 : i < 32 := by omega
  simp only [BitVec.getLsbD_setWidth, BitVec.getLsbD_signExtend, hi, hi32, decide_true, Bool.true_and, if_true]

/-- A value of the type of what stands at a location is its own conversion. -/
theorem fit_fit (loc : Loc) (w : Word) : loc.fit (loc.fit w) = loc.fit w := by
  cases loc with
  | reg r =>
    cases r with
    | ctxAbove | ctxLeft | wctxAbove | wctxLeft => simp [Loc.fit]
    | errinfo => simp [Loc.fit, BitVec.and_assoc]
    | _ => rfl
  | src | pred | eob => simp [Loc.fit]
  | diff | coeff | qcoeff | dqcoeff | deq => simp [Loc.fit, setWidth_signExtend_half]
  | tc | vc | reserved => rfl

/-- The four context words hold nine bits (10_state R41, R42). -/
theorem locate_context_fit {off : Nat} (haligned : off % 4 = 0) (h : 0x030 ≤ off ∧ off < 0x040) (v : Word) :
    (locate off).fit v = (v.setWidth 9).setWidth 32 := by
  obtain rfl | rfl | rfl | rfl : off = 0x030 ∨ off = 0x034 ∨ off = 0x038 ∨ off = 0x03C := by omega
  all_goals rfl

/-- Settles O15: a read answers the word as it stands, or a free value that is its own conversion. -/
theorem readsHaveNoSideEffect : Obligations.ReadsHaveNoSideEffect := by
  intro s addr off hword
  rw [hostRead_word s addr off hword]
  refine ⟨fun hidle => ?_, fun c hlatch => ⟨?_, fun hkept => ?_, fun hmay => ?_⟩⟩
  · rw [readWindow_value fun c hc => by simp [hidle] at hc]
  · rintro rfl
    rw [readWindow_value fun c _ => wordMayWrite_status s c.word]
  · rw [readWindow_value fun d hd => by rwa [Option.some.inj (hd.symm.trans hlatch)]]
  · refine ⟨_, congrArg _ (readWindow_free hlatch hmay), fun hbyte => ?_, fun hhalf => ?_, fun hctx => ?_, ?_⟩
    · exact (fit_fit _ _).symm.trans ((locate_convertsAt (.inl hbyte) _).2.1 hbyte)
    · exact (fit_fit _ _).symm.trans ((locate_convertsAt (.inr (.inl hhalf)) _).2.2.1 hhalf)
    · exact (fit_fit _ _).symm.trans (locate_context_fit hword.2.2 hctx _)
    · rintro rfl
      exact (fit_fit _ _).symm

/-! ### The host's moves -/

/-- Settles O9: in the host's turn a step is the host's move, which follows its next action. -/
theorem hostMovesWhenNoCommandIsDue : Obligations.HostMovesWhenNoCommandIsDue := by
  intro s t hturn
  rw [hostTurn_step s t hturn, ← hostTurn_host s t hturn]
  refine ⟨fun h => ?_, fun rest => ⟨fun h => ?_, fun h => ?_, fun h => ?_, fun addr width h => ?_,
    fun addr width v h => ?_⟩⟩ <;> simp only [State.hostMove, h]
  · rfl
  · rfl

/-- A host read changes the host's side only (20_memory R75, R77). -/
theorem hostRead_hostSide {s t : State} {addr width : Nat} (h : s.hostRead addr width = .next t) :
    t = { s with reply := t.reply, fresh := t.fresh } := by
  obtain ⟨off, rfl⟩ | rfl := access_next h
  · obtain ⟨reply, fresh, hread⟩ := readWindow_hostSide s off
    rw [hread]
  · rfl

/-- A host write while BUSY changes the STATUS flags and the reply only (20_memory R75, R80). -/
theorem hostWrite_busy {s t : State} {addr width : Nat} {w : Word} (hbusy : s.latch.isSome = true)
    (h : s.hostWrite addr width w = .next t) : t = { s with status := t.status, reply := t.reply } := by
  obtain ⟨off, rfl⟩ | rfl := access_next h
  · obtain ⟨status, hwrite⟩ := writeWindow_busy_status off w hbusy
    rw [hwrite]
  · rfl

/-- Settles O11: by the host's next action, which is no hardware reset. -/
theorem busyEngineKeepsTheCommandsInputs : Obligations.BusyEngineKeepsTheCommandsInputs := by
  intro s t w n hlatch hreset hstep
  obtain ⟨hnone, hnext⟩ := hostMovesWhenNoCommandIsDue s _ (.inr ⟨w, n, hlatch, rfl⟩)
  rcases hhost : s.host with _ | ⟨action, rest⟩
  · cases (hnone hhost).symm.trans hstep
    rfl
  · obtain ⟨hidle, hpoll, hwait, hread, hwrite⟩ := hnext rest
    cases action with
    | read addr width => rw [hostRead_hostSide ((hread addr width hhost).symm.trans hstep)]
    | write addr width v => rw [hostWrite_busy rfl ((hwrite addr width v hhost).symm.trans hstep)]
    | poll => cases (hpoll hhost).symm.trans hstep; rfl
    | waitIrq => cases (hwait hhost).symm.trans hstep; rfl
    | idle => cases (hidle hhost).symm.trans hstep; rfl
    | hardReset => simp [hhost] at hreset

end Sys2Proof.Machine
end

section
/-! What a host may read of a running command's state (20_memory R81): a word the command may not write is left as it
was, by a command that ends in error and by one that completes. -/

namespace Sys2Proof.Machine

/-! ### The decoder answers legal commands -/

theorem checkFields_ok {w : Word} {usesBlk usesPt usesG legalBlk : Bool} {i j : Instr}
    (h : checkFields w usesBlk usesPt usesG legalBlk i = .ok j) : legalBlk = true ∧ i = j := by
  unfold checkFields at h
  split at h
  · cases h
  · split at h
    · cases h
    · next hlegal => exact ⟨Bool.not_eq_false _ ▸ hlegal, Except.ok.inj h⟩

/-- A decoded command has passed the check of its BLK (30_encoding R105). -/
theorem decode_wellFormed {w : Word} {i : Instr} (h : decode w = .ok i) : i.WellFormed := by
  unfold decode at h
  split at h
  case h_20 => cases h
  all_goals
    obtain ⟨hlegal, rfl⟩ := checkFields_ok h
    exact hlegal

/-! ### The ends of a command -/

/-- A command with a legal BLK that checks neither MODE nor blocks has no error end (60_exceptions R283). -/
theorem exec_completes {i : Instr} (s : State) (hi : i.WellFormed) (hopt : isOptimization i = false)
    (hluma : isLumaXform i = false) : exec i s = .next (s.bodyOf i).complete := by
  cases i with
  | subB | fdct4x4 | fdct8x4 | dqB => exact congrArg _ (checkBlk_legal s _ _ _ hi)
  | optB | optMb | optMby | optMbuv => cases hopt
  | xformMby | xformMb => cases hluma
  | _ => rfl

/-- An error end leaves every word but STATUS and ERRINFO (60_exceptions R284). -/
theorem raise_readLoc_other (s : State) (f : Failure) {loc : Loc} (hstatus : loc ≠ .reg .status)
    (herr : loc ≠ .reg .errinfo) : (s.raise f).readLoc loc = s.readLoc loc := by
  cases loc with
  | reg r =>
    cases r with
    | status => exact absurd rfl hstatus
    | errinfo => exact absurd rfl herr
    | _ => rfl
  | _ => rfl

/-- What a completed body changes besides STATUS, the command may write (10_state R46). -/
theorem complete_readLoc_or_mayWrite {i : Instr} {s u : State} {loc : Loc} (hframe : s.BodyFrame i u)
    (hstatus : loc ≠ .reg .status) : u.complete.readLoc loc = s.readLoc loc ∨ s.commandMayWrite i loc = true := by
  obtain ⟨heq, -, -, hdiff, hcoeff, hqcoeff, hdqcoeff, heob, hwctx, hctx⟩ := hframe
  have hread := congrArg (fun v : State => v.complete.readLoc loc) heq
  have hkept {α : Type} {x y : α} (put : α → State) (hxy : x = y) : (put x).readLoc loc = (put y).readLoc loc :=
    congrArg (fun z => (put z).readLoc loc) hxy
  cases loc with
  | diff =>
    exact hdiff.imp (fun h => hread.trans (hkept (fun m => { s with diff := m }) h))
      (by simp [State.commandMayWrite, or_assoc])
  | coeff => exact hcoeff.imp_left fun h => hread.trans (hkept (fun m => { s with coeff := m }) h)
  | qcoeff => exact hqcoeff.imp_left fun h => hread.trans (hkept (fun m => { s with qcoeff := m }) h)
  | dqcoeff =>
    refine hdqcoeff.imp (fun h => hread.trans (hkept (fun m => { s with dqcoeff := m }) h)) ?_
    rintro (hopt | ⟨blk, pt, rfl⟩)
    · exact Bool.or_eq_true_iff.mpr (.inl hopt)
    · rfl
  | eob => exact heob.imp_left fun h => hread.trans (hkept (fun m => { s with eob := m }) h)
  | reg r =>
    cases r with
    | status => exact absurd rfl hstatus
    | wctxAbove =>
      exact hwctx.imp (fun h => hread.trans (hkept (fun c => { s with wctxAbove := c }) h.1))
        (by simp [State.commandMayWrite])
    | wctxLeft =>
      exact hwctx.imp (fun h => hread.trans (hkept (fun c => { s with wctxLeft := c }) h.2))
        (by simp [State.commandMayWrite])
    | ctxAbove =>
      exact hctx.imp (fun h => hread.trans (hkept (fun c => { s with ctxAbove := c }) h.1))
        (by simp [State.commandMayWrite])
    | ctxLeft =>
      exact hctx.imp (fun h => hread.trans (hkept (fun c => { s with ctxLeft := c }) h.2))
        (by simp [State.commandMayWrite])
    | _ => exact .inl hread
  | _ => exact .inl hread

/-- What a command may not write it leaves: ERRINFO too, since a command that may not write it has no error end. -/
theorem exec_readLoc_of_not_mayWrite {i : Instr} {s t : State} {loc : Loc} (hi : i.WellFormed)
    (hexec : exec i s = .next t) (hmay : s.commandMayWrite i loc = false) (hstatus : loc ≠ .reg .status) :
    t.readLoc loc = s.readLoc loc := by
  obtain ⟨f, rfl⟩ | ⟨u, rfl, hu⟩ := exec_next_ends hexec
  · refine raise_readLoc_other s f hstatus ?_
    rintro rfl
    obtain ⟨hopt, hluma⟩ := Bool.or_eq_false_iff.mp hmay
    cases congrArg State.status (Host.Outcome.next.inj (hexec.symm.trans (exec_completes s hi hopt hluma)))
  · exact (complete_readLoc_or_mayWrite hu hstatus).resolve_right (Bool.eq_false_iff.mp hmay)

/-- Settles O16: a word that is no command ends in an error, which writes STATUS and ERRINFO, and a command writes what
its class of commands may. -/
theorem readableWhileBusyIsUnchanged : Obligations.ReadableWhileBusyIsUnchanged := by
  intro s t w loc hmay hstatus hrun
  unfold State.wordMayWrite at hmay
  split at hmay
  · next i hdecode =>
    rw [runWord_ok hdecode] at hrun
    exact exec_readLoc_of_not_mayWrite (decode_wellFormed hdecode) hrun hmay hstatus
  · next e hdecode =>
    cases (runWord_error hdecode).symm.trans hrun
    exact raise_readLoc_other s _ hstatus (of_decide_eq_false hmay)

end Sys2Proof.Machine
end

section
/-! Command words (30_encoding): the fields of a word the assembler writes (R100, R108), and the decoder as one check of
the unused fields and of BLK for every opcode (R102..R105). -/

namespace Sys2Proof

open Machine

/-! ### The fields of a word -/

/-- Every field ends where the next one begins, so at bit `k` at most one of the four is not 0. -/
theorem getLsbD_assemble (op : BitVec 6) (blk : BitVec 5) (pt : BitVec 2) (g : Bool) (k : Nat) :
    (assemble op blk pt g).getLsbD k =
      if k < 6 then op.getLsbD k else if k < 11 then blk.getLsbD (k - 6) else if k < 13 then pt.getLsbD (k - 11)
      else decide (k = 13) && g := by
  have hop : 6 ≤ k → op.getLsbD k = false := op.getLsbD_of_ge k
  have hblk : 11 ≤ k → blk.getLsbD (k - 6) = false := fun h => blk.getLsbD_of_ge _ (by omega)
  have hpt : 13 ≤ k → pt.getLsbD (k - 11) = false := fun h => pt.getLsbD_of_ge _ (by omega)
  simp only [assemble, BitVec.getLsbD_or, BitVec.getLsbD_shiftLeft, BitVec.getLsbD_setWidth, BitVec.getLsbD_ofBool]
  grind

@[simp] theorem opField_assemble (op : BitVec 6) (blk : BitVec 5) (pt : BitVec 2) (g : Bool) :
    opField (assemble op blk pt g) = op := by
  refine BitVec.eq_of_getLsbD_eq fun k hk => ?_
  simp [opField, getLsbD_assemble, hk]

@[simp] theorem blkField_assemble (op : BitVec 6) (blk : BitVec 5) (pt : BitVec 2) (g : Bool) :
    blkField (assemble op blk pt g) = blk := by
  refine BitVec.eq_of_getLsbD_eq fun k hk => ?_
  simp [blkField, getLsbD_assemble, hk, show 6 + k < 11 by omega]

@[simp] theorem ptField_assemble (op : BitVec 6) (blk : BitVec 5) (pt : BitVec 2) (g : Bool) :
    ptField (assemble op blk pt g) = pt := by
  refine BitVec.eq_of_getLsbD_eq fun k hk => ?_
  simp [ptField, getLsbD_assemble, hk, show ¬11 + k < 6 by omega, show 11 + k < 13 by omega]

@[simp] theorem gField_assemble (op : BitVec 6) (blk : BitVec 5) (pt : BitVec 2) (g : Bool) :
    gField (assemble op blk pt g) = g := by
  rw [gField, getLsbD_assemble]
  rfl

@[simp] theorem rsvField_assemble (op : BitVec 6) (blk : BitVec 5) (pt : BitVec 2) (g : Bool) :
    rsvField (assemble op blk pt g) = 0 := by
  refine BitVec.eq_of_getLsbD_eq fun k hk => ?_
  rw [rsvField, BitVec.getLsbD_extractLsb', getLsbD_assemble, if_neg (by omega), if_neg (by omega), if_neg (by omega),
    decide_eq_false (show ¬14 + k = 13 by omega), Bool.false_and, Bool.and_false]
  exact BitVec.getLsbD_zero.symm

/-- A word with RSV 0 is given by its other four fields. -/
theorem assemble_fields {w : Word} (hrsv : rsvField w = 0) :
    assemble (opField w) (blkField w) (ptField w) (gField w) = w := by
  have hhigh (k : Nat) (hlo : 14 ≤ k) (hhi : k < 32) : w.getLsbD k = false := by
    have hbit := congrArg (fun v : BitVec 18 => v.getLsbD (k - 14)) hrsv
    simpa [rsvField, show k - 14 < 18 by omega, show 14 + (k - 14) = k by omega] using hbit
  refine BitVec.eq_of_getLsbD_eq fun k hk => ?_
  rw [getLsbD_assemble]
  split_ifs with hop hblk hpt
  · simp [opField, hop]
  · simp [blkField, show k - 6 < 5 by omega, show 6 + (k - 6) = k by omega]
  · simp [ptField, show k - 11 < 2 by omega, show 11 + (k - 11) = k by omega]
  · obtain rfl | hne := eq_or_ne k 13
    · simp [gField]
    · simp [hne, hhigh k (by omega) hk]

theorem extractLsb'_eq_zero_of_ushiftRight {w : Word} {n start : Nat} (len : Nat) (hw : w >>> n = 0) (hn : n ≤ start) :
    w.extractLsb' start len = 0 := by
  refine BitVec.eq_of_getLsbD_eq fun k hk => ?_
  have hbit := congrArg (fun v : Word => v.getLsbD (start + k - n)) hw
  simpa [hk, show n + (start + k - n) = start + k by omega] using hbit

/-! ### The operands of a command -/

/-- Field BLK of the assembler's word of a command (30_encoding R108). -/
def Instr.blk : Instr → BitVec 5
  | .subB blk | .fdct4x4 blk | .fdct8x4 blk | .dqB blk _ | .optB blk _ _ => blk
  | _ => 0

/-- Field PT of the assembler's word of a command. -/
def Instr.pt : Instr → BitVec 2
  | .dqB _ pt | .optB _ pt _ => pt
  | _ => 0

/-- Field G of the assembler's word of a command. -/
def Instr.g : Instr → Bool
  | .optB _ _ g | .optMb g | .optMby g | .optMbuv g => g
  | _ => false

/-- The command of the same opcode that takes those of the given fields which its opcode uses (30_encoding R102). -/
def Instr.withFields (blk : BitVec 5) (pt : BitVec 2) (g : Bool) : Instr → Instr
  | .subB _ => .subB blk
  | .fdct4x4 _ => .fdct4x4 blk
  | .fdct8x4 _ => .fdct8x4 blk
  | .dqB _ _ => .dqB blk pt
  | .optB _ _ _ => .optB blk pt g
  | .optMb _ => .optMb g
  | .optMby _ => .optMby g
  | .optMbuv _ => .optMbuv g
  | i => i

theorem encode_eq_assemble (i : Instr) : encode i = assemble i.opcode i.blk i.pt i.g := by cases i <;> rfl

@[simp] theorem Instr.withFields_self (i : Instr) : i.withFields i.blk i.pt i.g = i := by cases i <;> rfl

section
variable (i : Instr) (blk : BitVec 5) (pt : BitVec 2) (g : Bool)

@[simp] theorem Instr.opcode_withFields : (i.withFields blk pt g).opcode = i.opcode := by cases i <;> rfl

@[simp] theorem Instr.mask_withFields : (i.withFields blk pt g).mask = i.mask := by cases i <;> rfl

@[simp] theorem Instr.blk_withFields : (i.withFields blk pt g).blk = if usesBlk i then blk else 0 := by
  cases i <;> rfl

@[simp] theorem Instr.pt_withFields : (i.withFields blk pt g).pt = if usesPt i then pt else 0 := by cases i <;> rfl

@[simp] theorem Instr.g_withFields : (i.withFields blk pt g).g = if usesG i then g else false := by cases i <;> rfl

end

/-! ### The check of the unused fields (30_encoding R104) -/

/-- `unusedZero` for the fields the opcode of `i` uses. -/
abbrev Instr.UnusedZero (i : Instr) (w : Word) : Prop := unusedZero w (usesBlk i) (usesPt i) (usesG i) = true

theorem Instr.unusedZero_iff {i : Instr} {w : Word} : i.UnusedZero w ↔
    rsvField w = 0 ∧ (usesBlk i = false → blkField w = 0) ∧ (usesPt i = false → ptField w = 0) ∧
      (usesG i = false → gField w = false) := by
  simp only [Instr.UnusedZero, unusedZero, Bool.and_eq_true, Bool.or_eq_true, decide_eq_true_eq, Bool.not_eq_true',
    and_assoc, or_iff_not_imp_left, Bool.not_eq_true]

/-- The assembler leaves 0 in every field the command does not use (30_encoding R108): a command is itself with its own
fields, of which `withFields` keeps 0 where one is unused. -/
theorem unusedZero_encode (i : Instr) : i.UnusedZero (encode i) := by
  have hblk := i.blk_withFields i.blk i.pt i.g
  have hpt := i.pt_withFields i.blk i.pt i.g
  have hg := i.g_withFields i.blk i.pt i.g
  rw [i.withFields_self] at hblk hpt hg
  rw [Instr.unusedZero_iff, encode_eq_assemble]
  refine ⟨rsvField_assemble .., fun h => ?_, fun h => ?_, fun h => ?_⟩
  · simpa [h] using hblk
  · simpa [h] using hpt
  · simpa [h] using hg

/-- The command of the opcode of `i` that takes its fields from `w`. -/
abbrev Instr.ofFields (i : Instr) (w : Word) : Instr := i.withFields (blkField w) (ptField w) (gField w)

theorem Instr.ofFields_encode (i : Instr) : i.ofFields (encode i) = i := by
  simp [Instr.ofFields, encode_eq_assemble]

/-- A word whose unused fields are 0 is the assembler's word of the command it spells. -/
theorem encode_ofFields {i : Instr} {w : Word} (hop : opField w = i.opcode) (hunused : i.UnusedZero w) :
    encode (i.ofFields w) = w := by
  obtain ⟨hrsv, hblk, hpt, hg⟩ := Instr.unusedZero_iff.mp hunused
  calc encode (i.ofFields w)
      = assemble (opField w) (if usesBlk i then blkField w else 0) (if usesPt i then ptField w else 0)
          (if usesG i then gField w else false) := by simp [encode_eq_assemble, hop]
    _ = assemble (opField w) (blkField w) (ptField w) (gField w) := by
      congr 1
      · exact ite_eq_left_iff.mpr fun h => (hblk (Bool.eq_false_iff.mpr h)).symm
      · exact ite_eq_left_iff.mpr fun h => (hpt (Bool.eq_false_iff.mpr h)).symm
      · exact ite_eq_left_iff.mpr fun h => (hg (Bool.eq_false_iff.mpr h)).symm
    _ = w := assemble_fields hrsv

/-! ### The decoder -/

/-- The word of an opcode-table row decodes by the two checks of 30_encoding R104 and R105. -/
theorem decode_of_opField {i : Instr} {w : Word} (hop : opField w = i.opcode) :
    decode w = checkFields w (usesBlk i) (usesPt i) (usesG i) (i.ofFields w).wf (i.ofFields w) := by
  unfold decode
  rw [hop]
  cases i <;> rfl

theorem decode_unused {i : Instr} {w : Word} (hop : opField w = i.opcode) (hunused : ¬i.UnusedZero w) :
    decode w = .error .rsvdField := by
  rw [decode_of_opField hop, checkFields, if_pos (Bool.not_eq_true _ ▸ hunused)]

theorem decode_unusedZero {i : Instr} {w : Word} (hop : opField w = i.opcode) (hunused : i.UnusedZero w) :
    decode w = if (i.ofFields w).wf = false then .error (.badBlk (blkField w)) else .ok (i.ofFields w) := by
  rw [decode_of_opField hop, checkFields, if_neg (ne_false_of_eq_true hunused)]

theorem opField_of_decode_ok {w : Word} {i : Instr} (h : decode w = .ok i) : opField w = i.opcode := by
  unfold decode at h
  split at h
  case h_20 => cases h
  all_goals
    obtain ⟨-, rfl⟩ := checkFields_ok h
    exact BitVec.eq_of_toNat_eq ‹_›

theorem unusedZero_of_decode_ok {w : Word} {i : Instr} (h : decode w = .ok i) : i.UnusedZero w := by
  by_contra hunused
  cases h.symm.trans (decode_unused (opField_of_decode_ok h) hunused)

theorem ofFields_of_decode_ok {w : Word} {i : Instr} (h : decode w = .ok i) : i.ofFields w = i :=
  (checkFields_ok ((decode_of_opField (opField_of_decode_ok h)).symm.trans h)).2

/-- Opcodes in no row of 30_encoding R102 (R106). -/
theorem decode_illegalOp {w : Word} (h : (5 ≤ (opField w).toNat ∧ (opField w).toNat ≤ 7) ∨ (opField w).toNat = 0xF ∨
    (0x11 ≤ (opField w).toNat ∧ (opField w).toNat ≤ 0x13) ∨ 0x1A ≤ (opField w).toNat) :
    decode w = .error .illegalOp := by
  unfold decode
  split
  case h_20 => rfl
  all_goals omega

/-- Settles O1: the assembler's word has the command's opcode and fields, and 0 in the unused ones. -/
theorem decodeInvertsEncode : Obligations.DecodeInvertsEncode := by
  intro i hi
  have hop : opField (encode i) = i.opcode := by simp [encode_eq_assemble]
  rw [decode_unusedZero hop (unusedZero_encode i), i.ofFields_encode, if_neg (ne_false_of_eq_true hi)]

/-- Settles O2: the decoder takes the command from the fields, and the unused ones are 0. -/
theorem encodeInvertsDecode : Obligations.EncodeInvertsDecode := by
  intro w i h
  have hword := encode_ofFields (opField_of_decode_ok h) (unusedZero_of_decode_ok h)
  rw [ofFields_of_decode_ok h] at hword
  exact ⟨decode_wellFormed h, hword⟩

/-- Settles O4: the assembler and the decoder are run on the sixteen commands and their words. -/
theorem workedEncodings : Obligations.WorkedEncodings := by
  unfold Obligations.WorkedEncodings
  decide

/-! ### Match and mask (30_encoding R107) -/

theorem Instr.mask_eq (i : Instr) : i.mask = ~~~((if usesBlk i then 0x7C0#32 else 0) |||
    (if usesPt i then 0x1800#32 else 0) ||| (if usesG i then 0x2000#32 else 0)) := by
  cases i <;> simp [Instr.mask, usesBlk, usesPt, usesG]

open Laws.MatchMask in
/-- The word of every command, under its mask, is its opcode. -/
theorem encode_matches (i : Instr) : encode i &&& i.mask = i.opcode.setWidth 32 :=
  match i with
  | .nop => nop
  | .subB blk => subB blk
  | .subMby => subMby
  | .subMbuv => subMbuv
  | .subMb => subMb
  | .fdct4x4 blk => fdct4x4 blk
  | .fdct8x4 blk => fdct8x4 blk
  | .buildDc => buildDc
  | .walsh4x4 => walsh4x4
  | .xformMby => xformMby
  | .xformMbuv => xformMbuv
  | .xformMb => xformMb
  | .dqB blk pt => dqB blk pt
  | .optB blk pt g => optB blk pt g
  | .optMb g => optMb g
  | .optMby g => optMby g
  | .optMbuv g => optMbuv g
  | .ctxSnap => ctxSnap
  | .ctxCommit => ctxCommit

/-- Settles O3: the masked bits are OP and the unused fields, so the word of a command matches and one that does not
match has an unused field set. -/
theorem matchAndMaskSelectTheCommand : Obligations.MatchAndMaskSelectTheCommand := by
  intro w i
  refine ⟨i.mask_eq, fun h => ?_, fun hop hmask => decode_unused hop fun hunused => hmask ?_⟩
  · rw [← (encodeInvertsDecode w i h).2]
    exact encode_matches i
  · have hmatch := encode_matches (i.ofFields w)
    rwa [encode_ofFields hop hunused, Instr.mask_withFields, Instr.opcode_withFields] at hmatch

end Sys2Proof
end

section
/-! The ends of a latched word that is no command (30_encoding R103..R106, 60_exceptions R281, R283, R284). -/

namespace Sys2Proof.Machine

/-- The last BUSY step of a word that is no command. -/
theorem step_decodeError {s : State} {w : Word} {n : Nat} {e : DecodeError}
    (hlatch : s.latch = some { word := w, left := n }) (hn : n ≤ 1) (hdecode : decode w = .error e) :
    step s = .next (s.raise (decodeFailure e)) :=
  (stepRunsTheLatchedCommand s w n hlatch hn).2 e hdecode

theorem decode_eq_nop_iff (w : Word) : decode w = .ok .nop ↔ w = 0 := by
  have hnop : encode .nop = 0 := by decide
  constructor
  · intro h
    exact (encodeInvertsDecode w .nop h).2.symm.trans hnop
  · rintro rfl
    exact hnop ▸ decodeInvertsEncode .nop rfl

/-- Settles O5: an opcode of no row is the decoder's first error, and NOP's own word is 0. -/
theorem illegalOpcodeEndsInError : Obligations.IllegalOpcodeEndsInError :=
  ⟨fun _ _ _ hlatch hn hop => step_decodeError hlatch hn (decode_illegalOp hop), decode_eq_nop_iff⟩

/-- Settles O6: the check of the unused fields stands before the check of BLK. -/
theorem reservedFieldEndsInError : Obligations.ReservedFieldEndsInError := by
  intro s w n i hlatch hn hop hset
  refine step_decodeError hlatch hn (decode_unused hop fun hunused => ?_)
  obtain ⟨hrsv, hblk, hpt, hg⟩ := Instr.unusedZero_iff.mp hunused
  obtain hset | ⟨huse, hset⟩ | ⟨huse, hset⟩ | ⟨huse, hset⟩ := hset
  · exact hset hrsv
  · exact hset (hblk huse)
  · exact hset (hpt huse)
  · exact absurd (hg huse) (ne_false_of_eq_true hset)

/-! ### BLK outside the legal set -/

theorem rsvField_eq_zero {w : Word} {n : Nat} (hw : w >>> n = 0) (hn : n ≤ 14) : rsvField w = 0 :=
  extractLsb'_eq_zero_of_ushiftRight 18 hw hn

theorem ptField_eq_zero {w : Word} {n : Nat} (hw : w >>> n = 0) (hn : n ≤ 11) : ptField w = 0 :=
  extractLsb'_eq_zero_of_ushiftRight 2 hw hn

theorem gField_eq_false {w : Word} {n : Nat} (hw : w >>> n = 0) (hn : n ≤ 13) : gField w = false := by
  have hbit := congrArg (fun v : Word => v.getLsbD (13 - n)) hw
  simpa [gField, show n + (13 - n) = 13 by omega] using hbit

/-- A word of at most OP and BLK has 0 in every field a command with a BLK can leave unused. -/
theorem unusedZero_of_shift {i : Instr} {w : Word} (hw : w >>> 11 = 0) (huse : usesBlk i = true) : i.UnusedZero w :=
  Instr.unusedZero_iff.mpr ⟨rsvField_eq_zero hw (by decide), fun h => absurd huse (Bool.eq_false_iff.mp h),
    fun _ => ptField_eq_zero hw (by decide), fun _ => gField_eq_false hw (by decide)⟩

/-- A word that spells a command with an illegal BLK, its unused fields 0, ends in BAD_BLK. -/
theorem step_badBlk {s : State} {w : Word} {n : Nat} (i : Instr) (hlatch : s.latch = some { word := w, left := n })
    (hn : n ≤ 1) (hop : (opField w).toNat = i.opcode.toNat) (hunused : i.UnusedZero w)
    (hblk : (i.ofFields w).wf = false) : step s = .next (s.failsWith .badBlk (blkField w) 0) :=
  step_decodeError hlatch hn ((decode_unusedZero (BitVec.eq_of_toNat_eq hop) hunused).trans (if_pos hblk))

theorem blkOfPlane_eq_false {blk : BitVec 5} (h : 24 ≤ blk.toNat) : blkOfPlane blk = false :=
  decide_eq_false (by omega)

theorem blkOfSlot_eq_false {blk : BitVec 5} (h : 25 ≤ blk.toNat) : blkOfSlot blk = false :=
  decide_eq_false (by omega)

theorem blkOfPair_eq_false {blk : BitVec 5} (h : blk.toNat % 2 = 1 ∨ 23 ≤ blk.toNat) : blkOfPair blk = false := by
  simp only [blkOfPair, Bool.and_eq_false_iff, decide_eq_false_iff_not]
  omega

/-- Settles O7: by the opcode, whose unused fields are 0. -/
theorem illegalBlockEndsInError : Obligations.IllegalBlockEndsInError := by
  intro s w n hlatch hn hcase
  obtain ⟨hop | hop, hblk, hw⟩ | ⟨hop, hblk, hw⟩ | ⟨hop, hblk, hw⟩ | ⟨hop, hblk, hw⟩ := hcase
  · exact step_badBlk (.subB 0) hlatch hn hop (unusedZero_of_shift hw rfl) (blkOfPlane_eq_false hblk)
  · exact step_badBlk (.fdct4x4 0) hlatch hn hop (unusedZero_of_shift hw rfl) (blkOfPlane_eq_false hblk)
  · exact step_badBlk (.fdct8x4 0) hlatch hn hop (unusedZero_of_shift hw rfl) (blkOfPair_eq_false hblk)
  · refine step_badBlk (.dqB 0 0) hlatch hn hop (Instr.unusedZero_iff.mpr ?_) (blkOfSlot_eq_false hblk)
    exact ⟨rsvField_eq_zero hw (by decide), nofun, nofun, fun _ => gField_eq_false hw (by decide)⟩
  · refine step_badBlk (.optB 0 0 false) hlatch hn hop (Instr.unusedZero_iff.mpr ?_) (blkOfSlot_eq_false hblk)
    exact ⟨rsvField_eq_zero hw (by decide), nofun, nofun, nofun⟩

end Sys2Proof.Machine
end

section
/-! The residual generator (40_residual): which elements of the planes a block is (R130), what the commands leave
(R131..R135), and the plane commands as runs of SUB_B. -/

namespace Sys2Proof.Machine

/-! ### Block geometry (40_residual R130) -/

theorem mem_blockIndices {b j : Nat} : j ∈ blockIndices b ↔ ∃ r c, r < 4 ∧ c < 4 ∧ j = blockIndex b r c := by
  simp only [blockIndices, List.mem_map, List.mem_range]
  constructor
  · rintro ⟨k, hk, rfl⟩
    exact ⟨k / 4, k % 4, by omega, by omega, rfl⟩
  · rintro ⟨r, c, hr, hc, rfl⟩
    exact ⟨4 * r + c, by omega, by rw [show (4 * r + c) / 4 = r by omega, show (4 * r + c) % 4 = c by omega]⟩

theorem blockIndex_luma {b : Nat} (hb : b < 16) (r c : Nat) :
    blockIndex b r c = b / 4 * 64 + b % 4 * 4 + r * 16 + c := by
  simp [blockIndex, blockOrigin, blockStride, hb]

/-- The second chroma plane follows the first, so one formula serves both. -/
theorem blockIndex_chroma {b : Nat} (hlo : 16 ≤ b) (hhi : b < 24) (r c : Nat) :
    blockIndex b r c = 256 + (b - 16) / 2 * 32 + (b - 16) % 2 * 4 + r * 8 + c := by
  simp only [blockIndex, blockOrigin, blockStride, if_neg (Nat.not_lt.mpr hlo), if_pos hhi]
  split <;> omega

/-- The luma blocks tile the luma plane. -/
theorem luma_iff_mem_block (j : Nat) : j < 256 ↔ ∃ b < 16, j ∈ blockIndices b := by
  simp only [mem_blockIndices]
  constructor
  · intro hj
    have hb : j / 64 * 4 + j % 16 / 4 < 16 := by omega
    refine ⟨_, hb, j % 64 / 16, j % 4, by omega, by omega, ?_⟩
    rw [blockIndex_luma hb]
    omega
  · rintro ⟨b, hb, r, c, hr, hc, rfl⟩
    rw [blockIndex_luma hb]
    omega

/-- The chroma blocks tile the two chroma planes. -/
theorem chroma_iff_mem_block (j : Nat) : 256 ≤ j ∧ j < 384 ↔ ∃ b, 16 ≤ b ∧ b < 24 ∧ j ∈ blockIndices b := by
  simp only [mem_blockIndices]
  constructor
  · rintro ⟨hlo, hhi⟩
    have hb : 16 + (j - 256) / 32 * 2 + j % 8 / 4 < 24 := by omega
    refine ⟨_, by omega, hb, j % 32 / 8, j % 4, by omega, by omega, ?_⟩
    rw [blockIndex_chroma (by omega) hb]
    omega
  · rintro ⟨b, hlo, hhi, r, c, hr, hc, rfl⟩
    rw [blockIndex_chroma hlo hhi]
    omega

/-! ### RES over a list of indices (40_residual R131) -/

/-- The residuals as one update: `residuals_frame` with the array of `residuals_diff`. -/
theorem residuals_eq (s : State) (js : List Nat) : s.residuals js = { s with
    diff := s.diff.putAll (js.map fun j => (j, ((s.srcAt j).toNat : Int) - ((s.predAt j).toNat : Int))) } := by
  rw [residuals_frame, residuals_diff]

@[simp] theorem residuals_nil (s : State) : s.residuals [] = s := residuals_eq s []

/-- Residuals read SRC and PRED only, which they do not write. -/
theorem residuals_append (s : State) (js ks : List Nat) : s.residuals (js ++ ks) = (s.residuals js).residuals ks := by
  rw [residuals_eq, List.map_append, Elems.putAll_append, residuals_eq (s.residuals js) ks, residuals_eq s js]
  rfl

theorem complete_residuals (s : State) (js : List Nat) : s.complete.residuals js = (s.residuals js).complete := by
  rw [residuals_eq, residuals_eq]
  rfl

theorem complete_complete (s : State) : s.complete.complete = s.complete := rfl

@[simp] theorem residuals_srcAt (s : State) (js : List Nat) (j : Nat) : (s.residuals js).srcAt j = s.srcAt j := by
  rw [residuals_eq]
  rfl

@[simp] theorem residuals_predAt (s : State) (js : List Nat) (j : Nat) : (s.residuals js).predAt j = s.predAt j := by
  rw [residuals_eq]
  rfl

/-- The last write of an index decides, and every write of it stores the same difference, so the list may repeat it. -/
theorem residuals_diffAt_toInt (s : State) {js : List Nat} {j : Nat} (h : j ∈ js) :
    ((s.residuals js).diffAt j).toInt = ((s.srcAt j).toNat : Int) - ((s.predAt j).toNat : Int) := by
  induction js using List.reverseRecOn with
  | nil => cases h
  | append_singleton js k ih =>
    rw [residuals_append]
    by_cases hk : j = k
    · subst hk
      rw [residuals_diffAt_mem _ (List.nodup_singleton j) (List.mem_singleton_self j), residuals_srcAt,
        residuals_predAt]
    · rw [residuals_diffAt_other _ (mt List.mem_singleton.mp hk)]
      exact ih ((List.mem_append.mp h).resolve_right (mt List.mem_singleton.mp hk))

/-- The order of the writes does not matter: lists of the same indices leave the same elements. -/
theorem residuals_diffAt_congr (s : State) {js ks : List Nat} (h : ∀ j, j ∈ js ↔ j ∈ ks) (j : Nat) :
    (s.residuals js).diffAt j = (s.residuals ks).diffAt j := by
  by_cases hj : j ∈ js
  · exact BitVec.eq_of_toInt_eq ((residuals_diffAt_toInt s hj).trans (residuals_diffAt_toInt s ((h j).mp hj)).symm)
  · rw [residuals_diffAt_other s hj, residuals_diffAt_other s (mt (h j).mpr hj)]

/-! ### What a residual command leaves -/

/-- A command that completes with the residuals of `js` writes their differences, and nothing else changes. -/
theorem exec_writes_differences {s : State} {i : Instr} {js : List Nat}
    (hexec : exec i s = .next (s.residuals js).complete) :
    ∃ t, exec i s = .next t ∧ t = { s.ends with diff := t.diff } ∧
      (∀ j ∈ js, (t.diffAt j).toInt = ((s.srcAt j).toNat : Int) - ((s.predAt j).toNat : Int)) ∧
      ∀ j, j ∉ js → t.diffAt j = s.diffAt j := by
  refine ⟨_, hexec, ?_, fun j => residuals_diffAt_toInt s, fun j => residuals_diffAt_other s⟩
  rw [residuals_eq]
  rfl

theorem exec_subB {blk : BitVec 5} (hblk : blk.toNat ≤ 23) (s : State) :
    exec (.subB blk) s = .next (s.residuals (blockIndices blk.toNat)).complete :=
  exec_completes s (decide_eq_true hblk) rfl rfl

/-- Settles O39: the indices SUB_B writes are the elements of its block. -/
theorem subBlockWritesItsResidual : Obligations.SubBlockWritesItsResidual := by
  intro s blk hblk
  obtain ⟨t, hexec, hframe, hin, hout⟩ := exec_writes_differences (exec_subB hblk s)
  refine ⟨t, hexec, hframe, fun r c hr hc => hin _ (mem_blockIndices.mpr ⟨r, c, hr, hc, rfl⟩),
    fun j hj => hout j fun hmem => ?_⟩
  obtain ⟨r, c, hr, hc, rfl⟩ := mem_blockIndices.mp hmem
  exact hj r c hr hc rfl

/-- Settles O40: each plane command writes the indices of its range. -/
theorem subPlanesWriteTheirResiduals : Obligations.SubPlanesWriteTheirResiduals := by
  intro s i lo hi hcase
  have hbody : exec i s = .next (s.residuals (List.range' lo (hi - lo))).complete := by
    obtain ⟨rfl, rfl, rfl⟩ | ⟨rfl, rfl, rfl⟩ | ⟨rfl, rfl, rfl⟩ := hcase
    · rw [← List.range_eq_range']
      rfl
    · rfl
    · rw [← List.range_eq_range']
      rfl
  obtain ⟨t, hexec, hframe, hin, hout⟩ := exec_writes_differences hbody
  refine ⟨t, hexec, hframe, fun j hlo hhi => hin j ?_, fun j hj => hout j ?_⟩ <;> rw [List.mem_range'_1] <;> omega

/-! ### A plane command is SUB_B of its blocks -/

theorem execAll_cons {i : Instr} {is : List Instr} {s t : State} (h : exec i s = .next t) :
    execAll (i :: is) s = execAll is t := by
  rw [execAll, h]

/-- A run of SUB_B is one list of residuals, its blocks' indices in the order of the run. -/
theorem execAll_subB {bs : List (BitVec 5)} (hne : bs ≠ []) (hlegal : ∀ b ∈ bs, b.toNat ≤ 23) (s : State) :
    execAll (bs.map .subB) s = .next (s.residuals (bs.flatMap fun b => blockIndices b.toNat)).complete := by
  induction bs, hne using List.recNeNil generalizing s with
  | singleton b =>
    rw [List.map_singleton, execAll_cons (exec_subB (hlegal b List.mem_cons_self) s), List.flatMap_singleton]
    rfl
  | cons b bs hne ih =>
    rw [List.map_cons, execAll_cons (exec_subB (hlegal b List.mem_cons_self) s),
      ih fun c hc => hlegal c (List.mem_cons_of_mem b hc), complete_residuals, complete_complete, ← residuals_append,
      List.flatMap_cons]

/-- The blocks of a plane in any order, by their numbers. -/
theorem toNat_perm_range' {lo n : Nat} (hn : lo + n ≤ 24) {bs : List (BitVec 5)}
    (hbs : bs.Perm ((List.range' lo n).map (BitVec.ofNat 5))) : (bs.map BitVec.toNat).Perm (List.range' lo n) := by
  have hnumbers : (List.range' lo n).map (BitVec.toNat ∘ BitVec.ofNat 5) = List.range' lo n := by
    refine (List.map_congr_left fun b hb => ?_).trans (List.map_id _)
    have := List.mem_range'_1.mp hb
    exact Nat.mod_eq_of_lt (by omega)
  simpa only [List.map_map, hnumbers] using hbs.map BitVec.toNat

/-- A command that writes the residuals of exactly the elements of a plane's blocks equals SUB_B of them in any
order. -/
theorem exec_eq_execAll_subB {s : State} {i : Instr} {js : List Nat}
    (hexec : exec i s = .next (s.residuals js).complete) {lo n : Nat} (hpos : 0 < n) (hn : lo + n ≤ 24)
    (htile : ∀ j, j ∈ js ↔ ∃ b ∈ List.range' lo n, j ∈ blockIndices b)
    {bs : List (BitVec 5)} (hbs : bs.Perm ((List.range' lo n).map (BitVec.ofNat 5))) :
    ∃ t u, exec i s = .next t ∧ execAll (bs.map .subB) s = .next u ∧
      u = { t with diff := u.diff } ∧ ∀ j, u.diffAt j = t.diffAt j := by
  have hnumbers := toNat_perm_range' hn hbs
  have hne : bs ≠ [] := by
    rintro rfl
    simpa [hpos.ne] using hbs.length_eq
  have hlegal : ∀ b ∈ bs, b.toNat ≤ 23 := fun b hb => by
    have := List.mem_range'_1.mp (hnumbers.mem_iff.mp (List.mem_map_of_mem hb))
    omega
  have hmem : ∀ j, j ∈ (bs.flatMap fun b => blockIndices b.toNat) ↔ j ∈ js := fun j => by
    rw [htile, ← List.flatMap_map, List.mem_flatMap]
    simp only [hnumbers.mem_iff]
  refine ⟨_, _, hexec, execAll_subB hne hlegal s, ?_, residuals_diffAt_congr s hmem⟩
  rw [residuals_eq, residuals_eq]
  rfl

theorem exec_subMb_eq (s : State) : exec .subMb s = execAll [.subMby, .subMbuv] s := by
  calc exec .subMb s
    _ = .next (s.residuals (List.range 256 ++ List.range' 256 128)).complete := by
      rw [List.range_eq_range', List.range'_append_1, ← List.range_eq_range']
      rfl
    _ = .next ((s.residuals (List.range 256)).complete.residuals (List.range' 256 128)).complete := by
      rw [residuals_append, complete_residuals, complete_complete]
    _ = execAll [.subMby, .subMbuv] s := rfl

/-- Settles O41: a plane's blocks tile it, so in any order they write what the plane command writes; the two planes'
ranges one after the other are the whole range. -/
theorem planeResidualEqualsItsBlocks : Obligations.PlaneResidualEqualsItsBlocks := by
  intro s ys uvs hys huvs
  rw [List.range_eq_range'] at hys
  refine ⟨exec_eq_execAll_subB (js := List.range 256) rfl (by decide) (by decide) (fun j => ?_) hys,
    exec_eq_execAll_subB (js := List.range' 256 128) rfl (by decide) (by decide) (fun j => ?_) huvs, exec_subMb_eq s⟩
  · simpa using luma_iff_mem_block j
  · simpa [and_assoc] using chroma_iff_mem_block j

end Sys2Proof.Machine
end

section
/-! What the transform commands leave (41_transform): a block that replaces its coefficients by a transform of its
residuals (R150..R156, R158), the DC block (R157), and the macroblock commands as runs of the block commands
(R154, R159..R161). -/

namespace Sys2Proof.Machine

/-! ### A transform stored in its block -/

/-- The coefficients of block `b` replaced by what a computation answers, with STATUS.WRAP. -/
def State.storeCalc (s : State) (b : Nat) (m : Arith Block) : State := s.storeCoeff b (s.calc m)

theorem fdctBlock_eq (s : State) (b : Nat) : s.fdctBlock b = s.storeCalc b (fdct (s.residualBlock b)) := rfl

theorem walsh_eq (s : State) : s.walsh = s.storeCalc 24 (wht (s.residualBlock 24)) := rfl

theorem coeffFrame_complete {s u : State} (h : s.CoeffFrame u) :
    u.complete = { s with
      coeff := u.complete.coeff, latch := none
      status := { s.status with done := true, wrap := u.complete.status.wrap } } := by
  rw [h]
  rfl

/-- A command that completes with a computation stored in block `b`, given what the computation answers and when it
wraps. -/
theorem exec_writes_block {s : State} {i : Instr} {b : Nat} {m : Arith Block} {f : Nat → Nat → Int} {P : Prop}
    (hexec : exec i s = .next (s.storeCalc b m).complete) (hs16 : ∀ r c, S16 (f r c))
    (hm : (s.calc m).1 = Block.ofFn f ∧ ((s.calc m).2 = true ↔ s.status.wrap = true ∨ P)) :
    ∃ t, exec i s = .next t ∧
      t = { s with
        coeff := t.coeff, latch := none, status := { s.status with done := true, wrap := t.status.wrap } } ∧
      (∀ r c, r < 4 → c < 4 → (t.coeffAt (b * 16 + (4 * r + c))).toInt = f r c) ∧
      (t.status.wrap = true ↔ s.status.wrap = true ∨ P) ∧
      ∀ j, j / 16 ≠ b → t.coeffAt j = s.coeffAt j := by
  refine ⟨_, hexec, coeffFrame_complete (storeCoeff_coeffFrame s b _), fun r c hr hc => ?_, ?_, fun j hj => ?_⟩
  · rw [State.complete_coeffAt, State.storeCalc, storeCoeff_mem s b _ (by omega), hm.1,
      block_toList_getD f r c hr hc, toInt_ofInt_s16 _ (hs16 r c)]
  · rw [State.complete_status, State.storeCalc, storeCoeff_frame]
    exact hm.2
  · rw [State.complete_coeffAt]
    exact storeCoeff_other s b _ hj

theorem exec_fdct4x4 {blk : BitVec 5} (hblk : blk.toNat ≤ 23) (s : State) :
    exec (.fdct4x4 blk) s = .next (s.fdctBlock blk.toNat).complete :=
  exec_completes s (decide_eq_true hblk) rfl rfl

/-- Settles O42: FDCT4X4 stores `fdct_run` of its residuals, whose second pass stays within s16. -/
theorem fdct4x4WritesTheTransform : Obligations.Fdct4x4WritesTheTransform := by
  intro s blk hblk
  refine exec_writes_block (exec_fdct4x4 hblk s) (fun r c => ?_)
    (fdct_run (s.residualAt blk.toNat) (fun _ _ _ _ => s16_toInt _) s.status.wrap)
  have hstored := fun r => fdctRowStored_s16 (s.residualAt blk.toNat r 0) (s.residualAt blk.toNat r 1)
    (s.residualAt blk.toNat r 2) (s.residualAt blk.toNat r 3) c
  exact fdctColumnExact_s16 _ _ _ _ (hstored 0) (hstored 1) (hstored 2) (hstored 3) r

theorem blockIndex_walsh (r c : Nat) : blockIndex 24 r c = 384 + (4 * r + c) := by
  simp only [blockIndex, blockOrigin, blockStride, Nat.reduceLT, if_false]
  omega

/-- Settles O46: WALSH4X4 stores `wht_run` of block 24, whose second pass stays within s16. -/
theorem walshWritesTheTransform : Obligations.WalshWritesTheTransform := by
  intro s
  refine exec_writes_block (b := 24) (m := wht (s.residualBlock 24)) rfl (fun r c => ?_) ?_
  · exact whtColumnExact_s16 _ _ _ _ (narrow16_bounds _) (narrow16_bounds _) (narrow16_bounds _) (narrow16_bounds _) r
  · rw [State.residualBlock]
    simp only [blockIndex_walsh]
    exact wht_run _ (fun _ _ _ _ => s16_toInt _) s.status.wrap

/-! ### The forward transform of residuals in −255..255 -/

/-- The exact first-pass values of a row of residuals fit 16 bits, and no narrowing on the way changes them. -/
theorem fdctRow_of_residuals {a b c d : Int} (ha : -255 ≤ a ∧ a ≤ 255) (hb : -255 ≤ b ∧ b ≤ 255)
    (hc : -255 ≤ c ∧ c ≤ 255) (hd : -255 ≤ d ∧ d ≤ 255) (k : Nat) :
    Fits 16 (fdctRowExact a b c d k) ∧ fdctRowStored a b c d k = fdctRowExact a b c d k := by
  have hsum : ∀ v, S16 v → Fits 16 v ∧ narrow 16 v = v := fun v h =>
    ⟨(fits16_iff v).mpr h, (narrow16_eq_iff v).mpr h⟩
  have hrounded : ∀ v, -100000000 ≤ v ∧ v ≤ 100000000 →
      Fits 16 (asr v 12) ∧ narrow 16 (asr (narrow 32 v) 12) = asr v 12 := fun v h => by
    rw [(narrow32_eq_iff v).mpr (by omega)]
    exact hsum _ ((asr_bounds v 12 _ _).mpr (by omega))
  match k with
  | 0 =>
    rw [fdctRowExact_zero]
    exact hsum _ (by omega)
  | 1 => exact hrounded _ (by omega)
  | 2 =>
    rw [fdctRowExact_two]
    exact hsum _ (by omega)
  | _ + 3 => exact hrounded _ (by omega)

theorem fdctRowExact_constant (v : Int) {k : Nat} (hk : k < 4) :
    fdctRowExact v v v v k = ([32 * v, 3, 0, 1] : List Int).getD k 0 := by
  interval_cases k <;> simp [fdctRowExact, asr]
  omega

theorem fdctColumnExact_constant (t : Int) (k : Nat) :
    fdctColumnExact t t t t k = if k = 0 then asr (4 * t + 7) 4 else 0 := by
  match k with
  | 0 => exact congrArg (asr · 4) (by omega)
  | 1 | 2 | _ + 3 => simp [fdctColumnExact, asr]

/-- A constant block (41_transform R153). -/
theorem fdct_constant {f : Nat → Nat → Int} {v : Int} (hf : ∀ r c, r < 4 → c < 4 → f r c = v) {r c : Nat}
    (hr : r < 4) (hc : c < 4) : columnsOf fdctColumnExact (rowsOf fdctRowExact f) r c =
      if 4 * r + c = 0 then 8 * v else if 4 * r + c = 1 then 1 else 0 := by
  have hrow : ∀ r, r < 4 → rowsOf fdctRowExact f r c = ([32 * v, 3, 0, 1] : List Int).getD c 0 := fun r hr => by
    rw [rowsOf, hf r 0 hr (by omega), hf r 1 hr (by omega), hf r 2 hr (by omega), hf r 3 hr (by omega),
      fdctRowExact_constant v hc]
  rw [columnsOf, hrow 0 (by omega), hrow 1 (by omega), hrow 2 (by omega), hrow 3 (by omega), fdctColumnExact_constant]
  by_cases h0 : r = 0
  · subst h0
    interval_cases c <;> simp [asr]
    omega
  · rw [if_neg h0, if_neg (by omega), if_neg (by omega)]

/-- Settles O43: O42's transform, where no first-pass value of a residual in range wraps. -/
theorem fdctOfResidualsNeverWraps : Obligations.FdctOfResidualsNeverWraps := by
  intro s blk hblk hrange
  obtain ⟨t, hexec, -, hvalue, hwrap, -⟩ := fdct4x4WritesTheTransform s blk hblk
  have hrow : ∀ r, r < 4 → ∀ c, Fits 16 (rowsOf fdctRowExact (s.residualAt blk.toNat) r c) ∧
      rowsOf fdctRowStored (s.residualAt blk.toNat) r c = rowsOf fdctRowExact (s.residualAt blk.toNat) r c :=
    fun r hr c => fdctRow_of_residuals (hrange r 0 hr (by omega)) (hrange r 1 hr (by omega))
      (hrange r 2 hr (by omega)) (hrange r 3 hr (by omega)) c
  have hexact : ∀ r c, r < 4 → c < 4 → (t.coeffAt (blk.toNat * 16 + (4 * r + c))).toInt =
      columnsOf fdctColumnExact (rowsOf fdctRowExact (s.residualAt blk.toNat)) r c := fun r c hr hc => by
    rw [hvalue r c hr hc, columnsOf, (hrow 0 (by omega) c).2, (hrow 1 (by omega) c).2, (hrow 2 (by omega) c).2,
      (hrow 3 (by omega) c).2, columnsOf]
  refine ⟨t, hexec, Bool.eq_iff_iff.mpr (hwrap.trans (or_iff_left ?_)), hexact, fun v hv k hk => ?_⟩
  · rintro ⟨r, c, hr, -, hfits⟩
    exact hfits (hrow r hr c).1
  · have h := hexact (k / 4) (k % 4) (by omega) (by omega)
    rwa [fdct_constant hv (by omega) (by omega), Nat.div_add_mod] at h

/-! ### BUILD_DC -/

/-- Settles O45: `buildDc_diffAt_mem` and `buildDc_diffAt_other`, with DIFF as the only array written. -/
theorem buildDcCollectsTheLumaDcs : Obligations.BuildDcCollectsTheLumaDcs := by
  refine fun s => ⟨_, rfl, ?_, fun i hi => ?_, fun j hj => ?_⟩
  · have hframe := buildDc_frame s
    generalize s.buildDc = u at hframe
    rw [hframe]
    rfl
  · rw [State.complete_diffAt, buildDc_diffAt_mem s hi, Nat.mul_comm]
  · rw [State.complete_diffAt, buildDc_diffAt_other s hj]

/-! ### Commands in a row -/

theorem complete_residualBlock (s : State) (b : Nat) : s.complete.residualBlock b = s.residualBlock b := rfl

theorem complete_storeCalc (s : State) (b : Nat) (m : Arith Block) :
    s.complete.storeCalc b m = (s.storeCalc b m).complete := by
  simp only [State.storeCalc, State.calc, State.storeCoeff, State.withWrap, State.complete]

theorem complete_fdctBlock (s : State) (b : Nat) : s.complete.fdctBlock b = (s.fdctBlock b).complete := by
  rw [fdctBlock_eq, fdctBlock_eq, complete_residualBlock, complete_storeCalc]

theorem complete_fdctPair (s : State) (b : Nat) : s.complete.fdctPair b = (s.fdctPair b).complete := by
  rw [State.fdctPair, State.fdctPair, complete_fdctBlock, complete_fdctBlock]

theorem complete_fdctPairs (s : State) (bs : List Nat) : s.complete.fdctPairs bs = (s.fdctPairs bs).complete := by
  induction bs generalizing s with
  | nil => rfl
  | cons b bs ih => rw [fdctPairs_cons, fdctPairs_cons, complete_fdctPair, ih]

theorem complete_buildDc (s : State) : s.complete.buildDc = s.buildDc.complete := by
  have hdcs : s.complete.lumaDcs = s.lumaDcs := rfl
  rw [State.buildDc, hdcs]
  simp only [State.buildDc, State.complete]

theorem complete_walsh (s : State) : s.complete.walsh = s.walsh.complete := by
  rw [walsh_eq, walsh_eq, complete_residualBlock, complete_storeCalc]

theorem execAll_nil (s : State) : execAll [] s = .next s := rfl

/-- Settles O44: the body of FDCT8X4 is the two bodies of FDCT4X4. -/
theorem fdct8x4EqualsTwoFdct4x4 : Obligations.Fdct8x4EqualsTwoFdct4x4 := by
  intro s blk hblk heven
  have hnext : (blk + 1).toNat = blk.toNat + 1 := by bv_omega
  have hlegal : blkOfPair blk = true := by
    simp only [blkOfPair, Bool.and_eq_true, decide_eq_true_eq]
    omega
  refine ⟨_, exec_completes s hlegal rfl rfl, ?_⟩
  rw [execAll_cons (exec_fdct4x4 (by omega) s), execAll_cons (exec_fdct4x4 (by omega) _), hnext, complete_fdctBlock,
    complete_complete, execAll_nil, State.bodyOf, State.fdctPair]

/-- A run of FDCT8X4 stores the pairs of its blocks. -/
theorem execAll_fdct8x4 (b : BitVec 5) (bs : List (BitVec 5)) (hlegal : ∀ c ∈ b :: bs, blkOfPair c = true)
    (is : List Instr) (s : State) :
    execAll ((b :: bs).map .fdct8x4 ++ is) s = execAll is (s.fdctPairs ((b :: bs).map BitVec.toNat)).complete := by
  have hfirst : exec (.fdct8x4 b) s = .next (s.fdctPair b.toNat).complete :=
    exec_completes s (hlegal b List.mem_cons_self) rfl rfl
  rw [List.map_cons, List.cons_append, execAll_cons hfirst, List.map_cons, fdctPairs_cons]
  cases bs with
  | nil => rfl
  | cons c cs =>
    rw [execAll_fdct8x4 c cs (fun d hd => hlegal d (List.mem_cons_of_mem b hd)), complete_fdctPairs,
      complete_complete]

/-! ### The macroblock transforms (41_transform R159..R161) -/

theorem execAll_lumaPairs (is : List Instr) (s : State) :
    execAll ([.fdct8x4 0, .fdct8x4 2, .fdct8x4 4, .fdct8x4 6, .fdct8x4 8, .fdct8x4 10, .fdct8x4 12, .fdct8x4 14] ++ is)
      s = execAll is (s.fdctPairs lumaPairs).complete :=
  execAll_fdct8x4 0 [2, 4, 6, 8, 10, 12, 14] (by decide) is s

theorem execAll_chromaPairs (is : List Instr) (s : State) :
    execAll ([.fdct8x4 16, .fdct8x4 18, .fdct8x4 20, .fdct8x4 22] ++ is) s =
      execAll is (s.fdctPairs chromaPairs).complete :=
  execAll_fdct8x4 16 [18, 20, 22] (by decide) is s

theorem exec_xformMby {s : State} (hmode : s.mbcfg.mode ≠ 3) :
    exec .xformMby s = .next (s.bodyOf .xformMby).complete := congrArg _ (checkMode_legal s _ hmode)

theorem exec_xformMb {s : State} (hmode : s.mbcfg.mode ≠ 3) :
    exec .xformMb s = .next (s.bodyOf .xformMb).complete := by
  refine congrArg _ ((checkMode_legal s _ hmode).trans ?_)
  cases hy : s.hasY2 <;> simp only [State.bodyOf, hy, if_true, Bool.false_eq_true, if_false]

theorem exec_xformMbuv (s : State) : exec .xformMbuv s = .next (s.fdctPairs chromaPairs).complete :=
  exec_completes s rfl rfl rfl

/-- Settles O47: each list of steps runs to the completed body of its command, as completing twice is completing once. -/
theorem macroblockTransformsAreTheirSteps : Obligations.MacroblockTransformsAreTheirSteps := by
  intro s
  refine ⟨fun hmode => ⟨_, exec_xformMby hmode, ?_⟩,
    ⟨_, exec_xformMbuv s, (execAll_chromaPairs [] s).trans (execAll_nil _)⟩, fun hmode => ⟨_, exec_xformMb hmode, ?_⟩⟩
  · rw [execAll_lumaPairs, State.bodyOf]
    by_cases hy : s.mbcfg.mode = 0
    · rw [if_pos hy, if_pos ((hasY2_iff s).mpr hy), execAll_cons rfl, execAll_cons rfl, complete_buildDc,
        complete_complete, complete_walsh, complete_complete, execAll_nil]
    · rw [if_neg hy, if_neg (mt (hasY2_iff s).mp hy), execAll_nil]
  · rw [List.append_assoc, List.append_assoc, execAll_lumaPairs, State.bodyOf]
    by_cases hy : s.mbcfg.mode = 0
    · rw [if_pos hy, if_pos hy, if_pos ((hasY2_iff s).mpr hy), List.singleton_append, execAll_cons rfl,
        complete_buildDc, complete_complete, execAll_chromaPairs, complete_fdctPairs, complete_complete,
        execAll_cons rfl, complete_walsh, complete_complete, execAll_nil]
    · rw [if_neg hy, if_neg hy, if_neg (mt (hasY2_iff s).mp hy), List.nil_append, execAll_chromaPairs,
        complete_fdctPairs, complete_complete, execAll_nil]

/-! ### The order of the chroma transforms and WALSH4X4 -/

/-- The same elements, registers and flags: COEFF may list its elements in another way. -/
def State.CoeffAgrees (s t : State) : Prop := t = { s with coeff := t.coeff } ∧ ∀ j, t.coeffAt j = s.coeffAt j

theorem coeffAgrees_refl (s : State) : s.CoeffAgrees s := ⟨rfl, fun _ => rfl⟩

theorem coeffAgrees_trans {s t u : State} (hst : s.CoeffAgrees t) (htu : t.CoeffAgrees u) : s.CoeffAgrees u :=
  ⟨by rw [htu.1, hst.1], fun j => (htu.2 j).trans (hst.2 j)⟩

theorem coeffAgrees_frame {s t : State} (h : s.CoeffAgrees t) : s.CoeffFrame t := by
  unfold State.CoeffFrame
  rw [h.1]

theorem coeffAgrees_complete {s t : State} (h : s.CoeffAgrees t) : s.complete.CoeffAgrees t.complete := by
  refine ⟨?_, h.2⟩
  rw [h.1]
  rfl

theorem coeffAgrees_elements {s t : State} (h : s.CoeffAgrees t) :
    t = { s with coeff := t.coeff, diff := t.diff } ∧ ∀ j, t.coeffAt j = s.coeffAt j ∧ t.diffAt j = s.diffAt j := by
  refine ⟨?_, fun j => ⟨h.2 j, ?_⟩⟩
  · rw [h.1]
  · rw [h.1]
    rfl

/-- What two ways of writing COEFF and WRAP leave agrees if WRAP and every coefficient do. -/
theorem coeffAgrees_of_frames {s t u : State} (ht : s.CoeffFrame t) (hu : s.CoeffFrame u)
    (hwrap : u.status.wrap = t.status.wrap) (hcoeff : ∀ j, u.coeffAt j = t.coeffAt j) : t.CoeffAgrees u := by
  refine ⟨?_, hcoeff⟩
  calc u
    _ = { s with coeff := u.coeff, status := { s.status with wrap := t.status.wrap } } := hwrap ▸ hu
    _ = { t with coeff := u.coeff } := by rw [ht]

/-- The transforms read DIFF, which they do not write. -/
theorem coeffFrame_residualBlock {s t : State} (h : s.CoeffFrame t) (b : Nat) :
    t.residualBlock b = s.residualBlock b := by
  rw [h]
  rfl

/-- A coefficient after a store: the stored block's, or as before. -/
theorem storeCoeff_coeffAt (s : State) (b : Nat) (out : Block × Bool) (j : Nat) :
    (s.storeCoeff b out).coeffAt j =
      if j / 16 = b then BitVec.ofInt 16 (out.1.toList.getD (j % 16) 0) else s.coeffAt j := by
  split
  · next h => rw [← storeCoeff_mem s b out (Nat.mod_lt j (by decide)), ← h, Nat.div_add_mod']
  · next h => exact storeCoeff_other s b out h

theorem storeCoeff_agrees {s t : State} (h : s.CoeffAgrees t) (b : Nat) (out : Block × Bool) :
    (s.storeCoeff b out).CoeffAgrees (t.storeCoeff b out) := by
  refine coeffAgrees_of_frames (storeCoeff_coeffFrame s b out)
    (coeffFrame_trans (coeffAgrees_frame h) (storeCoeff_coeffFrame t b out)) ?_ fun j => ?_
  · rw [storeCoeff_frame t, storeCoeff_frame s]
  · rw [storeCoeff_coeffAt, storeCoeff_coeffAt, h.2]

theorem fdctBlock_agrees {s t : State} (h : s.CoeffAgrees t) (b : Nat) :
    (s.fdctBlock b).CoeffAgrees (t.fdctBlock b) := by
  have hwrap : t.status.wrap = s.status.wrap := by rw [h.1]
  rw [State.fdctBlock, State.fdctBlock, State.calc, State.calc, coeffFrame_residualBlock (coeffAgrees_frame h), hwrap]
  exact storeCoeff_agrees h b _

theorem fdctPairs_agrees {s t : State} (h : s.CoeffAgrees t) (bs : List Nat) :
    (s.fdctPairs bs).CoeffAgrees (t.fdctPairs bs) := by
  induction bs generalizing s t with
  | nil => exact h
  | cons b bs ih =>
    rw [fdctPairs_cons, fdctPairs_cons]
    exact ih (fdctBlock_agrees (fdctBlock_agrees h b) (b + 1))

theorem storeCalc_coeffFrame (s : State) (b : Nat) (m : Arith Block) : s.CoeffFrame (s.storeCalc b m) :=
  storeCoeff_coeffFrame s b _

theorem storeCalc_wrap (s : State) (b : Nat) {m : Arith Block} (hm : Sticky m) :
    (s.storeCalc b m).status.wrap = (s.status.wrap || (m.run false).2) := by
  rw [State.storeCalc, storeCoeff_frame]
  exact (hm _).2

theorem storeCalc_coeffAt (s : State) (b : Nat) {m : Arith Block} (hm : Sticky m) (j : Nat) :
    (s.storeCalc b m).coeffAt j =
      if j / 16 = b then BitVec.ofInt 16 ((m.run false).1.toList.getD (j % 16) 0) else s.coeffAt j := by
  rw [State.storeCalc, storeCoeff_coeffAt, State.calc, (hm _).1]

/-- Two computations stored in different blocks, in either order: what one answers does not depend on the flag the
other leaves. -/
theorem storeCalc_comm (s : State) {b c : Nat} (hbc : b ≠ c) {m n : Arith Block} (hm : Sticky m) (hn : Sticky n) :
    ((s.storeCalc b m).storeCalc c n).CoeffAgrees ((s.storeCalc c n).storeCalc b m) := by
  refine coeffAgrees_of_frames (coeffFrame_trans (storeCalc_coeffFrame s b m) (storeCalc_coeffFrame _ c n))
    (coeffFrame_trans (storeCalc_coeffFrame s c n) (storeCalc_coeffFrame _ b m)) ?_ fun j => ?_
  · rw [storeCalc_wrap _ b hm, storeCalc_wrap s c hn, storeCalc_wrap _ c hn, storeCalc_wrap s b hm, Bool.or_right_comm]
  · rw [storeCalc_coeffAt _ b hm, storeCalc_coeffAt s c hn, storeCalc_coeffAt _ c hn, storeCalc_coeffAt s b hm]
    split
    · next hj => rw [if_neg (hj ▸ hbc)]
    · rfl

theorem fdctBlock_walsh_comm (s : State) {b : Nat} (hb : b ≠ 24) :
    (s.fdctBlock b).walsh.CoeffAgrees (s.walsh.fdctBlock b) := by
  rw [walsh_eq, coeffFrame_residualBlock (fdctBlock_frame s b), fdctBlock_eq s.walsh,
    coeffFrame_residualBlock (walsh_frame s)]
  exact storeCalc_comm s hb (sticky_fdct _) (sticky_wht _)

theorem fdctPairs_walsh_comm (s : State) {bs : List Nat} (hbs : ∀ b ∈ bs, b < 23) :
    (s.fdctPairs bs).walsh.CoeffAgrees (s.walsh.fdctPairs bs) := by
  induction bs generalizing s with
  | nil => exact coeffAgrees_refl _
  | cons b bs ih =>
    have hb := hbs b List.mem_cons_self
    have hpair : (s.fdctPair b).walsh.CoeffAgrees (s.walsh.fdctPair b) :=
      coeffAgrees_trans (fdctBlock_walsh_comm (s.fdctBlock b) (by omega))
        (fdctBlock_agrees (fdctBlock_walsh_comm s (by omega)) (b + 1))
    rw [fdctPairs_cons, fdctPairs_cons]
    exact coeffAgrees_trans (ih (s.fdctPair b) fun c hc => hbs c (List.mem_cons_of_mem b hc))
      (fdctPairs_agrees hpair bs)

/-- Settles O48: the chroma transforms and WALSH4X4 store different blocks from residuals neither writes. -/
theorem xformMbEqualsLumaThenChroma : Obligations.XformMbEqualsLumaThenChroma := by
  intro s hmode
  have hthen : execAll [.xformMby, .xformMbuv] s = .next ((s.bodyOf .xformMby).fdctPairs chromaPairs).complete := by
    rw [execAll_cons (exec_xformMby hmode), execAll_cons (exec_xformMbuv _), complete_fdctPairs, complete_complete,
      execAll_nil]
  have hagrees : (s.bodyOf .xformMb).CoeffAgrees ((s.bodyOf .xformMby).fdctPairs chromaPairs) := by
    rw [State.bodyOf, State.bodyOf]
    split
    · exact fdctPairs_walsh_comm _ (by decide)
    · exact coeffAgrees_refl _
  exact ⟨_, _, exec_xformMb hmode, hthen, coeffAgrees_elements (coeffAgrees_complete hagrees)⟩

end Sys2Proof.Machine
end

section
/-! What the dequantizer and an optimization leave in DQCOEFF (42_quant_dequant): DQ_B (R183, R185), and the
dequantization invariant across OPT_B (R184). -/

namespace Sys2Proof.Machine

/-! ### DQ_B -/

/-- A dequantized value of the block is its product, truncated (42_quant_dequant R183, R185). -/
theorem dequantBlock_dqScan (s : State) (b : Nat) (t : BitVec 2) {i : Nat} (hi : i < 16) :
    (s.dequantBlock b t).dqScan b i = narrow 16 (s.levelScan b i * s.deqAt t i) := by
  have hkeys := scan_keys_nodup b (List.nodup_range (n := 16)) fun _ => List.mem_range.mp
  unfold State.dqScan State.dqcoeffAt
  rw [State.elem_congr s (s.dequantBlock b t) _ _ _ (by rw [dequantBlock_frame]), dequantBlock_dqcoeff, calc_eq,
    collect_dequantized, State.elem_putAll_mem s s.dqcoeff _ _ (by simpa [Function.comp_def] using hkeys)
      (List.mem_map.mpr ⟨i, List.mem_range.mpr hi, rfl⟩), toInt_ofInt_s16 _ (narrow16_bounds _)]

/-- DQ_B sets WRAP exactly when a product does not fit 16 bits (00_scope R9). -/
theorem dequantBlock_wrap (s : State) (b : Nat) (t : BitVec 2) : (s.dequantBlock b t).status.wrap = true ↔
    s.status.wrap = true ∨ ∃ i, i < 16 ∧ ¬Fits 16 (s.levelScan b i * s.deqAt t i) := by
  have hflag : (s.dequantBlock b t).status.wrap =
      (s.calc (collect (s.dequantized b t) (List.range 16))).2 := rfl
  rw [hflag, calc_eq, collect_dequantized]
  simp only [Bool.or_eq_true, List.any_eq_true, List.mem_range, decide_eq_true_eq, ne_eq, narrow_eq_iff_fits 15]

theorem exec_dqB {blk : BitVec 5} (hblk : blk.toNat ≤ 24) (pt : BitVec 2) (s : State) :
    exec (.dqB blk pt) s = .next (s.dequantBlock blk.toNat pt).complete :=
  exec_completes s (decide_eq_true hblk) rfl rfl

/-- Settles O49: `dequantBlock_dqScan` and `dequantBlock_wrap`, with DQCOEFF as the only array written. -/
theorem dequantizeWritesTheProducts : Obligations.DequantizeWritesTheProducts := by
  refine fun s blk pt hblk => ⟨_, exec_dqB hblk pt s, ?_, fun i hi => ?_, ?_, fun j hj => ?_⟩
  · have hframe := dequantBlock_frame s blk.toNat pt
    generalize s.dequantBlock blk.toNat pt = u at hframe
    rw [hframe]
    rfl
  · rw [State.complete_dqScan, dequantBlock_dqScan s _ pt hi]
  · rw [State.complete_status]
    exact dequantBlock_wrap s _ pt
  · rw [State.complete_dqcoeffAt, dequantBlock_dqcoeffAt_other s _ pt hj]

/-! ### OPT_B -/

/-- OPT_B of a ready block with an open gate optimizes it and completes (43_trellis R218). -/
theorem exec_optB {s : State} {blk : BitVec 5} {pt : BitVec 2} {g : Bool} (hblk : blk.toNat ≤ 24)
    (hgate : s.GateAllows g) (hready : s.BlockReady blk.toNat pt) :
    exec (.optB blk pt g) s = .next (s.optimize blk.toNat pt).complete := by
  have hpasses : s.firstFailure [(blk.toNat, pt)] = none :=
    (firstFailure_none_iff s _).mpr (List.forall_mem_singleton.mpr ((checkBlock_none_iff s _ _).mpr hready))
  show execOptB blk pt g s = _
  rw [execOptB, checkBlk_legal s _ _ _ (decide_eq_true hblk), checkGate_allowed s _ _ hgate, State.checkBlocks, hpasses]

theorem optimize_deqAt (s : State) (b : Nat) (t u : BitVec 2) (i : Nat) :
    (s.optimize b t).deqAt u i = s.deqAt u i := by
  rw [optimize_frame]
  rfl

/-- The range the final EOB leaves lies in the range that was optimized (43_trellis R215, R216). -/
theorem lt_eobAt_of_optimize {s : State} {b : Nat} {t : BitVec 2} (he : (s.eobAt b).toNat ≤ 16) {i : Nat}
    (hlo : firstPos t ≤ i) (hi : i < ((s.optimize b t).eobAt b).toNat) : i < (s.eobAt b).toNat := by
  rw [optimize_eobAt s b t he] at hi
  have hle := finalEob_le s b t s.ctrl.eobClamp
  omega

/-- An optimization keeps the dequantization invariant (42_quant_dequant R184): a nonzero level of the range is on the
path, which stores its new product, and a zero level stays with its dequantized value. -/
theorem optimize_dequantized {s : State} {b : Nat} {t : BitVec 2} (he : (s.eobAt b).toNat ≤ 16)
    (h : s.Dequantized b t) : (s.optimize b t).Dequantized b t := by
  intro i hlo hi
  have hlt := lt_eobAt_of_optimize he hlo hi
  rw [optimize_deqAt]
  by_cases hzero : s.levelScan b i = 0
  · obtain ⟨hlevel, hdq⟩ := optimize_scan_other s b t he (by omega) (.inr (.inr hzero))
    rw [hlevel, hdq]
    exact h i hlo hlt
  · obtain ⟨x, hpath⟩ := path_covers s b t hlo hlt hzero
    obtain ⟨hlevel, hdq⟩ := optimize_scan_mem s b t he hpath
    rw [hlevel, hdq]

theorem complete_dequantized (s : State) (b : Nat) (t : BitVec 2) : s.complete.Dequantized b t ↔ s.Dequantized b t :=
  Iff.rfl

/-- Settles O53: `optimize_dequantized`, as the invariant speaks of neither the latch nor DONE. -/
theorem optimizationKeepsTheDequantizationInvariant : Obligations.OptimizationKeepsTheDequantizationInvariant := by
  intro s blk pt g hblk hgate hready h
  have hkept : (s.optimize blk.toNat pt).Dequantized blk.toNat pt :=
    optimize_dequantized hready.1 fun i _ hi => h i hi
  exact ⟨_, exec_optB hblk hgate hready, (complete_dequantized _ _ _).mpr hkept⟩

end Sys2Proof.Machine
end

section
/-! OPT_B of one block (43_trellis R215..R221): the check that comes before it, what it leaves unchanged, which levels
it writes, and the EOB and the two context flags it ends with. -/

namespace Sys2Proof.Machine

/-! ### CHECK_BLOCK (43_trellis R219) -/

/-- The positions a sweep visits before position `i`, from the top, and those it visits after it. -/
theorem sweepPositions_split {t : BitVec 2} {e i : Nat} (hlo : firstPos t ≤ i) (hi : i < e) :
    sweepPositions t e =
      (List.range' (i + 1) (e - (i + 1))).reverse ++ i :: (List.range' (firstPos t) (i - firstPos t)).reverse := by
  obtain ⟨d, rfl⟩ := Nat.exists_eq_add_of_le hlo
  have hrange : List.range' (firstPos t) (e - firstPos t) =
      List.range' (firstPos t) d ++ (firstPos t + d) :: List.range' (firstPos t + d + 1) (e - (firstPos t + d + 1)) := by
    rw [← List.range'_succ, List.range'_append_1]
    congr 1
    omega
  rw [sweepPositions, hrange, List.reverse_append, List.reverse_cons, List.append_assoc, List.singleton_append,
    Nat.add_sub_cancel_left]

/-- A block that fails `CHECK_BLOCK` fails it with the code and the position the rule gives. -/
theorem checkBlock_of_blockFails {s : State} {b : Nat} {t : BitVec 2} {c : ErrorCode} {pos : Nat}
    (h : s.BlockFails b t c pos) :
    s.checkBlock b t = some { code := c, blk := BitVec.ofNat 5 b, pos := BitVec.ofNat 5 pos } := by
  obtain ⟨he, rfl, rfl⟩ | ⟨he, rfl, hlo, hpos, hbad, habove⟩ := h
  · rw [State.checkBlock, if_pos he]
    rfl
  · have hfirst : (sweepPositions t (s.eobAt b).toNat).find? (s.badLevelAt b) = some pos := by
      rw [List.find?_eq_some_iff_append]
      refine ⟨(badLevelAt_iff s b pos).mpr hbad, _, _, sweepPositions_split hlo hpos, fun k hk => ?_⟩
      rw [List.mem_reverse, List.mem_range'_1] at hk
      have hgood := habove k (by omega) (by omega)
      rw [Bool.not_eq_true', ← Bool.not_eq_true, badLevelAt_iff]
      omega
    rw [State.checkBlock, if_neg (by omega), hfirst]

/-- OPT_B of a block that fails `CHECK_BLOCK` ends in that error (43_trellis R218, R219). -/
theorem exec_optB_blockFails {s : State} {blk : BitVec 5} {pt : BitVec 2} {g : Bool} {c : ErrorCode} {pos : Nat}
    (hblk : blk.toNat ≤ 24) (hgate : s.GateAllows g) (h : s.BlockFails blk.toNat pt c pos) :
    exec (.optB blk pt g) s = .next (s.failsWith c blk (BitVec.ofNat 5 pos)) := by
  have hfails : s.firstFailure [(blk.toNat, pt)] =
      some { code := c, blk := blk, pos := BitVec.ofNat 5 pos } := by
    rw [State.firstFailure, checkBlock_of_blockFails h, BitVec.ofNat_toNat, BitVec.setWidth_eq]
  show execOptB blk pt g s = _
  rw [execOptB, checkBlk_legal s _ _ _ (decide_eq_true hblk), checkGate_allowed s _ _ hgate, State.checkBlocks, hfails]
  rfl

/-- Settles O37: both clauses are ways to fail `CHECK_BLOCK`. -/
theorem optBlockCheckEndsInError : Obligations.OptBlockCheckEndsInError := by
  intro s blk pt g hblk hgate
  exact ⟨fun he => exec_optB_blockFails hblk hgate (.inl ⟨he, rfl, rfl⟩), fun i he hlo hi hbad habove =>
    exec_optB_blockFails hblk hgate (.inr ⟨he, rfl, hlo, hi, hbad, habove⟩)⟩

/-! ### The EOB (43_trellis R215, R216) -/

theorem firstPos_le_one (t : BitVec 2) : firstPos t ≤ 1 := by
  unfold firstPos
  split <;> omega

theorem keepsEob_eq_true_iff {clamp : Bool} {t : BitVec 2} {e : Nat} :
    keepsEob clamp t e = true ↔ e < firstPos t ∧ clamp = false := by
  simp [keepsEob]

/-- Where a replay runs, it sets the EOB. -/
theorem optimize_eobAt_of_replay {s : State} {b : Nat} {t : BitVec 2} (he : (s.eobAt b).toNat ≤ 16)
    (h : firstPos t ≤ (s.eobAt b).toNat ∨ s.ctrl.eobClamp = true) :
    ((s.optimize b t).eobAt b).toNat = replayEob (firstPos t) (s.path b t) := by
  rw [optimize_eobAt s b t he, finalEob, if_neg]
  rw [keepsEob_eq_true_iff]
  rintro ⟨hlt, hclamp⟩
  rcases h with h | h
  · omega
  · simp [hclamp] at h

/-- Below the first included position the EOB is not written, unless it is clamped (43_trellis R216). -/
theorem optimize_eob_of_kept {s : State} {b : Nat} {t : BitVec 2} (hlt : (s.eobAt b).toNat < firstPos t)
    (hclamp : s.ctrl.eobClamp = false) : (s.optimize b t).eob = s.eob := by
  rw [optimize_eob, if_pos (keepsEob_eq_true_iff.mpr ⟨hlt, hclamp⟩)]

theorem optimize_eobAt_of_kept {s : State} {b : Nat} {t : BitVec 2} (hlt : (s.eobAt b).toNat < firstPos t)
    (hclamp : s.ctrl.eobClamp = false) : (s.optimize b t).eobAt b = s.eobAt b := by
  have hepoch : (s.optimize b t).epoch = s.epoch := by rw [optimize_frame]
  rw [State.eobAt, optimize_eob_of_kept hlt hclamp, State.elem_congr s _ _ _ _ hepoch, State.eobAt]

theorem optimize_eobAt_le (s : State) (b : Nat) (t : BitVec 2) (he : (s.eobAt b).toNat ≤ 16) :
    ((s.optimize b t).eobAt b).toNat ≤ max (firstPos t) (s.eobAt b).toNat := by
  rw [optimize_eobAt s b t he]
  exact finalEob_le s b t s.ctrl.eobClamp

/-- No position is visited at or below the first included one (43_trellis R213). -/
theorem path_eq_nil {s : State} {b : Nat} {t : BitVec 2} (h : (s.eobAt b).toNat ≤ firstPos t) : s.path b t = [] :=
  List.eq_nil_iff_forall_not_mem.mpr fun jx hjx => by
    obtain ⟨hlo, hi, -⟩ := path_mem s b t hjx
    omega

/-! ### The flags (43_trellis R217) -/

theorem optimize_wctxAbove_getLsbD {s : State} {b : Nat} {t : BitVec 2} (he : (s.eobAt b).toNat ≤ 16) {k : Nat}
    (hk : k < 9) : (s.optimize b t).wctxAbove.getLsbD k =
      if k = aboveIndex b then decide (((s.optimize b t).eobAt b).toNat ≠ firstPos t) else s.wctxAbove.getLsbD k := by
  rw [(optimize_context s b t).1, setFlag_get _ _ _ _ (aboveIndex_lt b) hk, optimize_eobAt s b t he]

theorem optimize_wctxLeft_getLsbD {s : State} {b : Nat} {t : BitVec 2} (hb : b < 25) (he : (s.eobAt b).toNat ≤ 16)
    {k : Nat} (hk : k < 9) : (s.optimize b t).wctxLeft.getLsbD k =
      if k = leftIndex b then decide (((s.optimize b t).eobAt b).toNat ≠ firstPos t) else s.wctxLeft.getLsbD k := by
  rw [(optimize_context s b t).2, setFlag_get _ _ _ _ (leftIndex_lt hb) hk, optimize_eobAt s b t he]

/-- Both flags of the block say whether the EOB it ends with is another than the first included position. -/
theorem optimize_flags {s : State} {b : Nat} {t : BitVec 2} (hb : b < 25) (he : (s.eobAt b).toNat ≤ 16) :
    (s.optimize b t).wctxAbove.getLsbD (aboveIndex b) = decide (((s.optimize b t).eobAt b).toNat ≠ firstPos t) ∧
      (s.optimize b t).wctxLeft.getLsbD (leftIndex b) = decide (((s.optimize b t).eobAt b).toNat ≠ firstPos t) := by
  rw [optimize_wctxAbove_getLsbD he (aboveIndex_lt b), if_pos rfl,
    optimize_wctxLeft_getLsbD hb he (leftIndex_lt hb), if_pos rfl]
  exact ⟨rfl, rfl⟩

/-- Settles O50: OPT_B completes one optimization, whose frame is said field by field and element by element. -/
theorem optBlockFrame : Obligations.OptBlockFrame := by
  refine fun s blk pt g hblk hgate hready => ⟨_, exec_optB hblk hgate hready, ?_, fun j hj => ?_, fun i hi hout => ?_,
    fun b hb => ?_, fun k hk => ?_, fun k hk => ?_⟩
  · have hframe := optimize_frame s blk.toNat pt
    generalize s.optimize blk.toNat pt = u at hframe
    rw [hframe]
    rfl
  · exact optimize_block_other s _ pt hj
  · exact optimize_scan_other s _ pt hready.1 hi hout
  · exact optimize_eobAt_other s _ pt hb
  · exact optimize_wctxAbove_getLsbD hready.1 hk
  · exact optimize_wctxLeft_getLsbD (by omega) hready.1 hk

/-- Settles O52: the final EOB is at most the larger of the initial one and the first included position, which is above
the initial one only for E = 0 with plane type 0. -/
theorem eobNeverGrows : Obligations.EobNeverGrows := by
  intro s blk pt g hblk hgate hready
  have hle := optimize_eobAt_le s blk.toNat pt hready.1
  refine ⟨_, exec_optB hblk hgate hready, fun hclamp => ?_, fun hclamp => ?_⟩ <;> rw [State.complete_eobAt]
  · by_cases hlt : (s.eobAt blk.toNat).toNat < firstPos pt
    · rw [optimize_eobAt_of_kept hlt hclamp]
    · omega
  · split
    · next hempty =>
      obtain ⟨he, rfl⟩ := hempty
      rw [optimize_eobAt_of_replay hready.1 (.inr hclamp), path_eq_nil (by omega)]
      rfl
    · next hother =>
      have hfirst : firstPos pt ≤ (s.eobAt blk.toNat).toNat := by
        unfold firstPos
        split
        · next ht => exact Nat.one_le_iff_ne_zero.mpr fun he => hother ⟨he, ht⟩
        · exact Nat.zero_le _
      omega

/-- A block with E at or below the first included position passes `CHECK_BLOCK`. -/
theorem blockReady_of_le_firstPos {s : State} {b : Nat} {t : BitVec 2} (h : (s.eobAt b).toNat ≤ firstPos t) :
    s.BlockReady b t :=
  ⟨by have := firstPos_le_one t; omega, fun i hlo hi => by omega⟩

/-- Settles O54: the replay's path is empty, and the three cases are those of the EOB. -/
theorem emptyBlockIsATrivialPass : Obligations.EmptyBlockIsATrivialPass := by
  intro s blk pt g hblk hgate hle
  have hready : s.BlockReady blk.toNat pt := blockReady_of_le_firstPos hle
  have hpath : s.path blk.toNat pt = [] := path_eq_nil hle
  obtain ⟨habove, hleft⟩ := optimize_flags (t := pt) (Nat.lt_succ_of_le hblk) hready.1
  have hset : firstPos pt ≤ (s.eobAt blk.toNat).toNat ∨ s.ctrl.eobClamp = true →
      ((s.optimize blk.toNat pt).eobAt blk.toNat).toNat = firstPos pt := fun h => by
    rw [optimize_eobAt_of_replay hready.1 h, hpath]
    rfl
  refine ⟨_, exec_optB hblk hgate hready, ?_, ?_, fun heq => ?_, fun hlt hclamp => ?_, fun hlt hclamp => ?_⟩
  · rw [State.complete_qcoeff, optimize_qcoeff, hpath]
    rfl
  · rw [State.complete_dqcoeff, optimize_dqcoeff, hpath]
    rfl
  · have heob := hset (.inl heq.ge)
    rw [heob] at habove hleft
    rw [State.complete_eobAt, State.complete_wctxAbove, State.complete_wctxLeft]
    exact ⟨BitVec.eq_of_toNat_eq (heob.trans heq.symm), by simpa using habove, by simpa using hleft⟩
  · rw [optimize_eobAt_of_kept hlt hclamp, decide_eq_true hlt.ne] at habove hleft
    rw [State.complete_eob, State.complete_wctxAbove, State.complete_wctxLeft]
    exact ⟨optimize_eob_of_kept hlt hclamp, habove, hleft⟩
  · have heob := hset (.inr hclamp)
    have hone := firstPos_le_one pt
    rw [heob] at habove hleft
    rw [State.complete_eobAt, State.complete_wctxAbove, State.complete_wctxLeft]
    exact ⟨BitVec.eq_of_toNat_eq (by rw [heob]; show _ = 1; omega), by simpa using habove,
      by simpa using hleft⟩

/-! ### The levels (43_trellis R210, R215, R221) -/

theorem path_pairwise (s : State) (b : Nat) (t : BitVec 2) : (s.path b t).Pairwise fun p q => p.1 < q.1 := by
  rw [← List.pairwise_map, (path_ok s b t).1]
  exact List.Pairwise.filter _ List.pairwise_lt_range'

/-- On a rising path every level at or past the replay's EOB is 0. -/
theorem level_eq_zero_of_replayEob_le {i0 : Nat} {path : List (Nat × Int)} (hp : path.Pairwise fun p q => p.1 < q.1)
    {jx : Nat × Int} (hjx : jx ∈ path) (h : replayEob i0 path ≤ jx.1) : jx.2 = 0 := by
  induction path using List.reverseRecOn with
  | nil => simp at hjx
  | append_singleton path last ih =>
    have hstep : replayEob i0 (path ++ [last]) = if last.2 = 0 then replayEob i0 path else last.1 + 1 := by
      simp [replayEob]
    obtain ⟨hpath, -, hlast⟩ := List.pairwise_append.mp hp
    rw [hstep] at h
    rcases List.mem_append.mp hjx with hmem | hmem
    · have hlt := hlast jx hmem last (List.mem_singleton_self _)
      split at h
      · exact ih hpath hmem h
      · omega
    · obtain rfl := List.mem_singleton.mp hmem
      by_contra hne
      rw [if_neg hne] at h
      omega

theorem roundable_iff {x c step : Int} : roundable x c step = true ↔
    (x.natAbs : Int) * step > c.natAbs ∧ (x.natAbs : Int) * step < c.natAbs + step := by
  rw [roundable, Bool.and_eq_true, decide_eq_true_iff, decide_eq_true_iff]

/-- Past the EOB it ends with, an optimization leaves no nonzero level in its range. -/
theorem optimize_levelScan_eq_zero {s : State} {b : Nat} {t : BitVec 2} (he : (s.eobAt b).toNat ≤ 16)
    (hfirst : firstPos t ≤ (s.eobAt b).toNat) {i : Nat} (hlo : ((s.optimize b t).eobAt b).toNat ≤ i)
    (hi : i < (s.eobAt b).toNat) : (s.optimize b t).levelScan b i = 0 := by
  rw [optimize_eobAt_of_replay he (.inl hfirst)] at hlo
  have hlow : firstPos t ≤ i := by
    rcases replayEob_cases (firstPos t) (s.path b t) with h | ⟨jx, hjx, -, h⟩
    · omega
    · obtain ⟨hjlo, -⟩ := path_mem s b t hjx
      omega
  by_cases hzero : s.levelScan b i = 0
  · rw [(optimize_scan_other s b t he (by omega) (.inr (.inr hzero))).1, hzero]
  · obtain ⟨x, hx⟩ := path_covers s b t hlow hi hzero
    rw [(optimize_scan_mem s b t he hx).1]
    exact level_eq_zero_of_replayEob_le (path_pairwise s b t) hx hlo

/-- Settles O51: every nonzero position is on the path, with a level a node may hold there, and the EOB is the
replay's. -/
theorem optBlockMovesLevelsTowardZero : Obligations.OptBlockMovesLevelsTowardZero := by
  intro s blk pt g hblk hgate hready hfirst
  have he := hready.1
  refine ⟨_, exec_optB hblk hgate hready, fun i hlo hi hne => ?_, fun i hlo hi => ?_, ?_⟩
  · obtain ⟨x, hx⟩ := path_covers s _ pt hlo hi hne
    obtain ⟨hlevel, hdq⟩ := optimize_scan_mem s _ pt he hx
    obtain ⟨-, -, -, hnode⟩ := path_mem s _ pt hx
    rw [State.complete_levelScan, State.complete_dqScan, hlevel]
    refine ⟨?_, hdq⟩
    rcases hnode with hkept | ⟨hround, hstep⟩
    · exact .inl hkept
    · obtain ⟨habove, hbelow⟩ := roundable_iff.mp hround
      exact .inr ⟨habove, hbelow, hstep⟩
  · exact optimize_levelScan_eq_zero he hfirst hlo hi
  · rw [State.complete_eobAt, optimize_eobAt_of_replay he (.inl hfirst)]
    rcases replayEob_cases (firstPos pt) (s.path blk.toNat pt) with h | ⟨jx, hjx, hne, h⟩
    · exact .inl h
    · obtain ⟨hlo, hi, -⟩ := path_mem s _ pt hjx
      rw [h, Nat.add_sub_cancel, State.complete_levelScan, (optimize_scan_mem s _ pt he hjx).1]
      exact .inr ⟨by omega, hi, hne⟩

end Sys2Proof.Machine
end

section
/-! The optimizer as the rules write it (43_trellis R206..R215): the chain of stages is the rules' node array, mask bits
and head position, each position of the sweep does the same to both, and the two replays agree. -/

namespace Sys2Proof.Machine

/-! ### Values of the computations

What a computation of the optimizer returns, whatever STATUS.WRAP it starts from. -/

@[simp] theorem wrap32_val (v : Int) (w : Bool) : ((wrap32 v).run w).1 = narrow 32 v := (rfl)

theorem effectiveRdm_val (s : State) (t : BitVec 2) (w : Bool) : ((s.effectiveRdm t).run w).1 = s.rdmValue t := by
  unfold State.effectiveRdm State.rdmValue
  cases s.mbcfg.intra <;> simp only [Arith.run_bind, Arith.run_ite, Arith.run_pure, wrap32_val] <;> rfl

@[simp] theorem rdCost_val (p : RdParams) (r e : Int) (w : Bool) :
    ((rdCost p r e).run w).1 = rdCostValue p.rdm p.rdd r e := (rfl)

@[simp] theorem rdTrunc_val (p : RdParams) (r : Int) (w : Bool) : ((rdTrunc p r).run w).1 = rdTruncValue p.rdm r := (rfl)

/-- The choice of rule R208: by cost if the costs differ, else by remainder. -/
@[simp] theorem pick_val (p : RdParams) (r0 e0 r1 e1 : Int) (w : Bool) :
    ((pick p r0 e0 r1 e1).run w).1 = decide (SecondWins p.rdm p.rdd r0 e0 r1 e1) := by
  simp only [pick, Arith.run_bind, Arith.run_ite, Arith.run_pure, rdCost_val]
  by_cases heq : rdCostValue p.rdm p.rdd r0 e0 = rdCostValue p.rdm p.rdd r1 e1
  · simp [SecondWins, heq]
  · simp [SecondWins, heq]

/-- Settles O55: `pick_val`. -/
theorem pickComparesCostThenRemainder : Obligations.PickComparesCostThenRemainder := fun p r0 e0 r1 e1 w => by
  rw [pick_val, decide_eq_true_iff]

/-! ### The chain as the rules' trellis (43_trellis R206) -/

/-- Node `N[pos][k]` of a stage, but for `next`. -/
def Stage.node (st : Stage) (k : Bool) : Node := if k then st.n1 else st.n0

@[simp] theorem Stage.node_false (st : Stage) : st.node false = st.n0 := rfl
@[simp] theorem Stage.node_true (st : Stage) : st.node true = st.n1 := rfl

/-- Bit `pos` of `M[k]` of a stage. -/
def Stage.bit (st : Stage) (k : Bool) : Bool := if k then st.pick1 else st.pick0

/-- A node with its `next`. -/
def Node.withNext (n : Node) (next : Nat) : RuleNode :=
  { rate := n.rate, err := n.err, next := next, tok := n.tok, qc := n.qc }

@[simp] theorem Node.withNext_rate (n : Node) (next : Nat) : (n.withNext next).rate = n.rate := rfl
@[simp] theorem Node.withNext_err (n : Node) (next : Nat) : (n.withNext next).err = n.err := rfl
@[simp] theorem Node.withNext_tok (n : Node) (next : Nat) : (n.withNext next).tok = n.tok := rfl

/-- The position of the first stage of a chain: the `next` of the stage before it, 16 after the sentinel. -/
def chainHead : List Stage → Nat
  | [] => 16
  | st :: _ => st.pos

/-- The node array, masks and head position a chain of stages, head first, stands for. -/
def chainTrellis : List Stage → RuleTrellis
  | [] => ruleStart 16
  | st :: rest =>
    { node := fun p k => if p = st.pos then (st.node k).withNext (chainHead rest) else (chainTrellis rest).node p k
      mask := fun k p => if p = st.pos then st.bit k else (chainTrellis rest).mask k p
      nx := st.pos }

/-- The chain of a trellis, head first. -/
def Trellis.chain (tr : Trellis) : List Stage := tr.head :: tr.rest

@[simp] theorem chainTrellis_nx (st : Stage) (rest : List Stage) : (chainTrellis (st :: rest)).nx = st.pos := rfl

@[simp] theorem chainTrellis_head_node (st : Stage) (rest : List Stage) (k : Bool) :
    (chainTrellis (st :: rest)).node st.pos k = (st.node k).withNext (chainHead rest) := if_pos rfl

theorem RuleTrellis.ext {T U : RuleTrellis} (hnode : ∀ p k, T.node p k = U.node p k)
    (hmask : ∀ k p, T.mask k p = U.mask k p) (hnx : T.nx = U.nx) : T = U := by
  obtain ⟨node, mask, nx⟩ := T
  obtain ⟨node', mask', nx'⟩ := U
  obtain rfl : node = node' := funext₂ hnode
  obtain rfl : mask = mask' := funext₂ hmask
  obtain rfl : nx = nx' := hnx
  rfl

/-- The sentinel alone is the rules' start. -/
theorem chainTrellis_start (e : Nat) : chainTrellis (trellisStart e).chain = ruleStart e := by
  refine RuleTrellis.ext (fun p k => ?_) (fun k p => ?_) rfl
  · show (if p = e then _ else _) = _
    cases k <;> split <;> rfl
  · show (if p = e then _ else _) = _
    cases k <;> split <;> rfl

/-! ### One position of the sweep (43_trellis R209..R213) -/

/-- What an optimization with plane type `t` reads besides the block (43_trellis R207). -/
abbrev State.rdParams (s : State) (t : BitVec 2) : RdParams := { t := t, rdm := s.rdmValue t, rdd := s.rddiv.toInt }

/-- A stage's successor rate is the rules' (43_trellis R209). -/
theorem succRate_val (s : State) (t : BitVec 2) (i : Nat) (own : Token) (h : Stage) (rest : List Stage) (k w : Bool) :
    ((s.succRate (s.rdParams t) i h.pos own (h.node k)).run w).1 = s.ruleRate t i own (chainTrellis (h :: rest)) k := by
  simp only [State.succRate, State.ruleRate, chainTrellis_nx, chainTrellis_head_node, Arith.run_ite]
  split <;> rfl

@[simp] theorem rdParams_t (s : State) (t : BitVec 2) : (s.rdParams t).t = t := rfl
@[simp] theorem rdParams_rdm (s : State) (t : BitVec 2) : (s.rdParams t).rdm = s.rdmValue t := rfl
@[simp] theorem rdParams_rdd (s : State) (t : BitVec 2) : (s.rdParams t).rdd = s.rddiv.toInt := rfl

theorem ruleKeep_snd (s : State) (t : BitVec 2) (b i : Nat) (T : RuleTrellis) : (s.ruleKeep t b i T).2 =
    decide (SecondWins (s.rdmValue t) s.rddiv.toInt
      (s.ruleRate t i (tokenOf (s.levelScan b i)) T false) (T.node T.nx false).err
      (s.ruleRate t i (tokenOf (s.levelScan b i)) T true) (T.node T.nx true).err) := (rfl)

theorem ruleKeep_fst (s : State) (t : BitVec 2) (b i : Nat) (T : RuleTrellis) : (s.ruleKeep t b i T).1 =
    { rate := narrow 32 (s.vcAt (s.levelScan b i) +
        s.ruleRate t i (tokenOf (s.levelScan b i)) T (s.ruleKeep t b i T).2)
      err := narrow 32 (narrow 32 ((s.dqScan b i - s.coefScan b i) * (s.dqScan b i - s.coefScan b i)) +
        (T.node T.nx (s.ruleKeep t b i T).2).err)
      next := T.nx, tok := tokenOf (s.levelScan b i), qc := s.levelScan b i } := (rfl)

/-- The node of a kept level and its bit are the rules' (43_trellis R209). -/
theorem ruleKeep_chain (s : State) (t : BitVec 2) (b i : Nat) (h : Stage) (rest : List Stage) (w : Bool) :
    s.ruleKeep t b i (chainTrellis (h :: rest)) =
      (((s.keepNode (s.rdParams t) b i h).run w).1.1.withNext h.pos, ((s.keepNode (s.rdParams t) b i h).run w).1.2) := by
  have hrate0 := fun own => succRate_val s t i own h rest false
  have hrate1 := fun own => succRate_val s t i own h rest true
  have hbit := ruleKeep_snd s t b i (chainTrellis (h :: rest))
  have hnode := ruleKeep_fst s t b i (chainTrellis (h :: rest))
  simp only [chainTrellis_nx, chainTrellis_head_node, Node.withNext_err, Stage.node_false, Stage.node_true]
    at hrate0 hrate1 hbit hnode
  simp only [State.keepNode, Arith.run_bind, Arith.run_pure, wrap32_val, hrate0, hrate1]
  generalize hpick : ((pick _ _ _ _ _).run _).1 = k
  rw [pick_val] at hpick
  rw [hbit.trans hpick] at hnode
  refine Prod.ext (hnode.trans ?_) (hbit.trans hpick)
  cases k <;> rfl

theorem roundable_eq_decide (s : State) (t : BitVec 2) (b i : Nat) :
    roundable (s.levelScan b i) (s.coefScan b i) (s.deqAt t i) = decide (s.RuleEligible t b i) := by
  rw [Bool.eq_iff_iff, roundable_iff, decide_eq_true_iff]

/-- The level of a state-1 node, `x1` (43_trellis R210, R211). -/
def State.roundedLevel (s : State) (t : BitVec 2) (b i : Nat) : Int :=
  if s.RuleEligible t b i then (if s.levelScan b i < 0 then s.levelScan b i + 1 else s.levelScan b i - 1)
  else s.levelScan b i

/-- The difference a state-1 node squares: one step less with the level's sign when it is rounded (43_trellis R211). -/
def State.roundedDiff (s : State) (t : BitVec 2) (b i : Nat) : Int :=
  if s.RuleEligible t b i then
    s.dqScan b i - s.coefScan b i - (if s.levelScan b i < 0 then -s.deqAt t i else s.deqAt t i)
  else s.dqScan b i - s.coefScan b i

/-- The token of a state-1 node with level `x1` on the path through node (nx, k) (43_trellis R211). -/
def RuleTrellis.roundedTok (T : RuleTrellis) (x1 : Int) (k : Bool) : Token :=
  if x1 = 0 then (if (T.node T.nx k).tok = .eob then .eob else .zero) else tokenOf x1

/-- The successor rate of a state-1 node with level `x1` on the path through node (nx, k) (43_trellis R211). -/
def State.roundedRate (s : State) (t : BitVec 2) (i : Nat) (T : RuleTrellis) (x1 : Int) (k : Bool) : Int :=
  if T.roundedTok x1 k = .eob then (T.node T.nx k).rate else s.ruleRate t i (T.roundedTok x1 k) T k

theorem ruleRound_snd (s : State) (t : BitVec 2) (b i : Nat) (T : RuleTrellis) : (s.ruleRound t b i T).2 =
    decide (SecondWins (s.rdmValue t) s.rddiv.toInt
      (s.roundedRate t i T (s.roundedLevel t b i) false) (T.node T.nx false).err
      (s.roundedRate t i T (s.roundedLevel t b i) true) (T.node T.nx true).err) := (rfl)

theorem ruleRound_fst (s : State) (t : BitVec 2) (b i : Nat) (T : RuleTrellis) : (s.ruleRound t b i T).1 =
    { rate := narrow 32 ((if s.roundedLevel t b i = 0 then 0 else s.vcAt (s.roundedLevel t b i)) +
        s.roundedRate t i T (s.roundedLevel t b i) (s.ruleRound t b i T).2)
      err := narrow 32 (narrow 32 (s.roundedDiff t b i * s.roundedDiff t b i) +
        (T.node T.nx (s.ruleRound t b i T).2).err)
      next := T.nx, tok := T.roundedTok (s.roundedLevel t b i) (s.ruleRound t b i T).2
      qc := s.roundedLevel t b i } := (rfl)

theorem roundedError_val (s : State) (t : BitVec 2) (b i : Nat) (w : Bool) :
    ((roundedError (decide (s.RuleEligible t b i)) (s.levelScan b i) (s.dqScan b i - s.coefScan b i)
      (s.deqAt t i)).run w).1 = narrow 32 (s.roundedDiff t b i * s.roundedDiff t b i) := by
  simp only [roundedError, State.roundedDiff, decide_eq_true_eq]
  split <;> rfl

theorem roundedToken_chain (x1 : Int) (h : Stage) (rest : List Stage) (k : Bool) :
    roundedToken x1 (h.node k) = (chainTrellis (h :: rest)).roundedTok x1 k := by
  rw [RuleTrellis.roundedTok, chainTrellis_nx, chainTrellis_head_node]
  rfl

/-- A stage's successor rate in state 1 is the rules' (43_trellis R211). -/
theorem succRate1_val (s : State) (t : BitVec 2) (i : Nat) (x1 : Int) (h : Stage) (rest : List Stage) (k w : Bool) :
    ((s.succRate1 (s.rdParams t) i h.pos ((chainTrellis (h :: rest)).roundedTok x1 k) (h.node k)).run w).1 =
      s.roundedRate t i (chainTrellis (h :: rest)) x1 k := by
  simp only [State.succRate1, State.roundedRate, chainTrellis_nx, chainTrellis_head_node, Arith.run_ite]
  split
  · rfl
  · exact succRate_val s t i _ h rest k w

/-- The node of a level that may be rounded and its bit are the rules' (43_trellis R210, R211). -/
theorem ruleRound_chain (s : State) (t : BitVec 2) (b i : Nat) (h : Stage) (rest : List Stage) (w : Bool) :
    s.ruleRound t b i (chainTrellis (h :: rest)) =
      (((s.roundNode (s.rdParams t) b i h).run w).1.1.withNext h.pos,
        ((s.roundNode (s.rdParams t) b i h).run w).1.2) := by
  have hlevel : (if roundable (s.levelScan b i) (s.coefScan b i) (s.deqAt t i) then towardZero (s.levelScan b i)
      else s.levelScan b i) = s.roundedLevel t b i := by
    rw [roundable_eq_decide, State.roundedLevel, towardZero]
    simp only [decide_eq_true_eq]
  have htok0 := fun x1 => roundedToken_chain x1 h rest false
  have htok1 := fun x1 => roundedToken_chain x1 h rest true
  have hrate0 := fun x1 => succRate1_val s t i x1 h rest false
  have hrate1 := fun x1 => succRate1_val s t i x1 h rest true
  have hbit := ruleRound_snd s t b i (chainTrellis (h :: rest))
  have hnode := ruleRound_fst s t b i (chainTrellis (h :: rest))
  simp only [chainTrellis_nx, chainTrellis_head_node, Node.withNext_err, Stage.node_false, Stage.node_true]
    at htok0 htok1 hrate0 hrate1 hbit hnode
  simp only [State.roundNode, Arith.run_bind, Arith.run_pure, wrap32_val, hlevel, htok0, htok1, hrate0,
    hrate1]
  simp only [roundable_eq_decide, roundedError_val]
  generalize hpick : ((pick _ _ _ _ _).run _).1 = k
  rw [pick_val] at hpick
  rw [hbit.trans hpick] at hnode
  refine Prod.ext (hnode.trans ?_) (hbit.trans hpick)
  cases k <;> rfl

theorem ruleZero_chain (s : State) (t : BitVec 2) (i : Nat) (n : Node) (next : Nat) (w : Bool) :
    s.ruleZero t i (n.withNext next) = ((s.zeroNode (s.rdParams t) i n).run w).1.withNext next := by
  rw [State.ruleZero, State.zeroNode, Node.withNext_tok]
  by_cases htok : n.tok = .eob
  · rw [if_pos htok, if_pos htok]
    rfl
  · rw [if_neg htok, if_neg htok]
    rfl

/-- At a zero position only the head's nodes change (43_trellis R212). -/
theorem ruleVisit_of_zero {s : State} {t : BitVec 2} {b i : Nat} (h : s.levelScan b i = 0) (T : RuleTrellis) :
    s.ruleVisit t b T i =
      { T with node := fun p k => if p = T.nx then s.ruleZero t i (T.node p k) else T.node p k } := if_pos h

/-- At a nonzero position the two nodes and bits of that position are set, and it becomes the head (43_trellis R209,
R211). -/
theorem ruleVisit_of_ne_zero {s : State} {t : BitVec 2} {b i : Nat} (h : s.levelScan b i ≠ 0) (T : RuleTrellis) :
    s.ruleVisit t b T i =
      { node := fun p k => if p = i then (if k then s.ruleRound t b i T else s.ruleKeep t b i T).1 else T.node p k
        mask := fun k p => if p = i then (if k then s.ruleRound t b i T else s.ruleKeep t b i T).2 else T.mask k p
        nx := i } := if_neg h

/-- One position of the sweep is the rules', on the chain as on the node array (43_trellis R213). -/
theorem visit_chain (s : State) (t : BitVec 2) (b i : Nat) (tr : Trellis) (w : Bool) :
    chainTrellis ((s.visit (s.rdParams t) b i tr).run w).1.chain = s.ruleVisit t b (chainTrellis tr.chain) i := by
  obtain ⟨h, rest⟩ := tr
  rw [State.visit]
  by_cases hz : s.levelScan b i = 0
  · rw [ruleVisit_of_zero hz, if_pos hz]
    refine RuleTrellis.ext (fun p k => ?_) (fun k p => ?_) rfl
    · show (if p = h.pos then _ else _) = if p = h.pos then s.ruleZero t i ((chainTrellis (h :: rest)).node p k) else _
      by_cases hp : p = h.pos
      · subst hp
        rw [if_pos rfl, if_pos rfl, chainTrellis_head_node]
        cases k <;> exact (ruleZero_chain _ _ _ _ _ _).symm
      · rw [if_neg hp, if_neg hp]
        exact (if_neg hp).symm
    · cases k <;> rfl
  · rw [ruleVisit_of_ne_zero hz, if_neg hz]
    simp only [Trellis.chain, ruleKeep_chain s t b i h rest w,
      ruleRound_chain s t b i h rest ((s.keepNode (s.rdParams t) b i h).run w).2]
    exact RuleTrellis.ext (fun p k => by cases k <;> rfl) (fun k p => by cases k <;> rfl) rfl

/-! ### The sweep, the head and the replay (43_trellis R213..R215) -/

theorem sweep_chain (s : State) (t : BitVec 2) (b : Nat) (is : List Nat) (tr : Trellis) (w : Bool) :
    chainTrellis ((s.sweep (s.rdParams t) b is tr).run w).1.chain = is.foldl (s.ruleVisit t b) (chainTrellis tr.chain) := by
  induction is generalizing tr w with
  | nil => rfl
  | cons i is ih => rw [State.sweep, Arith.run_bind, ih, visit_chain, List.foldl_cons]

/-- The chain a sweep ends with stands for the rules' trellis. -/
theorem sweep_eq_ruleSweep (s : State) (t : BitVec 2) (b : Nat) (w : Bool) :
    chainTrellis ((s.sweep (s.rdParams t) b (sweepPositions t (s.eobAt b).toNat)
      (trellisStart (s.eobAt b).toNat)).run w).1.chain = s.ruleSweep t b := by
  rw [sweep_chain, chainTrellis_start, sweepPositions, List.foldl_reverse, State.ruleSweep]

/-- The head comparison is the rules' (43_trellis R214). -/
theorem headPick_val (s : State) (t : BitVec 2) (b : Nat) (tr : Trellis) (w : Bool) :
    ((s.headPick (s.rdParams t) b (s.eobAt b).toNat tr.head).run w).1 = s.ruleHead t b (chainTrellis tr.chain) := by
  simp only [State.headPick, State.ruleHead, Arith.run_bind, pick_val, wrap32_val, Trellis.chain, chainTrellis_nx,
    chainTrellis_head_node]
  rfl

/-- A node array that holds every stage of a chain. -/
def RuleTrellis.Holds (T : RuleTrellis) : List Stage → Prop
  | [] => True
  | st :: rest =>
    (∀ k, T.node st.pos k = (st.node k).withNext (chainHead rest) ∧ T.mask k st.pos = st.bit k) ∧ T.Holds rest

theorem RuleTrellis.Holds.congr {T U : RuleTrellis} {stages : List Stage}
    (h : ∀ st ∈ stages, ∀ k, U.node st.pos k = T.node st.pos k ∧ U.mask k st.pos = T.mask k st.pos)
    (hT : T.Holds stages) : U.Holds stages := by
  induction stages with
  | nil => trivial
  | cons st rest ih =>
    obtain ⟨hst, hrest⟩ := hT
    refine ⟨fun k => ?_, ih (fun x hx => h x (List.mem_cons_of_mem _ hx)) hrest⟩
    obtain ⟨hnode, hmask⟩ := h st List.mem_cons_self k
    rw [hnode, hmask]
    exact hst k

/-- The trellis of a chain of rising positions holds it. -/
theorem chainTrellis_holds {stages : List Stage} (h : stages.Pairwise fun p q => p.pos < q.pos) :
    (chainTrellis stages).Holds stages := by
  induction stages with
  | nil => trivial
  | cons st rest ih =>
    obtain ⟨hst, hrest⟩ := List.pairwise_cons.mp h
    refine ⟨fun k => ⟨chainTrellis_head_node st rest k, if_pos rfl⟩, (ih hrest).congr fun x hx k => ?_⟩
    have hne : x.pos ≠ st.pos := (hst x hx).ne'
    exact ⟨if_neg hne, if_neg hne⟩

/-- The replay through the node array and the masks is the replay along the chain (43_trellis R215), given fuel for the
positions up to `e`. -/
theorem replay_eq_replayPath {T : RuleTrellis} {e n : Nat} {stages : List Stage} (k : Bool) (hT : T.Holds stages)
    (hrise : stages.Pairwise fun p q => p.pos < q.pos) (he : e ≤ 16) (hn : e ≤ chainHead stages + n) :
    T.replay e n (chainHead stages) k = replayPath e k stages := by
  induction stages generalizing n k with
  | nil =>
    cases n with
    | zero => rfl
    | succ n => exact if_neg (by simp only [chainHead]; omega)
  | cons st rest ih =>
    obtain ⟨hst, hrest⟩ := hT
    obtain ⟨hnode, hmask⟩ := hst k
    obtain ⟨hbelow, hrise'⟩ := List.pairwise_cons.mp hrise
    simp only [chainHead] at hn ⊢
    rw [replayPath]
    by_cases hlt : st.pos < e
    · obtain ⟨m, rfl⟩ : ∃ m, n = m + 1 := ⟨n - 1, by omega⟩
      have hnext : e ≤ chainHead rest + m := by
        cases rest with
        | nil => simp only [chainHead]; omega
        | cons st' rest' =>
          have := hbelow st' List.mem_cons_self
          simp only [chainHead]
          omega
      rw [RuleTrellis.replay, if_pos hlt, if_pos hlt, hnode, hmask]
      cases k <;> exact congrArg _ (ih _ hrest hrise' hnext)
    · cases n with
      | zero => rw [if_neg hlt]; rfl
      | succ n => rw [RuleTrellis.replay, if_neg hlt, if_neg hlt]

/-- The stages a sweep leaves have rising positions. -/
theorem sweep_pairwise (s : State) (b : Nat) (t : BitVec 2) (w : Bool) (he : firstPos t ≤ (s.eobAt b).toNat) :
    ((s.sweep (s.rdParams t) b (sweepPositions t (s.eobAt b).toNat)
      (trellisStart (s.eobAt b).toNat)).run w).1.chain.Pairwise fun p q => p.pos < q.pos := by
  have hchain := sweep_chainOk s (s.rdParams t) b (s.eobAt b).toNat (firstPos t) ((s.eobAt b).toNat - firstPos t)
    (trellisStart (s.eobAt b).toNat) w (by omega) (trellisStart_chainOk s b t _ _ (by omega))
  obtain ⟨stages, sentinel, hstages, hlast, hpos, -⟩ := hchain
  rw [Trellis.chain, sweepPositions, hstages, List.pairwise_append]
  refine ⟨?_, List.pairwise_singleton _ _, fun st hst x hx => ?_⟩
  · rw [← List.pairwise_map, hpos]
    exact List.Pairwise.filter _ List.pairwise_lt_range'
  · rw [List.mem_singleton.mp hx, hlast]
    exact (nonzeroPositions_below s b _ _ (hpos ▸ List.mem_map_of_mem hst)).2.1

/-- The winning path of an optimization is the replay of the rules' trellis (43_trellis R206..R215). -/
theorem path_eq_rulePath {s : State} {b : Nat} {t : BitVec 2} (he : (s.eobAt b).toNat ≤ 16)
    (hfirst : firstPos t ≤ (s.eobAt b).toNat) : s.path b t = s.rulePath b t := by
  have hrdm : ∀ w, ({ t := t, rdm := ((s.effectiveRdm t).run w).1, rdd := s.rddiv.toInt } : RdParams) = s.rdParams t :=
    fun w => by rw [effectiveRdm_val]
  rw [State.path, State.winningPath, State.rulePath]
  simp only [Arith.run_bind, Arith.run_pure, hrdm, headPick_val]
  have hrise := sweep_pairwise s b t ((s.effectiveRdm t).run s.status.wrap).2 hfirst
  rw [← sweep_eq_ruleSweep s t b ((s.effectiveRdm t).run s.status.wrap).2]
  exact (replay_eq_replayPath _ (chainTrellis_holds hrise) hrise he (Nat.le_add_left_of_le he)).symm

/-- Settles O60: `path_eq_rulePath`, and what an optimization does at the positions on its path and off it. -/
theorem optBlockReplaysTheRulesTrellis : Obligations.OptBlockReplaysTheRulesTrellis := by
  rintro s blk pt g b hblk hgate hready rfl hfirst
  have he := hready.1
  refine ⟨_, exec_optB hblk hgate hready, ?_⟩
  rw [← path_eq_rulePath he hfirst]
  refine ⟨fun jx hjx => ⟨?_, ?_⟩, fun i hi hoff => ?_, ?_⟩
  · obtain ⟨-, hlt, -⟩ := path_mem s _ pt hjx
    omega
  · exact optimize_scan_mem s _ pt he hjx
  · refine optimize_scan_other s _ pt he hi ?_
    by_contra! hin
    obtain ⟨hlo, hlt, hne⟩ := hin
    obtain ⟨x, hx⟩ := path_covers s _ pt hlo hlt hne
    exact hoff _ hx rfl
  · rw [State.complete_eobAt, optimize_eobAt_of_replay he (.inl hfirst)]
    rfl

end Sys2Proof.Machine
end

section
/-! The optimizer on a block with one nonzero level in its optimized range (43_trellis R206..R215): the rules' trellis
has one stage besides the sentinel, and its head compares the two candidates' rates and errors in closed form. -/

namespace Sys2Proof.Machine

/-! ### Zero positions below the head (43_trellis R212) -/

/-- A node of the head after the zero positions `lo + m − 1` down to `lo`. -/
def State.zeroRun (s : State) (t : BitVec 2) (lo m : Nat) (n : RuleNode) : RuleNode :=
  (List.range' lo m).foldr (s.ruleZero t) n

theorem zeroRun_succ (s : State) (t : BitVec 2) (lo m : Nat) (n : RuleNode) :
    s.zeroRun t lo (m + 1) n = s.ruleZero t lo (s.zeroRun t (lo + 1) m n) := by
  rw [State.zeroRun, List.range'_succ, List.foldr_cons, State.zeroRun]

theorem ruleZero_of_eob {s : State} {t : BitVec 2} {i : Nat} {n : RuleNode} (h : n.tok = .eob) :
    s.ruleZero t i n = n := if_pos h

theorem ruleZero_of_ne_eob {s : State} {t : BitVec 2} {i : Nat} {n : RuleNode} (h : n.tok ≠ .eob) :
    s.ruleZero t i n = { n with rate := narrow 32 (n.rate + s.tcAt t (band (i + 1)) 0 n.tok), tok := .zero } := if_neg h

/-- An end of block stays as it is. -/
theorem zeroRun_of_eob {s : State} {t : BitVec 2} {lo m : Nat} {n : RuleNode} (h : n.tok = .eob) :
    s.zeroRun t lo m n = n := by
  induction m generalizing lo with
  | zero => rfl
  | succ m ih => rw [zeroRun_succ, ih, ruleZero_of_eob h]

/-- Zero positions change a node's rate and token only. -/
theorem zeroRun_frame (s : State) (t : BitVec 2) (lo m : Nat) (n : RuleNode) :
    s.zeroRun t lo m n = { n with rate := (s.zeroRun t lo m n).rate, tok := (s.zeroRun t lo m n).tok } := by
  induction m generalizing lo with
  | zero => rfl
  | succ m ih =>
    rw [zeroRun_succ, State.ruleZero]
    split
    · exact ih _
    · rw [ih (lo + 1)]

theorem zeroRun_tok_ne_eob {s : State} {t : BitVec 2} {lo m : Nat} {n : RuleNode} (h : n.tok ≠ .eob) :
    (s.zeroRun t lo m n).tok ≠ .eob := by
  induction m generalizing lo with
  | zero => exact h
  | succ m ih =>
    rw [zeroRun_succ, ruleZero_of_ne_eob ih]
    exact Token.noConfusion

/-- What the tokens from position `lo` up to that of a head with token `tok` at `lo + m` cost, the first in context `c`
and the others in context 0 (43_trellis R212, R214). -/
def State.headCost (s : State) (t : BitVec 2) : Nat → Nat → Nat → Token → Int
  | c, lo, 0, tok => s.tcAt t (band lo) c tok
  | c, lo, m + 1, tok => s.headCost t 0 (lo + 1) m tok + s.tcAt t (band lo) c .zero

theorem headCost_succ (s : State) (t : BitVec 2) (c lo m : Nat) (tok : Token) :
    s.headCost t c lo (m + 1) tok = s.tcAt t (band (lo + m + 1)) 0 tok +
      ((List.range' (lo + 1) m).map fun j => s.tcAt t (band j) 0 .zero).sum + s.tcAt t (band lo) c .zero := by
  induction m generalizing c lo with
  | zero => simp [State.headCost]
  | succ m ih =>
    rw [State.headCost, ih, List.range'_succ, List.map_cons, List.sum_cons, show lo + 1 + m = lo + (m + 1) by omega]
    ring

/-- The rate at the head after the zero positions below it: one wrap of the whole sum. -/
theorem zeroRun_headRate {s : State} {t : BitVec 2} {lo m : Nat} {n : RuleNode} (h : n.tok ≠ .eob) (c : Nat) :
    narrow 32 ((s.zeroRun t lo m n).rate + s.tcAt t (band lo) c (s.zeroRun t lo m n).tok) =
      narrow 32 (n.rate + s.headCost t c lo m n.tok) := by
  induction m generalizing lo c with
  | zero => rfl
  | succ m ih =>
    rw [zeroRun_succ, ruleZero_of_ne_eob (zeroRun_tok_ne_eob h), ih, narrow_add_left, State.headCost, add_assoc]

/-- A run of zero positions changes the nodes of the head only. -/
theorem foldr_ruleVisit_zero {s : State} {t : BitVec 2} {b lo m : Nat}
    (h : ∀ i, lo ≤ i → i < lo + m → s.levelScan b i = 0) (T : RuleTrellis) :
    (List.range' lo m).foldr (fun i T => s.ruleVisit t b T i) T =
      { T with node := fun p k => if p = T.nx then s.zeroRun t lo m (T.node p k) else T.node p k } := by
  induction m generalizing lo with
  | zero => exact RuleTrellis.ext (fun _ _ => (ite_self _).symm) (fun _ _ => rfl) rfl
  | succ m ih =>
    rw [List.range'_succ, List.foldr_cons, ih fun i hlo hi => h i (by omega) (by omega),
      ruleVisit_of_zero (h lo (le_refl _) (by omega))]
    refine RuleTrellis.ext (fun p k => ?_) (fun _ _ => rfl) rfl
    by_cases hp : p = T.nx
    · simp only [hp, if_true, zeroRun_succ]
    · simp only [hp, if_false]

/-! ### One nonzero level -/

/-- Position `n` holds the only nonzero level of the optimized range. -/
structure State.LoneLevel (s : State) (t : BitVec 2) (b n : Nat) : Prop where
  firstPos_le : firstPos t ≤ n
  lt_eob : n < (s.eobAt b).toNat
  level_ne_zero : s.levelScan b n ≠ 0
  other_eq_zero : ∀ i, firstPos t ≤ i → i < (s.eobAt b).toNat → i ≠ n → s.levelScan b i = 0

/-- The two nodes at position `n` over the sentinel: the level kept and the level that may be rounded. -/
def State.loneNode (s : State) (t : BitVec 2) (b n : Nat) (k : Bool) : RuleNode :=
  (if k then s.ruleRound t b n (ruleStart (s.eobAt b).toNat) else s.ruleKeep t b n (ruleStart (s.eobAt b).toNat)).1

/-- The sweep over one nonzero level: its two nodes, over the sentinel, after the zero positions below. -/
theorem ruleSweep_lone {s : State} {t : BitVec 2} {b n : Nat} (h : s.LoneLevel t b n) :
    (s.ruleSweep t b).nx = n ∧
      ∀ k, (s.ruleSweep t b).node n k = s.zeroRun t (firstPos t) (n - firstPos t) (s.loneNode t b n k) := by
  obtain ⟨hlo, hn, hne, hzero⟩ := h
  have hrange : List.range' (firstPos t) ((s.eobAt b).toNat - firstPos t) =
      List.range' (firstPos t) (n - firstPos t) ++ n :: List.range' (n + 1) ((s.eobAt b).toNat - (n + 1)) := by
    have hsplit := sweepPositions_split hlo hn
    rw [sweepPositions, ← List.reverse_inj] at hsplit
    simpa using hsplit
  have habove := foldr_ruleVisit_zero (t := t) (lo := n + 1) (m := (s.eobAt b).toNat - (n + 1))
    (fun i hi hi' => hzero i (by omega) (by omega) (by omega)) (ruleStart (s.eobAt b).toNat)
  have hstart : ((List.range' (n + 1) ((s.eobAt b).toNat - (n + 1))).foldr (fun i T => s.ruleVisit t b T i)
      (ruleStart (s.eobAt b).toNat)) = ruleStart (s.eobAt b).toNat := by
    rw [habove]
    refine RuleTrellis.ext (fun p k => ?_) (fun _ _ => rfl) rfl
    exact ite_eq_right_iff.mpr fun _ => zeroRun_of_eob rfl
  rw [State.ruleSweep, hrange, List.foldr_append, List.foldr_cons, hstart,
    foldr_ruleVisit_zero fun i hi hi' => hzero i hi (by omega) (by omega), ruleVisit_of_ne_zero hne]
  exact ⟨rfl, fun k => by simp only [if_true]; rfl⟩

theorem tokenOf_ne_eob (x : Int) : tokenOf x ≠ .eob := by
  simp only [tokenOf]
  split_ifs <;> decide

/-- The level of state `k` at position `n`. -/
def State.stateLevel (s : State) (t : BitVec 2) (b n : Nat) (k : Bool) : Int :=
  if k then s.roundedLevel t b n else s.levelScan b n

/-- The difference state `k` at position `n` squares. -/
def State.stateDiff (s : State) (t : BitVec 2) (b n : Nat) (k : Bool) : Int :=
  if k then s.roundedDiff t b n else s.dqScan b n - s.coefScan b n

/-- The rate of a nonzero level `v` at position `n` and of the end of block after it, coded below E = 16
(43_trellis R209). -/
def State.loneRate (s : State) (t : BitVec 2) (b n : Nat) (v : Int) : Int :=
  s.vcAt v + (if (s.eobAt b).toNat < 16 then s.tcAt t (band (n + 1)) (pclass (tokenOf v)) .eob else 0)

@[simp] theorem ruleStart_nx (e : Nat) : (ruleStart e).nx = e := rfl
@[simp] theorem ruleStart_rate (e p : Nat) (k : Bool) : ((ruleStart e).node p k).rate = 0 := rfl
@[simp] theorem ruleStart_err (e p : Nat) (k : Bool) : ((ruleStart e).node p k).err = 0 := rfl
@[simp] theorem ruleStart_tok (e p : Nat) (k : Bool) : ((ruleStart e).node p k).tok = .eob := rfl

theorem narrow_narrow (bits : Nat) (v : Int) : narrow bits (narrow bits v) = narrow bits v := Int.bmod_bmod

theorem narrow_add_ruleRate_start (s : State) (t : BitVec 2) (b n : Nat) (k : Bool) (v : Int) :
    narrow 32 (s.vcAt v + s.ruleRate t n (tokenOf v) (ruleStart (s.eobAt b).toNat) k) =
      narrow 32 (s.loneRate t b n v) := by
  simp only [State.ruleRate, State.loneRate, ruleStart_nx, ruleStart_rate, ruleStart_tok, zero_add]
  split
  · rw [narrow_add_right]
  · rfl

/-- Over the sentinel a level costs its own rate and error; one rounded to zero is an end of block at no rate
(43_trellis R209, R211). -/
theorem loneNode_eq {s : State} {t : BitVec 2} {b n : Nat} (hne : s.levelScan b n ≠ 0) (k : Bool) :
    s.loneNode t b n k =
      { rate := if s.stateLevel t b n k = 0 then 0 else narrow 32 (s.loneRate t b n (s.stateLevel t b n k))
        err := narrow 32 (s.stateDiff t b n k * s.stateDiff t b n k)
        next := (s.eobAt b).toNat
        tok := if s.stateLevel t b n k = 0 then .eob else tokenOf (s.stateLevel t b n k)
        qc := s.stateLevel t b n k } := by
  cases k
  · simp only [State.loneNode, State.stateLevel, State.stateDiff, Bool.false_eq_true, if_false, ruleKeep_fst, hne,
      narrow_add_ruleRate_start, ruleStart_nx, ruleStart_err, add_zero, narrow_narrow]
  · simp only [State.loneNode, State.stateLevel, State.stateDiff, if_true, ruleRound_fst, State.roundedRate,
      RuleTrellis.roundedTok, ruleStart_nx, ruleStart_rate, ruleStart_err, ruleStart_tok, add_zero, narrow_narrow]
    by_cases hzero : s.roundedLevel t b n = 0
    · simp only [hzero, if_true]
      rfl
    · simp only [hzero, if_false, tokenOf_ne_eob, narrow_add_ruleRate_start]

theorem narrow_tcAt (s : State) (t : BitVec 2) (bd c : Nat) (tok : Token) :
    narrow 32 (s.tcAt t bd c tok) = s.tcAt t bd c tok := by
  rw [State.tcAt, ← toInt_ofInt_narrow, BitVec.ofInt_toInt]

/-- The rate the head compares for a candidate level `v` (43_trellis R212, R214): for a level rounded to zero only the
head's end of block. -/
def State.candidateRate (s : State) (t : BitVec 2) (b n : Nat) (v : Int) : Int :=
  if v = 0 then s.tcAt t (band (firstPos t)) (s.headContext b) .eob
  else narrow 32 (s.loneRate t b n v +
    s.headCost t (s.headContext b) (firstPos t) (n - firstPos t) (tokenOf v))

theorem candidateRate_eq {s : State} {t : BitVec 2} {b n : Nat} (h : s.LoneLevel t b n) (k : Bool) :
    narrow 32 (((s.ruleSweep t b).node n k).rate +
      s.tcAt t (band (firstPos t)) (s.headContext b) ((s.ruleSweep t b).node n k).tok) =
        s.candidateRate t b n (s.stateLevel t b n k) := by
  obtain ⟨-, hnode⟩ := ruleSweep_lone h
  rw [hnode, loneNode_eq h.level_ne_zero, State.candidateRate]
  by_cases hzero : s.stateLevel t b n k = 0
  · rw [zeroRun_of_eob (by simp only [hzero, if_true])]
    simp only [hzero, if_true, zero_add, narrow_tcAt]
  · rw [zeroRun_headRate (by simp only [hzero, if_false]; exact tokenOf_ne_eob _)]
    simp only [hzero, if_false, narrow_add_left]

theorem ruleSweep_lone_frame {s : State} {t : BitVec 2} {b n : Nat} (h : s.LoneLevel t b n) (k : Bool) :
    ((s.ruleSweep t b).node n k).err = narrow 32 (s.stateDiff t b n k * s.stateDiff t b n k) ∧
      ((s.ruleSweep t b).node n k).next = (s.eobAt b).toNat ∧
      ((s.ruleSweep t b).node n k).qc = s.stateLevel t b n k := by
  obtain ⟨-, hnode⟩ := ruleSweep_lone h
  rw [hnode, zeroRun_frame, loneNode_eq h.level_ne_zero]
  exact ⟨rfl, rfl, rfl⟩

/-- The head comparison over one nonzero level (43_trellis R214). -/
theorem ruleHead_lone {s : State} {t : BitVec 2} {b n : Nat} (h : s.LoneLevel t b n) :
    s.ruleHead t b (s.ruleSweep t b) = decide (SecondWins (s.rdmValue t) s.rddiv.toInt
      (s.candidateRate t b n (s.stateLevel t b n false))
      (narrow 32 (s.stateDiff t b n false * s.stateDiff t b n false))
      (s.candidateRate t b n (s.stateLevel t b n true))
      (narrow 32 (s.stateDiff t b n true * s.stateDiff t b n true))) := by
  have hmin : min (s.eobAt b).toNat (firstPos t) = firstPos t := min_eq_right (h.firstPos_le.trans h.lt_eob.le)
  obtain ⟨hnx, -⟩ := ruleSweep_lone h
  obtain ⟨herr0, -⟩ := ruleSweep_lone_frame h false
  obtain ⟨herr1, -⟩ := ruleSweep_lone_frame h true
  rw [← candidateRate_eq h false, ← candidateRate_eq h true, ← herr0, ← herr1, State.ruleHead, hnx, hmin]
  rfl

/-- The replay over one nonzero level is that level, as the head's state has it (43_trellis R215). -/
theorem rulePath_lone {s : State} {t : BitVec 2} {b n : Nat} (h : s.LoneLevel t b n) :
    s.rulePath b t = [(n, s.stateLevel t b n (s.ruleHead t b (s.ruleSweep t b)))] := by
  obtain ⟨hnx, -⟩ := ruleSweep_lone h
  obtain ⟨-, hnext, hqc⟩ := ruleSweep_lone_frame h (s.ruleHead t b (s.ruleSweep t b))
  simp only [State.rulePath, hnx]
  rw [RuleTrellis.replay, if_pos h.lt_eob, hqc, hnext, RuleTrellis.replay, if_neg (lt_irrefl _)]

theorem headCost_sub {n i0 : Nat} (h : i0 ≤ n) (s : State) (t : BitVec 2) (c : Nat) (tok : Token) :
    s.headCost t c i0 (n - i0) tok = if n = i0 then s.tcAt t (band i0) c tok
      else s.tcAt t (band n) 0 tok + ((List.range' (i0 + 1) (n - 1 - i0)).map fun j => s.tcAt t (band j) 0 .zero).sum +
        s.tcAt t (band i0) c .zero := by
  split
  · next heq => rw [heq, Nat.sub_self, State.headCost]
  · next hne =>
    obtain ⟨m, rfl⟩ : ∃ m, n = i0 + m + 1 := ⟨n - i0 - 1, by omega⟩
    rw [show i0 + m + 1 - i0 = m + 1 by omega, show i0 + m + 1 - 1 - i0 = m by omega, headCost_succ]

/-- The error of a rounded level: an eligible level changes when it is rounded, so one that stays has the error of the
level kept (43_trellis R210, R211). -/
theorem narrow_roundedDiff (s : State) (t : BitVec 2) (b n : Nat) :
    narrow 32 (s.roundedDiff t b n * s.roundedDiff t b n) =
      if s.roundedLevel t b n = s.levelScan b n then
        narrow 32 ((s.dqScan b n - s.coefScan b n) * (s.dqScan b n - s.coefScan b n))
      else narrow 32 ((s.dqScan b n - s.coefScan b n - (if s.levelScan b n < 0 then -s.deqAt t n else s.deqAt t n)) *
        (s.dqScan b n - s.coefScan b n - (if s.levelScan b n < 0 then -s.deqAt t n else s.deqAt t n))) := by
  by_cases hsc : s.RuleEligible t b n
  · have hmoved : s.roundedLevel t b n ≠ s.levelScan b n := by
      rw [State.roundedLevel, if_pos hsc]
      split <;> omega
    rw [State.roundedDiff, if_pos hsc, if_neg hmoved]
  · have hkept : s.roundedLevel t b n = s.levelScan b n := if_neg hsc
    rw [State.roundedDiff, if_neg hsc, if_pos hkept]

theorem stateLevel_decide (s : State) (t : BitVec 2) (b n : Nat) (P : Prop) [Decidable P] :
    s.stateLevel t b n (decide P) = if P then s.roundedLevel t b n else s.levelScan b n := by
  simp only [State.stateLevel, decide_eq_true_eq]

/-- Settles O56: the optimization's path is the lone level's (`path_eq_rulePath`, `rulePath_lone`), chosen by the
head. -/
theorem singleLevelDecision : Obligations.SingleLevelDecision := by
  rintro s blk pt g b n i0 e ctx x x1 c st d total0 err0 total1 err1 path hblk hgate hready rfl hi0 rfl hlo hn rfl hne
    hzero rfl rfl rfl hx1 hctx hpath rfl rfl rfl rfl
  obtain rfl : i0 = firstPos pt := hi0
  obtain rfl : x1 = s.roundedLevel pt blk.toNat n := hx1
  obtain rfl : ctx = s.headContext blk.toNat := hctx
  have hlone : s.LoneLevel pt blk.toNat n := ⟨hlo, hn, hne, hzero⟩
  have he := hready.1
  have hfirst : firstPos pt ≤ (s.eobAt blk.toNat).toNat := hlo.trans hn.le
  have hreplay := (path_eq_rulePath he hfirst).trans (rulePath_lone hlone)
  obtain ⟨hlevel, hdq⟩ := optimize_scan_mem s _ pt he (hreplay ▸ List.mem_singleton_self _)
  have hrate : ∀ v, v ≠ 0 → s.candidateRate pt blk.toNat n v = narrow 32 (path v) := fun v hv => by
    rw [State.candidateRate, if_neg hv, hpath, headCost_sub hlo, State.loneRate]
  have hkept : s.candidateRate pt blk.toNat n (s.stateLevel pt blk.toNat n false) =
      narrow 32 (path (s.levelScan blk.toNat n)) := hrate _ hne
  have hrounded : s.candidateRate pt blk.toNat n (s.stateLevel pt blk.toNat n true) =
      if s.roundedLevel pt blk.toNat n = 0 then s.tcAt pt (band (firstPos pt)) (s.headContext blk.toNat) .eob
      else narrow 32 (path (s.roundedLevel pt blk.toNat n)) := by
    split
    · next h => exact if_pos h
    · next h => exact hrate _ h
  have herror : narrow 32 (s.stateDiff pt blk.toNat n true * s.stateDiff pt blk.toNat n true) = _ :=
    narrow_roundedDiff s pt blk.toNat n
  have hhead := ruleHead_lone hlone
  rw [hkept, hrounded, herror] at hhead
  refine ⟨_, exec_optB hblk hgate hready, ?_, ?_, ?_⟩
  · rw [State.complete_levelScan, hlevel, hhead, stateLevel_decide]
    rfl
  · rw [State.complete_dqScan, State.complete_levelScan, hdq, hlevel]
  · rw [State.complete_eobAt, State.complete_levelScan, optimize_eobAt_of_replay he (.inl hfirst), hreplay, hlevel]
    rfl

end Sys2Proof.Machine
end

section
/-! The passes, the context commands and NOP (44_orchestration): what the gate, the guard and the blocks decide, and a
pass as the commands it stands for. -/

namespace Sys2Proof.Machine

/-- Settles O58: the bodies of the three commands, completed. -/
theorem contextCommandsAndNop : Obligations.ContextCommandsAndNop :=
  fun _ => ⟨rfl, rfl, rfl⟩

/-! ### Gate and guard (44_orchestration R250, R255, R256) -/

theorem checkBlk_congr (s : State) (legal : BitVec 5 → Bool) (blk : BitVec 5) {body body' : State → State}
    (h : body s = body' s) : s.checkBlk legal blk body = s.checkBlk legal blk body' := by
  rw [State.checkBlk, State.checkBlk, h]

/-- An open gate makes no difference between G = 1 and G = 0. -/
theorem checkGate_open {s : State} (h : s.gateOpen = true) (body : State → State) :
    s.checkGate true body = s.checkGate false body :=
  checkGate_allowed s true body fun _ => (gateOpen_iff s).mp h

theorem checkGuard_missing {s : State} (h : s.mbcfg.aboveValid = false ∨ s.mbcfg.leftValid = false)
    (body : State → State) : s.checkGuard body = s.complete := by
  rcases h with h | h <;> simp [State.checkGuard, h]

/-- Settles O34: the four commands come to the same check of the gate. -/
theorem gateDecidesGatedCommands : Obligations.GateDecidesGatedCommands := by
  refine fun s => ⟨fun hclosed => ?_, fun hopt hrd => ?_⟩
  · have hskip (body : State → State) : s.checkGate true body = s.complete :=
      checkGate_closed s body (Bool.eq_false_iff.mpr (mt (gateOpen_iff s).mp hclosed))
    exact ⟨fun blk pt hblk => congrArg _ ((checkBlk_legal s _ blk _ (decide_eq_true hblk)).trans (hskip _)),
      congrArg _ (hskip _), congrArg _ (hskip _), congrArg _ (hskip _)⟩
  · have hsame := checkGate_open ((gateOpen_iff s).mpr ⟨hopt, hrd⟩)
    exact ⟨fun blk pt => congrArg _ (checkBlk_congr s _ blk (hsame _)),
      congrArg _ (hsame _), congrArg _ (hsame _), congrArg _ (hsame _)⟩

/-- Settles O35: the guard skips the pass unless the gate has. -/
theorem missingNeighbourSkipsPartialPasses : Obligations.MissingNeighbourSkipsPartialPasses := by
  intro s g hmissing
  have hskip {body : State → State} (h : body s = s.complete) : s.checkGate g body = s.complete :=
    checkGate_elim (· = s.complete) rfl h
  have hguard := checkGuard_missing hmissing
  exact ⟨congrArg _ (hskip (hguard _)), congrArg _ (hskip (hguard _))⟩

/-! ### The checks of a pass (44_orchestration R251, 60_exceptions R283) -/

section
variable {s : State} {g : Bool} (hgate : s.GateAllows g)
include hgate

theorem exec_optMb_checks (hmode : s.mbcfg.mode ≠ 3) :
    exec (.optMb g) s = .next (s.checkBlocks s.listMb fun u => (u.pass u.listMb).complete) :=
  congrArg _ ((checkGate_allowed s g _ hgate).trans (checkMode_legal s _ hmode))

theorem exec_optMby_checks (hguard : s.NeighboursValid) (hmode : s.mbcfg.mode ≠ 3) :
    exec (.optMby g) s = .next (s.checkBlocks s.listY fun u => (u.pass u.listY).complete) :=
  congrArg _ ((checkGate_allowed s g _ hgate).trans
    ((checkGuard_valid s _ hguard.1 hguard.2).trans (checkMode_legal s _ hmode)))

theorem exec_optMbuv_checks (hguard : s.NeighboursValid) :
    exec (.optMbuv g) s = .next (s.checkBlocks listUv fun u => (u.pass listUv).complete) :=
  congrArg _ ((checkGate_allowed s g _ hgate).trans (checkGuard_valid s _ hguard.1 hguard.2))

end

theorem firstFailure_append_of_ready {s : State} {pre : List (Nat × BitVec 2)}
    (hpre : ∀ bt ∈ pre, s.BlockReady bt.1 bt.2) (rest : List (Nat × BitVec 2)) :
    s.firstFailure (pre ++ rest) = s.firstFailure rest := by
  induction pre with
  | nil => rfl
  | cons bt pre ih =>
    obtain ⟨hready, hpre⟩ := List.forall_mem_cons.mp hpre
    rw [List.cons_append, State.firstFailure, (checkBlock_none_iff s _ _).mpr hready]
    exact ih hpre

theorem checkBlocks_ready {s : State} {list : List (Nat × BitVec 2)} (h : ∀ bt ∈ list, s.BlockReady bt.1 bt.2)
    (body : State → State) : s.checkBlocks list body = body s := by
  have hpasses := (firstFailure_none_iff s list).mpr fun bt hbt => (checkBlock_none_iff s _ _).mpr (h bt hbt)
  rw [State.checkBlocks, hpasses]

/-- Behind blocks that pass, the block that fails decides the error. -/
theorem checkBlocks_blockFails {s : State} {pre : List (Nat × BitVec 2)} {b : Nat} {pt : BitVec 2} {c : ErrorCode}
    {pos : Nat} (hpre : ∀ bt ∈ pre, s.BlockReady bt.1 bt.2) (h : s.BlockFails b pt c pos)
    (post : List (Nat × BitVec 2)) (body : State → State) :
    s.checkBlocks (pre ++ (b, pt) :: post) body = s.failsWith c (BitVec.ofNat 5 b) (BitVec.ofNat 5 pos) := by
  rw [State.checkBlocks, firstFailure_append_of_ready hpre, State.firstFailure, checkBlock_of_blockFails h]
  rfl

/-- Settles O38: each pass comes to the check of its list, which the first failing block decides. -/
theorem firstFailingBlockEndsThePass : Obligations.FirstFailingBlockEndsThePass := by
  intro s g pre post b pt c pos hgate hpre hfails
  refine ⟨fun hmode hlist => ?_, fun hguard hmode hlist => ?_, fun hguard hlist => ?_⟩
  · rw [exec_optMb_checks hgate hmode, hlist, checkBlocks_blockFails hpre hfails]
  · rw [exec_optMby_checks hgate hguard hmode, hlist, checkBlocks_blockFails hpre hfails]
  · rw [exec_optMbuv_checks hgate hguard, hlist, checkBlocks_blockFails hpre hfails]

/-! ### A pass is CTX_SNAP, OPT_B of its blocks, and CTX_COMMIT if set (44_orchestration R253) -/

theorem complete_optimize (s : State) (b : Nat) (t : BitVec 2) :
    s.complete.optimize b t = (s.optimize b t).complete := by
  unfold State.optimize
  rw [complete_replay]
  rfl

/-- An optimization leaves another block's check as it was. -/
theorem optimize_blockReady_other {s : State} {b c : Nat} (t u : BitVec 2) (hne : c ≠ b) (h : s.BlockReady c u) :
    (s.optimize b t).BlockReady c u := by
  have hlevel (i : Nat) : (s.optimize b t).levelScan c i = s.levelScan c i := by
    have hz := zz_lt i
    exact congrArg BitVec.toInt (optimize_block_other s b t (by omega)).1
  simpa only [State.BlockReady, optimize_eobAt_other s b t hne, hlevel] using h

/-- OPT_B of distinct ready blocks, one after another, optimizes them in that order. -/
theorem execAll_optB {s : State} {list : List (Nat × BitVec 2)} (hlt : ∀ bt ∈ list, bt.1 < 25)
    (hdistinct : (list.map Prod.fst).Nodup) (hready : ∀ bt ∈ list, s.BlockReady bt.1 bt.2) (is : List Instr) :
    execAll (list.map (fun bt => .optB (BitVec.ofNat 5 bt.1) bt.2 false) ++ is) s.complete =
      execAll is (s.optimizeAll list).complete := by
  induction list generalizing s with
  | nil => rfl
  | cons bt list ih =>
    rw [List.forall_mem_cons] at hlt hready
    rw [List.map_cons, List.nodup_cons] at hdistinct
    obtain ⟨hb, hlt⟩ := hlt
    obtain ⟨hfirst, hready⟩ := hready
    obtain ⟨hnew, hdistinct⟩ := hdistinct
    have hblk : (BitVec.ofNat 5 bt.1).toNat = bt.1 := Nat.mod_eq_of_lt (by omega)
    have hexec : exec (.optB (BitVec.ofNat 5 bt.1) bt.2 false) s.complete = .next (s.optimize bt.1 bt.2).complete := by
      rw [exec_optB (by omega) (absurd · Bool.false_ne_true) (hblk.symm ▸ hfirst), hblk, complete_optimize,
        complete_complete]
    rw [List.map_cons, List.cons_append, execAll_cons hexec, optimizeAll_cons]
    refine ih hlt hdistinct fun c hc => optimize_blockReady_other _ _ (fun heq => hnew ?_) (hready c hc)
    exact heq ▸ List.mem_map_of_mem hc

/-- The commands a pass over distinct ready blocks stands for leave what the pass leaves. -/
theorem execAll_pass {s : State} {list : List (Nat × BitVec 2)} (hlt : ∀ bt ∈ list, bt.1 < 25)
    (hdistinct : (list.map Prod.fst).Nodup) (hready : ∀ bt ∈ list, s.BlockReady bt.1 bt.2) :
    execAll ([.ctxSnap] ++ list.map (fun bt => .optB (BitVec.ofNat 5 bt.1) bt.2 false) ++
      if s.ctrl.ctxCommit then [.ctxCommit] else []) s = .next (s.pass list).complete := by
  have hctrl : (s.snap.optimizeAll list).ctrl = s.ctrl := by rw [optimizeAll_frame, State.snap_ctrl]
  have hsnap : exec .ctxSnap s = .next s.snap.complete := rfl
  rw [List.append_assoc, List.singleton_append, execAll_cons hsnap, execAll_optB (s := s.snap) hlt hdistinct hready,
    State.pass, State.commitIfSet, hctrl]
  split <;> rfl

theorem lumaBlocks_eq (s : State) :
    s.lumaBlocks = (List.range 16).map fun b => (b, if s.mbcfg.mode = 0 then 0#2 else 3#2) := by
  simp only [State.lumaBlocks, State.lumaType, hasY2_iff]
  rfl

theorem secondOrderBlock_eq (s : State) : s.secondOrderBlock = if s.mbcfg.mode = 0 then [(24, 1#2)] else [] := by
  simp only [State.secondOrderBlock, hasY2_iff]

theorem listMb_distinct (s : State) : (s.listMb.map Prod.fst).Nodup := by
  unfold State.listMb State.lumaBlocks State.secondOrderBlock State.lumaType
  cases s.hasY2 <;> decide

theorem listY_distinct (s : State) : (s.listY.map Prod.fst).Nodup := by
  unfold State.listY State.lumaBlocks State.secondOrderBlock State.lumaType
  cases s.hasY2 <;> decide

/-- Settles O57: a pass whose checks let it run is `State.pass` of its list, and so are its commands. -/
theorem passesEqualTheirBlocksInOrder : Obligations.PassesEqualTheirBlocksInOrder := by
  rintro s g luma chroma second last run hgate hluma hchroma hsecond rfl hrun
  obtain rfl : luma = s.lumaBlocks := hluma.trans (lumaBlocks_eq s).symm
  obtain rfl : second = s.secondOrderBlock := hsecond.trans (secondOrderBlock_eq s).symm
  obtain rfl : chroma = listUv := hchroma
  have hcommands {list : List (Nat × BitVec 2)} (hlt : ∀ bt ∈ list, bt.1 < 25)
      (hdistinct : (list.map Prod.fst).Nodup) (hready : ∀ bt ∈ list, s.BlockReady bt.1 bt.2) :
      execAll (run list) s = .next (s.pass list).complete := (hrun list).symm ▸ execAll_pass hlt hdistinct hready
  refine ⟨fun hmode hready => ⟨_, ?_, hcommands (listMb_lt s) (listMb_distinct s) hready⟩,
    fun hguard hmode hready => ⟨_, ?_, hcommands (listY_lt s) (listY_distinct s) hready⟩,
    fun hguard hready => ⟨_, ?_, hcommands listUv_lt (by decide) hready⟩⟩
  · exact (exec_optMb_checks hgate hmode).trans (congrArg _ (checkBlocks_ready hready _))
  · exact (exec_optMby_checks hgate hguard hmode).trans (congrArg _ (checkBlocks_ready hready _))
  · exact (exec_optMbuv_checks hgate hguard).trans (congrArg _ (checkBlocks_ready hready _))

end Sys2Proof.Machine
end

section
/-! How a command is taken, ends, and is noticed (60_exceptions R282, R285, R290, R292): CMD writes, precise errors, the
sticky flag, and the interrupt output. -/

namespace Sys2Proof.Machine

/-! ### CMD writes (R282) -/

/-- A CMD write is the same operation IDLE and BUSY (20_memory R80): `State.writeCmd` checks BUSY itself. -/
theorem writeWindow_cmd (s : State) (w : Word) :
    s.writeWindow 0x00C w = { s.writeCmd w with reply := some .taken } := by
  unfold State.writeWindow
  split <;> rfl

theorem writeCmd_refused {s : State} (w : Word) (h : ¬(s.latch = none ∧ s.status.error = none)) :
    s.writeCmd w = { s with status := { s.status with ovr := true } } := by
  refine if_pos ?_
  by_cases hlatch : s.latch = none
  · have herr : s.status.error.isSome = true := Option.isSome_iff_ne_none.mpr fun herr => h ⟨hlatch, herr⟩
    rw [herr, Bool.or_true]
  · have hbusy : s.busy = true := Option.isSome_iff_ne_none.mpr hlatch
    rw [hbusy, Bool.true_or]

/-- Settles O12: an accepted write latches the word for LATENCY(op) steps, which is at least 1. -/
theorem cmdWriteIsAcceptedOrSetsOvr : Obligations.CmdWriteIsAcceptedOrSetsOvr := by
  intro s w
  rw [hostWrite_word s _ _ w (wordAt_base s (by decide) (by decide))]
  refine ⟨fun ⟨hlatch, herr⟩ => ⟨s.latency w, Nat.succ_pos _, ?_⟩, fun h => ?_⟩
  · rw [writeWindow_cmd_accepted w hlatch herr]
  · rw [writeWindow_cmd, writeCmd_refused w h]

/-! ### The two ends of a command (R285, R290) -/

theorem bodyFrame_error {i : Instr} {s u : State} (h : s.BodyFrame i u) : u.status.error = s.status.error :=
  congrArg (fun v => v.status.error) h.eq

theorem bodyFrame_ctrl {i : Instr} {s u : State} (h : s.BodyFrame i u) : u.ctrl = s.ctrl :=
  congrArg (fun v => v.ctrl) h.eq

/-- Settles O31: an error end is `State.raise` of the state before, and a completed body leaves ERR at 0. -/
theorem errorsArePrecise : Obligations.ErrorsArePrecise := by
  intro i s t c herr h hc
  obtain ⟨f, rfl⟩ | ⟨u, rfl, hu⟩ := exec_next_ends h
  · cases hc
    rfl
  · have hnone : u.complete.status.error = none := (bodyFrame_error hu).trans herr
    cases hnone.symm.trans hc

/-- Settles O32: an error end keeps WRAP, and a completed body leaves it as its `BodyFrame` says. -/
theorem wrapIsSticky : Obligations.WrapIsSticky := by
  intro i s t h
  obtain ⟨f, rfl⟩ | ⟨u, rfl, hu⟩ := exec_next_ends h
  · exact ⟨id, fun _ => rfl⟩
  · exact ⟨hu.sticky, hu.noWrap⟩

/-! ### The interrupt output (R292) -/

theorem irq_iff (s : State) :
    s.irq = true ↔ s.ctrl.irqEn = true ∧ (s.status.done = true ∨ s.status.error.isSome = true) := by
  rw [State.irq, Bool.and_eq_true, Bool.or_eq_true]

theorem irq_of_disabled {s : State} (h : s.ctrl.irqEn = false) : s.irq = false := by
  rw [State.irq, h, Bool.false_and]

theorem irq_of_no_cause {s : State} (hdone : s.status.done = false) (herr : s.status.error = none) :
    s.irq = false := by
  rw [State.irq, hdone, herr, Option.isSome_none, Bool.or_self, Bool.and_false]

theorem ends_ctrl {i : Instr} {s t : State} (h : s.Ends i t) : t.ctrl = s.ctrl := by
  obtain ⟨f, rfl⟩ | ⟨u, rfl, hu⟩ := h
  · rfl
  · exact (State.complete_ctrl u).trans (bodyFrame_ctrl hu)

/-- A command's end sets DONE or ERR, so the output is IRQ_EN. -/
theorem ends_irq {i : Instr} {s t : State} (h : s.Ends i t) : t.irq = s.ctrl.irqEn := by
  obtain ⟨-, ⟨hdone, -⟩ | ⟨-, herr⟩⟩ := ends_flags h
  · rw [State.irq, ends_ctrl h, hdone, Bool.true_or, Bool.and_true]
  · rw [State.irq, ends_ctrl h, herr, Bool.or_true, Bool.and_true]

theorem cleared_done {st : Status} {w : Word} (h : st.done = true → w.getLsbD 1 = true) :
    (st.cleared w).done = false :=
  ite_elim (· = false) (fun _ => rfl) fun hkeep => Bool.eq_false_iff.mpr (mt h hkeep)

theorem cleared_error {st : Status} {w : Word} (h : st.error.isSome = true → w.getLsbD 2 = true) :
    (st.cleared w).error = none :=
  ite_elim (· = none) (fun _ => rfl) fun hkeep => Option.not_isSome_iff_eq_none.mp (mt h hkeep)

/-- A CTRL write without SOFT_RESET to the idle engine stores CTRL's fields (10_state R34). -/
theorem writeWindow_ctrl {s : State} {v : Word} (hlatch : s.latch = none) (hsoft : v.getLsbD 31 = false) :
    s.writeWindow 0x004 v = { s with reply := some .taken, ctrl := Ctrl.ofWord v } := by
  have hwrite : s.writeLoc (locate 0x004) v = { s with ctrl := Ctrl.ofWord v } :=
    if_neg (Bool.eq_false_iff.mp hsoft)
  rw [writeWindow_idle s _ v hlatch, hwrite]

/-- Settles O33: a command's end sets a cause; a STATUS write or an accepted command clears both, and a CTRL write
clears IRQ_EN. -/
theorem interruptIsALevel : Obligations.InterruptIsALevel := by
  intro s
  have hword {off : Nat} (hin : off < 0x10000) (haligned : off % 4 = 0) (v : Word) :=
    hostWrite_word s _ off v (wordAt_base s hin haligned)
  refine ⟨irq_iff s, fun i t h => ends_irq (exec_next_ends h), fun v t h hdone herr => ?_,
    fun v t hlatch h hen hsoft => ?_, fun v t hlatch herr h => ?_⟩
  · rw [hword (by decide) (by decide), writeWindow_status] at h
    cases h
    exact irq_of_no_cause (cleared_done hdone) (cleared_error herr)
  · rw [hword (by decide) (by decide), writeWindow_ctrl hlatch hsoft] at h
    cases h
    exact irq_of_disabled hen
  · rw [hword (by decide) (by decide), writeWindow_cmd_accepted v hlatch herr] at h
    cases h
    exact irq_of_no_cause rfl herr

end Sys2Proof.Machine
end

section
/-! The two resets (70_reset R320..R322): soft reset by a CTRL write, and the hardware reset as a host action. -/

namespace Sys2Proof.Machine

/-! ### Soft reset (R321) -/

/-- A CTRL write with SOFT_RESET to the idle engine stores none of its own fields (10_state R34). -/
theorem writeWindow_ctrl_softReset {s : State} {v : Word} (hlatch : s.latch = none) (hsoft : v.getLsbD 31 = true) :
    s.writeWindow 0x004 v = { s.softReset with reply := some .taken } := by
  have hwrite : s.writeLoc (locate 0x004) v = s.softReset := if_pos hsoft
  rw [writeWindow_idle s _ v hlatch, hwrite]

/-- Settles O23: `writeWindow_ctrl_softReset` while IDLE; while BUSY the write is dropped like any other (O14). -/
theorem softResetSetsEveryRegister : Obligations.SoftResetSetsEveryRegister := by
  intro s v hsoft
  have hword := wordAt_base s (off := 0x004) (by decide) (by decide)
  refine ⟨fun hlatch => ?_, fun hbusy => ?_⟩
  · rw [hostWrite_word s _ _ v hword, writeWindow_ctrl_softReset hlatch hsoft, State.softReset, ← hlatch]
    rfl
  · obtain ⟨-, -, hdropped⟩ := writesWhileBusyAreDropped s _ _ v hbusy hword
    exact hdropped (by decide) (by decide)

/-! ### Hardware reset (R320) -/

/-- The reset abandons the latched command, so it is the same before and after a BUSY step has passed. -/
theorem hardReset_hostTurn {s t : State} (hturn : s.HostTurn t) (rest : List HostAction) :
    ({ t with host := rest } : State).hardReset = ({ s with host := rest } : State).hardReset := by
  obtain ⟨-, rfl⟩ | ⟨w, n, -, rfl⟩ := hturn
  · rfl
  · rfl

theorem step_hardReset {s t : State} {rest : List HostAction} (hturn : s.HostTurn t)
    (hhost : s.host = .hardReset :: rest) : step s = .next ({ s with host := rest } : State).hardReset := by
  have hmove : t.hostMove = .next ({ t with host := rest } : State).hardReset := by
    simp only [State.hostMove, hostTurn_host s t hturn, hhost]
  rw [hostTurn_step s t hturn, hmove, hardReset_hostTurn hturn]

/-- Settles O24: after the reset IRQ_EN is 0, and with BUSY, ERR and DONE 0 a CMD write is accepted (O12). -/
theorem hardwareResetSetsEveryRegister : Obligations.HardwareResetSetsEveryRegister := by
  intro s t rest hturn hhost
  refine ⟨_, step_hardReset hturn hhost, rfl, irq_of_disabled rfl, fun v => ?_⟩
  obtain ⟨haccepted, -⟩ := cmdWriteIsAcceptedOrSetsOvr ({ s with host := rest } : State).hardReset v
  exact haccepted ⟨rfl, rfl⟩

end Sys2Proof.Machine
end
